-- ==== Sys2Proof/Word.lean ====
section
/-! DEFINITION. The word types of the Q8 GEMV kernel block: bytes, 32-bit outputs, 64-bit registers (R11, R13). -/

namespace Sys2Proof

/-- An element of the weight matrix or of the input vector, and a cell of the data space (R11, R60). -/
abbrev Byte := BitVec 8

/-- An output element and an accumulator lane (R11, R141, R142). -/
abbrev Word32 := BitVec 32

/-- A register of the block (R13). -/
abbrev Word64 := BitVec 64

end Sys2Proof
end

