-- ==== Sys2Proof/Config.lean ====
section
/-! DEFINITION. The parameters a model takes (R12) and the constants the spec fixes.

R20 calls `HAS_DOTPROD`, `ADDR_BITS`, `REG_BASE` and `MEM_ADMIT` parameters, not state. They stand in the record
`Params`, which `State` carries and no step changes, so that a statement about every state is a statement about every
value of every parameter (log 1). The spec leaves no result undefined, so there is no free value here. -/

namespace Sys2Proof

/-- A range of byte addresses: `size` bytes from `base` on. -/
structure Region where
  base : Nat
  size : Nat
deriving DecidableEq, Repr

/-- Whether the address `a` lies in the region. -/
def Region.contains (r : Region) (a : Nat) : Bool :=
  decide (r.base ≤ a) && decide (a < r.base + r.size)

/-- `a` is an address of the region, as a proposition. -/
abbrev Region.Has (r : Region) (a : Nat) : Prop := r.base ≤ a ∧ a < r.base + r.size

/-- `overlap([a,b),[c,d)) = a < d and c < b` (R137). -/
def Region.overlaps (p q : Region) : Bool :=
  decide (p.base < q.base + q.size) && decide (q.base < p.base + p.size)

/-- The part of `p` outside `q`, as at most two ranges, none of them empty. -/
def Region.minus (p q : Region) : List Region :=
  [⟨p.base, min (p.base + p.size) q.base - p.base⟩,
    ⟨max p.base (q.base + q.size), p.base + p.size - max p.base (q.base + q.size)⟩].filter (fun r => r.size != 0)

/-- `ACC_OVERFLOW`, the model's treatment of an accumulator overflow (R12, R145). -/
inductive AccOverflow where
  | wrap               -- the block's behaviour (D7)
  | refuseOutOfRange   -- a fault where a row's exact sum leaves the 32-bit range
  | refuseUnsafeK      -- a fault on an accepted command with `K > K_SAFE`
deriving DecidableEq, Repr

/-- The parameters of R12 that the spec leaves open, and the reading of R139 (log 1, log 5). -/
structure Params where
  /-- `HAS_DOTPROD` (R3, R12). -/
  hasDotprod : Bool
  /-- `ADDR_BITS` (R12): legal 32 to 64. -/
  addrBits : Nat
  /-- `REG_BASE` (R12, R23). -/
  regBase : Nat
  /-- `ACC_OVERFLOW` (R12, R145). -/
  accOverflow : AccOverflow
  /-- `MEM_ADMIT` (R12, R78): the ranges the platform's memory provides. -/
  memAdmit : List Region
  /-- The ranges the platform says are memory with read side effects (R75, D12); a list of ranges is the model's form,
  and an empty range holds no address (log 14). -/
  sideEffects : List Region
  /-- Which of R139's two readings this model follows: `false`, an accepted command is one transition;
  `true`, the host sees `BUSY` and the engine works one operation at a time. -/
  visibleBusy : Bool
deriving DecidableEq, Repr

/-- The legal values of `ADDR_BITS`, 32 to 64 (R12). -/
abbrev Params.legal (p : Params) : Prop := 32 ≤ p.addrBits ∧ p.addrBits ≤ 64

/-- `MEM_ADMIT` as a predicate on addresses (R12, R78). -/
def Params.admits (p : Params) (a : Nat) : Bool := p.memAdmit.any (fun r => r.contains a)

/-- Whether the address belongs to memory with read side effects (R75). -/
def Params.hasSideEffect (p : Params) (a : Nat) : Bool := p.sideEffects.any (fun r => r.contains a)

namespace Config

/-- The parameters `State.reset` names: DESIGN CHOICE (log 1), but for `ADDR_BITS`, whose default of 64 is R12's. -/
def resetParams : Params where
  hasDotprod := true
  addrBits := 64
  regBase := 0
  accOverflow := .wrap
  memAdmit := [⟨0, 2 ^ 64⟩]
  sideEffects := []
  visibleBusy := false

/-- `K_SAFE` (R12, R145). -/
def kSafe : Nat := 131071

/-- The largest legal `N` and `K`, 2^31 - 1 (R134). -/
def maxDim : Nat := 2147483647

/-- Buffer alignment in bytes (R11, R73). -/
def bufferAlign : Nat := 64

/-- Size of the register block in bytes (R32). -/
def regBlockSize : Nat := 256

end Config
end Sys2Proof
end

