-- ==== Sys2Proof/Syntax.lean ====
section
/-! DEFINITION. The instructions of `spec/opcode_table.json`, one constructor a row, the kernel variants they name, and
the register accesses a host makes (format `BUS`, R101). -/

namespace Sys2Proof

/-- The four kernel variants, and no others (R2, R103). -/
inductive Kernel where
  | scalar               -- `scalar`, Scalar
  | singleRow            -- `dotprod`, SingleRowSIMD
  | fourRowBlocked       -- `dotprod4`, FourRowBlockedSIMD
  | fourRowInterleaved   -- `dotprod4i`, FourRowInterleavedSIMD
deriving DecidableEq, Repr

/-- The instructions: the four kernel commands (format `CMD`, R100) and the host's register accesses (format `BUS`,
R101). -/
inductive Instr where
  /-- `scalar`, command word 0 (R161). -/
  | scalar
  /-- `dotprod`, command word 1 (R171). -/
  | dotprod
  /-- `dotprod4`, command word 2 (R181). -/
  | dotprod4
  /-- `dotprod4i`, command word 3 (R185). -/
  | dotprod4i
  /-- `GO`: a write of `CTRL` with data[0] = 1 (R132). -/
  | go
  /-- `REG.RD offset` (R130). -/
  | regRd (offset : BitVec 8)
  /-- `REG.WR offset, data` (R131). -/
  | regWr (offset : BitVec 8) (data : Word64)
deriving DecidableEq, Repr

/-- The kernel variant as the instruction its mnemonic names (R103). -/
def Kernel.toInstr : Kernel → Instr
  | .scalar => .scalar
  | .singleRow => .dotprod
  | .fourRowBlocked => .dotprod4
  | .fourRowInterleaved => .dotprod4i

/-- The two instruction formats (R100, R101). -/
inductive Format where
  | cmd
  | bus
deriving DecidableEq, Repr

/-- The registers of the map (R23), and the reserved offsets (R32). -/
inductive Reg where
  | cap | cmd | n | k | kpad | prefetch | wBase | xBase | yBase | ctrl | status | reserved
deriving DecidableEq, Repr

/-- A host access aimed at the register block, as the host makes it: an address in the host's space (`REG_BASE` plus
the offset, R23), a width in bytes, a direction, and the data of a write. Widths other than 8 and addresses that are no
offset of the block are outside the format `BUS` (R101, R32). -/
structure BusAccess where
  addr  : Nat
  width : Nat
  write : Bool
  data  : Word64
deriving DecidableEq, Repr

/-- Why an encoding is no instruction: the decoder rejects by name. -/
inductive DecodeError where
  | reservedBits        -- `CMD[63:3] != 0` (R105)
  | reservedKernel      -- `CMD[2:0] >= 4` (R105)
  | outsideBlock        -- an offset not below 0x100 (R32, R101)
  | wrongWidth          -- an access that is not of 8 bytes (R32, R101)
  | misalignedOffset    -- an offset that is not a multiple of 8 (R32, R101)
  | wrongDirection      -- a direction byte that is neither `R` nor `W` (log 3)
  | wrongLength         -- too few or too many bytes for the format
deriving DecidableEq, Repr

end Sys2Proof
end

