-- ==== Sys2Proof/WellFormed.lean ====
section
/-! DEFINITION. Which terms of `Instr` an encoding stands for (R101, R106, R107; log 4). -/

namespace Sys2Proof

/-- The instruction's format (R100, R101). -/
def Instr.format : Instr → Format
  | .scalar => .cmd
  | .dotprod => .cmd
  | .dotprod4 => .cmd
  | .dotprod4i => .cmd
  | .go => .bus
  | .regRd _ => .bus
  | .regWr _ _ => .bus

/-- `offset` is a multiple of 8 in 0x00..0xF8 (R101). -/
def offsetAligned (o : BitVec 8) : Bool := o.toNat % 8 == 0

/-- A write of 1 to `CTRL.GO`: the words of the instruction `GO` (R31, R107). -/
def isGoWrite (o : BitVec 8) (data : Word64) : Bool := o == 0x48#8 && data.getLsbD 0

/-- An instruction is well formed when its offset is aligned (R101); a write of 1 to `CTRL.GO` is the instruction `GO`,
not `REG.WR` (log 4). -/
def Instr.wf : Instr → Bool
  | .scalar => true
  | .dotprod => true
  | .dotprod4 => true
  | .dotprod4i => true
  | .go => true
  | .regRd o => offsetAligned o
  | .regWr o d => offsetAligned o && !isGoWrite o d

end Sys2Proof
end

