-- ==== Sys2Proof/Decode.lean ====
section
/-! DEFINITION. The decoder, total on any words and bytes, and the encoder (R100 to R107). The bit layout of a `BUS`
triple is the model's (log 3): byte 0 the offset, byte 1 the direction (0 `R`, 1 `W`), bytes 2 to 9 the data, least
significant byte first. -/

namespace Sys2Proof

/-! ## The command word -/

/-- `CMD[2:0]` (R100). -/
def kernelField (cmd : Word64) : BitVec 3 := cmd.extractLsb' 0 3

/-- `CMD[63:3]` (R100). -/
def reservedField (cmd : Word64) : BitVec 61 := cmd.extractLsb' 3 61

/-- The decode function, total on every 64-bit `CMD` value (R104). -/
def decodeCommand (cmd : Word64) : Except DecodeError Kernel :=
  if reservedField cmd ≠ 0 then .error .reservedBits
  else match (kernelField cmd).toNat with
    | 0 => .ok .scalar
    | 1 => .ok .singleRow
    | 2 => .ok .fourRowBlocked
    | 3 => .ok .fourRowInterleaved
    | _ => .error .reservedKernel

/-- The command word as an instruction (R103). -/
def decodeCommandWord (cmd : Word64) : Except DecodeError Instr :=
  match decodeCommand cmd with
  | .ok k => .ok k.toInstr
  | .error e => .error e

/-- The `CMD` value of a kernel variant (R103). -/
def Kernel.code : Kernel → Word64
  | .scalar => 0
  | .singleRow => 1
  | .fourRowBlocked => 2
  | .fourRowInterleaved => 3

/-! ## Register accesses -/

/-- The register at an offset of the block (R23); the reserved offsets (R32) answer `reserved`. -/
def regAt (o : BitVec 8) : Reg :=
  match o.toNat with
  | 0x00 => .cap
  | 0x08 => .cmd
  | 0x10 => .n
  | 0x18 => .k
  | 0x20 => .kpad
  | 0x28 => .prefetch
  | 0x30 => .wBase
  | 0x38 => .xBase
  | 0x40 => .yBase
  | 0x48 => .ctrl
  | 0x50 => .status
  | _ => .reserved

/-- The offset of a register (R23). -/
def Reg.offset : Reg → BitVec 8
  | .cap => 0x00
  | .cmd => 0x08
  | .n => 0x10
  | .k => 0x18
  | .kpad => 0x20
  | .prefetch => 0x28
  | .wBase => 0x30
  | .xBase => 0x38
  | .yBase => 0x40
  | .ctrl => 0x48
  | .status => 0x50
  | .reserved => 0x58

/-- The instruction of an access of `width` bytes at `offset` from `REG_BASE` (R101, R32); a write of 1 to `CTRL.GO` is
`GO` (R107). -/
def decodeBus (offset width : Nat) (write : Bool) (data : Word64) : Except DecodeError Instr :=
  if Config.regBlockSize ≤ offset then .error .outsideBlock
  else if width ≠ 8 then .error .wrongWidth
  else if offset % 8 ≠ 0 then .error .misalignedOffset
  else if write then
    if isGoWrite (BitVec.ofNat 8 offset) data then .ok .go else .ok (.regWr (BitVec.ofNat 8 offset) data)
  else .ok (.regRd (BitVec.ofNat 8 offset))

/-- The instruction of a host access at an address of the host's space, the block standing at `regBase` (R23, R60). -/
def decodeAccess (regBase : Nat) (a : BusAccess) : Except DecodeError Instr :=
  if a.addr < regBase then .error .outsideBlock
  else decodeBus (a.addr - regBase) a.width a.write a.data

/-! ## Bytes -/

/-- The `count` low bytes of `w`, least significant first. -/
def leBytes : Nat → Nat → List Byte
  | 0, _ => []
  | count + 1, w => BitVec.ofNat 8 w :: leBytes count (w / 256)

/-- The number whose bytes, least significant first, are given. -/
def ofLeBytes : List Byte → Nat
  | [] => 0
  | b :: bs => b.toNat + 256 * ofLeBytes bs

/-- The bytes of an instruction in a format. -/
def formatBytes : Format → Nat
  | .cmd => 8
  | .bus => 10

/-- The decoder on the bytes of an instruction, total on any bytes. -/
def decodeBytes (f : Format) (bytes : List Byte) : Except DecodeError Instr :=
  if bytes.length ≠ formatBytes f then .error .wrongLength
  else match f with
    | .cmd => decodeCommandWord (BitVec.ofNat 64 (ofLeBytes bytes))
    | .bus =>
      match bytes with
      | offset :: dir :: data =>
        if dir = 1 then decodeBus offset.toNat 8 true (BitVec.ofNat 64 (ofLeBytes data))
        else if dir = 0 then decodeBus offset.toNat 8 false 0
        else .error .wrongDirection
      | _ => .error .wrongLength

/-- The bytes of an instruction, written from the spec's formats (R100, R101, R103, R107). The data of a read, which the
block returns, is written as zero. -/
def encode : Instr → List Byte
  | .scalar => leBytes 8 (Kernel.code .scalar).toNat
  | .dotprod => leBytes 8 (Kernel.code .singleRow).toNat
  | .dotprod4 => leBytes 8 (Kernel.code .fourRowBlocked).toNat
  | .dotprod4i => leBytes 8 (Kernel.code .fourRowInterleaved).toNat
  | .go => 0x48#8 :: 1#8 :: leBytes 8 1
  | .regRd o => o :: 0#8 :: leBytes 8 0
  | .regWr o d => o :: 1#8 :: leBytes 8 d.toNat

/-- The format of a table row of `nbits` bits: a row of 64 bits is a command word (R100), any other a `BUS` triple
(log 3). -/
def rowFormat (nbits : Nat) : Format := if nbits = 64 then .cmd else .bus

/-- The instruction the decoder reads from a table word (bit 0 the least significant bit of the first byte). -/
def decodeTableWord (nbits w : Nat) : Option Instr :=
  if 2 ^ (8 * formatBytes (rowFormat nbits)) ≤ w then none
  else match decodeBytes (rowFormat nbits) (leBytes (formatBytes (rowFormat nbits)) w) with
    | .ok i => some i
    | .error _ => none

end Sys2Proof
end

