-- ==== Sys2Proof/Machine/State.lean ====
section
/-! DEFINITION. The state of the block as plain data: the register file (R23), the engine's state and error code (R33),
the hidden working state of a running command (R30), the bytes of the data space (R60), and the model's own fields
(parameters, what the host was given back, what the host and the platform do next). -/

namespace Sys2Proof.Machine

/-- One SIMD accumulator: 4 lanes of 32 bits (R30, R142). -/
structure Lanes where
  l0 : Word32
  l1 : Word32
  l2 : Word32
  l3 : Word32
deriving DecidableEq, Repr

/-- The SIMD accumulators `A[0..3]` (R30); `dotprod` uses `A[0]` alone (R171). -/
structure Accs where
  a0 : Lanes
  a1 : Lanes
  a2 : Lanes
  a3 : Lanes
deriving DecidableEq, Repr

/-- The hidden working state of a running command (R30), kept only while it runs. -/
structure Engine where
  /-- The variant being run, decoded once at `GO` (R133). -/
  kernel : Kernel
  /-- The outer loop index: the row `r` (R161, R171) or the block `b` (R181, R185). -/
  row : Nat
  /-- The inner loop index: the column `j` (R161) or the chunk `c` (R171, R181, R185). -/
  col : Nat
  /-- The scalar accumulator (R161). -/
  acc : Word32
  /-- The SIMD accumulators (R171, R181, R185). -/
  accs : Accs
  /-- The input operand `XV`, lane `t` at index `t`; empty before the first load (log 7). -/
  xv : List Byte
  /-- The weight operand `WV`, lane `t` at index `t`; empty before the first load (log 7). -/
  wv : List Byte
deriving DecidableEq, Repr

/-- The error codes a refusal records (R221); code 0, `NONE`, is every other status. -/
inductive ErrorCode where
  | arg     -- 1, `ERR_ARG` (R134)
  | cap     -- 2, `ERR_CAP` (R135)
  | align   -- 3, `ERR_ALIGN` (R136)
  | range   -- 4, `ERR_RANGE` (R137)
deriving DecidableEq, Repr

/-- `STATUS.STATE` with `STATUS.ERR` (R33): a code is there only in `ERROR`, hidden state only in `BUSY`. -/
inductive Status where
  | idle                   -- no command since reset
  | busy (e : Engine)      -- a command is running
  | done                   -- the last command completed and its output is written
  | error (c : ErrorCode)  -- the last command was refused; terminal until reset (R226)
deriving DecidableEq, Repr

/-- The registers that hold a value (R23, the `RW` rows). -/
structure Regs where
  cmd      : Word64
  n        : Word64
  k        : Word64
  prefetch : Word64
  wBase    : Word64
  xBase    : Word64
  yBase    : Word64
deriving DecidableEq, Repr

/-- The data space: the bytes that have a value, addresses strictly rising (log 8). -/
abbrev Memory := List Host.Cell

/-- What the host or the platform does next, or a turn the engine gets between two of those (log 2). -/
inductive HostEvent where
  /-- A register access (R101). -/
  | access (a : BusAccess)
  /-- `WAIT`: read `STATUS` until `STATE != BUSY` (R107). -/
  | wait
  /-- The engine performs one operation before the host's next event (log 5). -/
  | engine
  /-- A read of one byte of the data space. -/
  | memRead (addr : Nat)
  /-- A write of one byte of the data space. -/
  | memWrite (addr : Nat) (value : Byte)
  /-- A platform reset of the block (R251). -/
  | reset
deriving DecidableEq, Repr

/-- Output the host has not been promised yet (R79(b); log 11). -/
structure Unsynced where
  /-- The output range of the last completed command, until the host reads `STATUS` as `DONE` for it. -/
  latest : Option Region
  /-- What is left of the ranges of earlier commands that were never read as `DONE`. -/
  older : List Region
deriving DecidableEq, Repr

/-- The machine. `params` (R12) and the fields from `busData` on are the model's own, not the block's state. -/
structure State where
  /-- The parameters of R12; no step changes them (log 1). -/
  params : Params
  /-- The stored registers (R23). -/
  regs : Regs
  /-- The engine's state and error code (R33), with the hidden state of R30. -/
  status : Status
  /-- The data space (R60). -/
  mem : Memory
  /-- The data the last register read returned (R101; log 17). -/
  busData : Word64
  /-- The byte the host's last read of the data space returned (R72; log 17). -/
  memData : Byte
  /-- The output ranges of commands whose `DONE` the host has not read (R79; log 11). -/
  unsynced : Unsynced
  /-- What happens next, the next event first (log 2). -/
  pending : List HostEvent
deriving DecidableEq, Repr

/-- Where the model stops and the spec calls for a model fault (R223). Each is safe: the model stops where the hardware
would go on with a value no rule fixes. -/
inductive Fault where
  /-- A read of a byte that nothing has written, by a command or by the host (R71). Safe. -/
  | unwritten (addr : Nat)
  /-- An access to an address `MEM_ADMIT` does not admit, by a command or by the host (R78). Safe. -/
  | notAdmitted (addr : Nat)
  /-- An access to an address outside the data space (R60). Safe. -/
  | outsideSpace (addr : Nat)
  /-- A host access to a running command's buffers (R86). Safe. -/
  | busyBuffer (addr : Nat)
  /-- A host read of output whose `DONE` the host has not read, or a host write of the last command's such output (R79;
  log 11). Safe. -/
  | unsyncedOutput (addr : Nat)
  /-- A row's exact sum outside the 32-bit range, under `refuse_out_of_range` (R145). Safe. -/
  | sumOutOfRange (row : Nat)
  /-- An accepted command with `K > K_SAFE`, under `refuse_unsafe_k` (R145). Safe. -/
  | unsafeK
deriving DecidableEq, Repr

/-- Where the model refuses: the spec gives no behaviour and says a model refuses, or the instruction has no meaning
yet. Each is safe. -/
inductive Refusal where
  /-- An instruction without a meaning, refused in `exec`'s arm; no arm does so. Safe. -/
  | notModelled (mnemonic : String)
  /-- A register access that is not an aligned 8-byte access at an offset below 0x100 (R32), raised by a step on such an
  access and by `REG.RD` and `REG.WR` on a misaligned offset. Safe. -/
  | badRegisterAccess
  /-- A buffer of an accepted command over memory with read side effects (R75), raised by `GO` and the kernel commands.
  Safe. -/
  | sideEffectBuffer
  /-- A host access to memory with read side effects, whose behaviour the spec does not give (R75). Safe. -/
  | sideEffectAccess
deriving DecidableEq, Repr

/-! ## One name for each update of a field -/

def State.withRegs (s : State) (r : Regs) : State := { s with regs := r }
def State.withStatus (s : State) (x : Status) : State := { s with status := x }
def State.withMem (s : State) (m : Memory) : State := { s with mem := m }
def State.withBusData (s : State) (d : Word64) : State := { s with busData := d }
def State.withMemData (s : State) (b : Byte) : State := { s with memData := b }
def State.withUnsynced (s : State) (u : Unsynced) : State := { s with unsynced := u }
def State.withPending (s : State) (p : List HostEvent) : State := { s with pending := p }

/-- The reset values of the registers (R23, R250). -/
def Regs.reset : Regs where
  cmd := 2
  n := 1024
  k := 1024
  prefetch := 2
  wBase := 0
  xBase := 0
  yBase := 0

/-- The machine after reset, with parameters `p` (R250); the model's own fields as log 1, log 2, log 11 and log 17 say. -/
def State.resetWith (p : Params) : State where
  params := p
  regs := Regs.reset
  status := .idle
  mem := []
  busData := 0
  memData := 0
  unsynced := ⟨none, []⟩
  pending := []

/-- The machine right after reset (R250), the open parameters at log 1's values. -/
def State.reset : State := State.resetWith Config.resetParams

end Sys2Proof.Machine
end

