-- ==== Sys2Proof/Machine/Flags.lean ====
section
/-! DEFINITION. The status and capability words. The block has no flag or condition code (R34): `STATUS` is the only
status there is, and it is computed from the engine's state (R33). -/

namespace Sys2Proof.Machine

/-- The numeric error code (R221). -/
def ErrorCode.code : ErrorCode → Nat
  | .arg => 1
  | .cap => 2
  | .align => 3
  | .range => 4

/-- `STATUS[1:0]`, `STATE` (R33). -/
def Status.stateField : Status → Nat
  | .idle => 0
  | .busy _ => 1
  | .done => 2
  | .error _ => 3

/-- `STATUS[7:4]`, `ERR` (R33): 0 `NONE` when `STATE != ERROR`. -/
def Status.errField : Status → Nat
  | .error c => c.code
  | _ => 0

/-- The word `STATUS` reads as (R33): reserved bits 3:2 and 63:8 read 0. -/
def Status.word (x : Status) : Word64 := BitVec.ofNat 64 (x.errField * 16 + x.stateField)

/-- `STATUS` (R33). -/
def State.statusWord (s : State) : Word64 := s.status.word

/-- `CAP` (R24): bit 0 is `HAS_DOTPROD`, bits 63:1 read 0. -/
def State.capWord (s : State) : Word64 := if s.params.hasDotprod then 1 else 0

/-- `STATE = BUSY` (R33). -/
def Status.isBusy : Status → Bool
  | .busy _ => true
  | _ => false

/-- `STATE in {BUSY, ERROR}`: the states in which `GO` is ignored (R132). -/
def Status.ignoresGo : Status → Bool
  | .busy _ => true
  | .error _ => true
  | _ => false

end Sys2Proof.Machine
end

