-- ==== Sys2Proof/Machine/Operands.lean ====
section
/-! DEFINITION. The operands of a command (R102), the buffer ranges (R67 to R69, R137), the layout addresses (R64 to
R66), and the arithmetic primitives (R15, R140 to R145). -/

namespace Sys2Proof.Machine

/-! ## Rounding up (R14) -/

def ceil16 (v : Nat) : Nat := (v + 15) / 16 * 16
def ceil4 (v : Nat) : Nat := (v + 3) / 4 * 4

/-! ## The operands (R102) -/

/-- `KPAD` for a value of `K`: `(K + 15)[63:0] & ~0xF` (R27). -/
def kpadOf (k : Word64) : Word64 := (k + 15#64) &&& ~~~(15#64)

/-- The register `KPAD` (R27). -/
def State.kpad (s : State) : Word64 := kpadOf s.regs.k

/-- `n = N` as a number (R102). -/
def State.rows (s : State) : Nat := s.regs.n.toNat

/-- `KPAD` as a number (R102). -/
def State.padded (s : State) : Nat := s.kpad.toNat

/-- `C = KPAD div 16`, the chunks of a padded row (R17). -/
def State.chunks (s : State) : Nat := s.padded / 16

/-- `NB = ceil4(n) div 4`, the four-row blocks (R17). -/
def State.blocks (s : State) : Nat := ceil4 s.rows / 4

def State.wBase (s : State) : Nat := s.regs.wBase.toNat
def State.xBase (s : State) : Nat := s.regs.xBase.toNat
def State.yBase (s : State) : Nat := s.regs.yBase.toNat

/-- How often the outer loop of a kernel runs: once a row (R161, R171) or once a block (R181, R185). -/
def State.outer (s : State) : Kernel → Nat
  | .scalar => s.rows
  | .singleRow => s.rows
  | .fourRowBlocked => s.blocks
  | .fourRowInterleaved => s.blocks

/-- How often the inner loop of a kernel runs: once a column (R161) or once a chunk (R171, R181, R185). -/
def State.inner (s : State) : Kernel → Nat
  | .scalar => s.padded
  | .singleRow => s.chunks
  | .fourRowBlocked => s.chunks
  | .fourRowInterleaved => s.chunks

/-! ## The buffers (R67 to R69, R137) -/

/-- The rows of the layout a kernel consumes, for an `n`-row matrix: `n`, or `4 * NB` for the four-row layouts (R64 to
R67). -/
def layoutRows : Kernel → Nat → Nat
  | .scalar, n => n
  | .singleRow, n => n
  | .fourRowBlocked, n => ceil4 n
  | .fourRowInterleaved, n => ceil4 n

/-- The rows of weights a kernel reads (R67). -/
def State.weightRows (s : State) (k : Kernel) : Nat := layoutRows k s.rows

/-- The weight buffer (R67, R137). -/
def State.weightRegion (s : State) (k : Kernel) : Region := ⟨s.wBase, s.weightRows k * s.padded⟩

/-- The input buffer (R68). -/
def State.inputRegion (s : State) : Region := ⟨s.xBase, s.padded⟩

/-- The output buffer (R69). -/
def State.outputRegion (s : State) : Region := ⟨s.yBase, 4 * s.rows⟩

/-! ## The layout addresses (R64 to R66), as offsets from `W_BASE` -/

/-- Row-Padded (R64). -/
def rpOffset (kpad r j : Nat) : Nat := r * kpad + j

/-- Four-Row-Blocked (R65). -/
def b4Offset (kpad r j : Nat) : Nat := r / 4 * 4 * kpad + r % 4 * kpad + j

/-- Four-Row-Interleaved (R66). -/
def i4Offset (kpad r j : Nat) : Nat := r / 4 * 4 * kpad + j / 16 * 64 + r % 4 * 16 + j % 16

/-- The offset of padded element `(r, j)` in the layout the kernel consumes (R67). -/
def layoutOffset : Kernel → Nat → Nat → Nat → Nat
  | .scalar => rpOffset
  | .singleRow => rpOffset
  | .fourRowBlocked => b4Offset
  | .fourRowInterleaved => i4Offset

/-! ## Arithmetic (R15, R140 to R145) -/

/-- `s8(b)` (R15, R62). -/
def s8 (b : Byte) : Int := b.toInt

/-- `wrap32(v)`, the integer in -2^31..2^31 - 1 congruent to `v` modulo 2^32 (R15). -/
def wrap32 (v : Int) : Int := (BitVec.ofInt 32 v).toInt

/-- `prod(w, x)`, exact (R140). -/
def prod (w x : Byte) : Int := s8 w * s8 x

/-- Adding the exact value `v` to an accumulator: `wrap32(a + v)` (R141). -/
def accumulate (a : Word32) (v : Int) : Word32 := BitVec.ofInt 32 (a.toInt + v)

/-- The byte in lane `t` of a 16-lane operand (R16, R72). -/
def lane (v : List Byte) (t : Nat) : Byte := v.getD t 0

/-- The sum of the four products that belong to lane `l` of an accumulator (R142). -/
def laneProducts (wv xv : List Byte) (l : Nat) : Int :=
  prod (lane wv (4 * l)) (lane xv (4 * l)) + prod (lane wv (4 * l + 1)) (lane xv (4 * l + 1))
    + prod (lane wv (4 * l + 2)) (lane xv (4 * l + 2)) + prod (lane wv (4 * l + 3)) (lane xv (4 * l + 3))

/-- `dot16(A, WV, XV)` (R142). -/
def dot16 (a : Lanes) (wv xv : List Byte) : Lanes where
  l0 := accumulate a.l0 (laneProducts wv xv 0)
  l1 := accumulate a.l1 (laneProducts wv xv 1)
  l2 := accumulate a.l2 (laneProducts wv xv 2)
  l3 := accumulate a.l3 (laneProducts wv xv 3)

/-- `hsum(A) = wrap32(A[0] + A[1] + A[2] + A[3])` (R143). -/
def hsum (a : Lanes) : Word32 := BitVec.ofInt 32 (a.l0.toInt + a.l1.toInt + a.l2.toInt + a.l3.toInt)

/-- An accumulator of zeros (R30). -/
def Lanes.zero : Lanes := ⟨0, 0, 0, 0⟩

/-- Four accumulators of zeros (R30, R181). -/
def Accs.zero : Accs := ⟨.zero, .zero, .zero, .zero⟩

/-- `A[i]`. -/
def Accs.get (a : Accs) : Nat → Lanes
  | 0 => a.a0
  | 1 => a.a1
  | 2 => a.a2
  | _ => a.a3

/-- `A[i] <- v`. -/
def Accs.set (a : Accs) (i : Nat) (v : Lanes) : Accs :=
  match i with
  | 0 => { a with a0 := v }
  | 1 => { a with a1 := v }
  | 2 => { a with a2 := v }
  | _ => { a with a3 := v }

/-- `f 0 + ... + f (n-1)`. -/
def sumUpTo (f : Nat → Int) : Nat → Int
  | 0 => 0
  | n + 1 => sumUpTo f n + f n

/-- The value fits a signed 32-bit output (R145). -/
def fits32 (v : Int) : Bool := decide (-2147483648 ≤ v) && decide (v ≤ 2147483647)

end Sys2Proof.Machine
end

