-- ==== Sys2Proof/Machine/Ops.lean ====
section
/-! DEFINITION. The named operations over memory and registers, the refusal of a command (the block's only exception,
R220, R224) with the reset that is the only way back from it (R226, R250 to R252), and the checks of `GO` (R134 to
R137). -/

namespace Sys2Proof.Machine

/-! ## The data space (R60, R71) -/

/-- The byte at an address; `none` where nothing has given it a value (R71). -/
def Memory.read : Memory → Nat → Option Byte
  | [], _ => none
  | (b, v) :: m, a => if a = b then some v else Memory.read m a

/-- The memory with one byte written, kept in its canonical form. -/
def Memory.write : Memory → Nat → Byte → Memory
  | [], a, v => [(a, v)]
  | (b, w) :: m, a, v =>
    if a < b then (a, v) :: (b, w) :: m
    else if a = b then (a, v) :: m
    else (b, w) :: Memory.write m a v

/-- The memory with the bytes of some ranges left without a value (R252). -/
def Memory.erase (m : Memory) (rs : List Region) : Memory := m.filter (fun c => !rs.any (fun r => r.contains c.1))

/-- The canonical form: addresses strictly rising (an unlisted byte has no value, so no entry equals one). -/
abbrev Memory.wf (m : Memory) : Prop := m.Pairwise (fun c d => c.1 < d.1)

/-- Every cell lies in the data space of 2^`bits` bytes (R60). -/
abbrev Memory.inSpace (m : Memory) (bits : Nat) : Prop := ∀ c ∈ m, c.1 < 2 ^ bits

/-- The fault of an access to an address the data space or the platform does not provide (R60, R78), if any. -/
def State.addressFault (s : State) (a : Nat) : Option Fault :=
  if 2 ^ s.params.addrBits ≤ a then some (.outsideSpace a)
  else if s.params.admits a then none
  else some (.notAdmitted a)

/-- A read of one byte, by the engine or by the host (R16, R71, R78). -/
def State.readByte (s : State) (a : Nat) : Except Fault Byte :=
  match s.addressFault a with
  | some f => .error f
  | none =>
    match s.mem.read a with
    | some b => .ok b
    | none => .error (.unwritten a)

/-- `MemRead(addr, n)` (R16). -/
def State.readBytes (s : State) (a : Nat) : Nat → Except Fault (List Byte)
  | 0 => .ok []
  | n + 1 =>
    match s.readByte a with
    | .error f => .error f
    | .ok b =>
      match s.readBytes (a + 1) n with
      | .error f => .error f
      | .ok bs => .ok (b :: bs)

/-- `Load16(addr)` (R16). -/
def State.load16 (s : State) (a : Nat) : Except Fault (List Byte) := s.readBytes a 16

/-- `MemWrite(addr, n, v)` (R16): byte `i` to `addr + i`. -/
def State.writeBytes (s : State) (a : Nat) : List Byte → Except Fault State
  | [] => .ok s
  | b :: bs =>
    match s.addressFault a with
    | some f => .error f
    | none => (s.withMem (s.mem.write a b)).writeBytes (a + 1) bs

/-- The bytes of an output element, least significant first (R69, R72). -/
def wordBytes (w : Word32) : List Byte :=
  [w.extractLsb' 0 8, w.extractLsb' 8 8, w.extractLsb' 16 8, w.extractLsb' 24 8]

/-- `MemWrite(Y_BASE + 4*r, 4, y)` (R69). -/
def State.writeOutput (s : State) (r : Nat) (y : Word32) : Except Fault State :=
  s.writeBytes (s.yBase + 4 * r) (wordBytes y)

/-- The byte at an address, and 0 where it has no value: for statements about bytes that have one. -/
def State.byteAt (s : State) (a : Nat) : Byte := (s.mem.read a).getD 0

/-- The weight byte of padded element `(r, j)` in the layout the kernel consumes (R144). -/
def State.weightByte (s : State) (k : Kernel) (r j : Nat) : Byte :=
  s.byteAt (s.wBase + layoutOffset k s.padded r j)

/-- The input byte `j` (R144). -/
def State.inputByte (s : State) (j : Nat) : Byte := s.byteAt (s.xBase + j)

/-- The exact sum of the first `m` products of row `r` (R144). -/
def State.partialSum (s : State) (k : Kernel) (r m : Nat) : Int :=
  sumUpTo (fun j => prod (s.weightByte k r j) (s.inputByte j)) m

/-- The exact sum of row `r`, over all `KPAD` columns (R144, R145). -/
def State.rowSum (s : State) (k : Kernel) (r : Nat) : Int := s.partialSum k r s.padded

/-- The fault of a row whose exact sum leaves the 32-bit range, under `refuse_out_of_range` (R145; log 13). -/
def State.rowFault (s : State) (k : Kernel) (r : Nat) : Option Fault :=
  if s.params.accOverflow = .refuseOutOfRange ∧ fits32 (s.rowSum k r) = false then some (.sumOutOfRange r) else none

/-- One output element written, after the check `ACC_OVERFLOW` asks for (R69, R145). -/
def State.emitRow (s : State) (k : Kernel) (r : Nat) (y : Word32) : Except Fault State :=
  match s.rowFault k r with
  | some f => .error f
  | none => s.writeOutput r y

/-! ## The registers (R23, R130, R131) -/

/-- The value a register reads as (R130). -/
def State.readReg (s : State) : Reg → Word64
  | .cap => s.capWord
  | .cmd => s.regs.cmd
  | .n => s.regs.n
  | .k => s.regs.k
  | .kpad => s.kpad
  | .prefetch => s.regs.prefetch
  | .wBase => s.regs.wBase
  | .xBase => s.regs.xBase
  | .yBase => s.regs.yBase
  | .ctrl => 0
  | .status => s.statusWord
  | .reserved => 0

/-- A register stored; the registers that hold nothing (`CAP`, `KPAD`, `CTRL`, `STATUS`, reserved) ignore it (R23). -/
def Regs.store (r : Regs) (d : Word64) : Reg → Regs
  | .cap => r
  | .cmd => { r with cmd := d }
  | .n => { r with n := d }
  | .k => { r with k := d }
  | .kpad => r
  | .prefetch => { r with prefetch := d }
  | .wBase => { r with wBase := d }
  | .xBase => { r with xBase := d }
  | .yBase => { r with yBase := d }
  | .ctrl => r
  | .status => r
  | .reserved => r

/-- A write of a register other than `CTRL`: ignored while `BUSY` (R131, R35). -/
def State.writeReg (s : State) (r : Reg) (d : Word64) : State :=
  if s.status.isBusy then s else s.withRegs (s.regs.store d r)

/-- The ranges whose output the host has not been promised (R79; log 11). -/
def Unsynced.regions (u : Unsynced) : List Region := u.latest.toList ++ u.older

/-- A command has completed with output range `r`: it is the last command now (R79(b)). -/
def Unsynced.push (u : Unsynced) (r : Region) : Unsynced := ⟨some r, u.regions⟩

/-- The host has read `DONE` for the last command: every byte of its range is promised, by whatever earlier range it was
held back too; the rest of the earlier ranges stays, as R79 promises nothing there (log 11). A later read of the same
`DONE` finds no range to promise. -/
def Unsynced.settle (u : Unsynced) : Unsynced :=
  match u.latest with
  | none => u
  | some r => ⟨none, u.older.flatMap (fun q => q.minus r)⟩

/-- The host has given the byte at `a` a value of its own: an earlier command's output no longer stands there (log 11). -/
def Unsynced.release (u : Unsynced) (a : Nat) : Unsynced := ⟨u.latest, u.older.flatMap (fun q => q.minus ⟨a, 1⟩)⟩

/-- A platform reset: no command is the last one any more, and no `DONE` can be read for the output still held back
(R250, R251; log 12). -/
def Unsynced.afterReset (u : Unsynced) : Unsynced := ⟨none, u.regions⟩

/-- The host's reading of `STATUS` as an ordering point: it counts when the read returns `DONE` (R79, R81; log 11). -/
def State.syncOnRead (s : State) (r : Reg) : State :=
  if r = .status ∧ s.status = .done then s.withUnsynced s.unsynced.settle else s

/-- A register read: the value goes back to the host; the block's state does not change (R130). -/
def State.busRead (s : State) (r : Reg) : State := (s.syncOnRead r).withBusData (s.readReg r)

/-! ## Taking the exception: the refusal of a command (R224), and the way back, reset (R226) -/

/-- `refuse(e)` (R224): `STATE <- ERROR`, `ERR <- e`, nothing else. -/
def State.refuse (s : State) (e : ErrorCode) : State := s.withStatus (.error e)

/-- The output range whose bytes a reset leaves open: a running command's (R252). -/
def State.openAtReset (s : State) : List Region := if s.status.isBusy then [s.outputRegion] else []

/-- A platform reset of the block (R250, R251): the registers and the engine at their reset values; the data space keeps
its bytes, but the output bytes of an abandoned command have no value (R252; log 12). -/
def State.platformReset (s : State) : State :=
  (((s.withMem (s.mem.erase s.openAtReset)).withRegs Regs.reset).withStatus .idle).withUnsynced s.unsynced.afterReset

/-! ## The checks of `GO` (R134 to R137) -/

/-- `1 <= v <= 2^31 - 1` (R134). -/
def legalDim (v : Word64) : Bool := decide (1 ≤ v.toNat) && decide (v.toNat ≤ Config.maxDim)

/-- The argument check's part about `N` and `K` (R134). -/
def State.argBad (s : State) : Bool := !legalDim s.regs.n || !legalDim s.regs.k

/-- The capability check (R135). -/
def State.capBad (s : State) (k : Kernel) : Bool := decide (k ≠ .scalar) && !s.params.hasDotprod

/-- The alignment check (R136). -/
def State.alignBad (s : State) : Bool :=
  decide (s.wBase % Config.bufferAlign ≠ 0) || decide (s.xBase % Config.bufferAlign ≠ 0)
    || decide (s.yBase % Config.bufferAlign ≠ 0)

/-- The buffer passes the top of the data space (R137). -/
def State.pastTop (s : State) (r : Region) : Bool := decide (2 ^ s.params.addrBits < r.base + r.size)

/-- `range_bad(kernel)` (R137). -/
def State.rangeBad (s : State) (k : Kernel) : Bool :=
  s.pastTop (s.weightRegion k) || s.pastTop s.inputRegion || s.pastTop s.outputRegion
    || s.outputRegion.overlaps (s.weightRegion k) || s.outputRegion.overlaps s.inputRegion

/-- The code `GO` refuses the kernel with, the first check that fails (R132, R222). -/
def State.acceptError (s : State) (k : Kernel) : Option ErrorCode :=
  if s.argBad then some .arg
  else if s.capBad k then some .cap
  else if s.alignBad then some .align
  else if s.rangeBad k then some .range
  else none

/-- A buffer of the command lies over memory with read side effects (R75; log 14). An empty range holds no address, so
it lies under no buffer. -/
def State.overSideEffects (s : State) (k : Kernel) : Bool :=
  s.params.sideEffects.any (fun r => r.size != 0
    && (r.overlaps (s.weightRegion k) || r.overlaps s.inputRegion || r.overlaps s.outputRegion))

/-- The command is one `refuse_unsafe_k` faults on (R145). -/
def State.unsafeK (s : State) : Bool :=
  decide (s.params.accOverflow = .refuseUnsafeK) && decide (Config.kSafe < s.regs.k.toNat)

end Sys2Proof.Machine
end

