-- ==== Sys2Proof/Machine/FourRow.lean ====
section
/-! DEFINITION. The engine's operations of `dotprod4` (R181) and `dotprod4i` (R185): one chunk of a block of four rows,
and the outputs of a block. They differ in the address of a weight chunk alone. -/

namespace Sys2Proof.Machine

/-- `WV <- Load16(addr); A[i] <- dot16(A[i], WV, XV)`: the loop body over `i` (R181, R185). -/
def blockRowDot (addr i : Nat) (e : Engine) (s : State) : Except Fault Engine :=
  match s.load16 addr with
  | .error f => .error f
  | .ok wv => .ok { e with wv := wv, accs := e.accs.set i (dot16 (e.accs.get i) wv e.xv) }

/-- The loop over the first `m` rows of the block, the weight chunk of row `i` at `addr i` (R181, R185). -/
def blockRows (addr : Nat → Nat) (s : State) : Nat → Engine → Except Fault Engine
  | 0, e => .ok e
  | m + 1, e =>
    match blockRows addr s m e with
    | .error f => .error f
    | .ok e' => blockRowDot (addr m) m e' s

/-- One chunk of a block: the input chunk once, then its four rows (R181, R185). -/
def blockChunk (addr : Nat → Nat) (e : Engine) (s : State) : Except Fault Engine :=
  match s.load16 (s.xBase + 16 * e.col) with
  | .error f => .error f
  | .ok xv => blockRows addr s 4 { e with xv := xv }

/-- Where `dotprod4` loads the chunk of row `i` of the block from (R181). -/
def blockedAddr (e : Engine) (s : State) (i : Nat) : Nat :=
  s.wBase + (4 * e.row + i) * s.padded + 16 * e.col

/-- Where `dotprod4i` loads the chunk of row `i` of the block from (R185). -/
def interleavedAddr (e : Engine) (s : State) (i : Nat) : Nat :=
  s.wBase + e.row * 4 * s.padded + 64 * e.col + 16 * i

/-- One chunk of `dotprod4` (R181). -/
def blockedChunk (e : Engine) (s : State) : Except Fault Engine := blockChunk (blockedAddr e s) e s

/-- One chunk of `dotprod4i` (R185). -/
def interleavedChunk (e : Engine) (s : State) : Except Fault Engine := blockChunk (interleavedAddr e s) e s

/-- The outputs of the first `m` rows of block `e.row`, those below `n` alone (R181, R182, R185, R186). -/
def blockEmitRows (k : Kernel) (e : Engine) (s : State) : Nat → Except Fault State
  | 0 => .ok s
  | m + 1 =>
    match blockEmitRows k e s m with
    | .error f => .error f
    | .ok s' =>
      if 4 * e.row + m < s.rows then s'.emitRow k (4 * e.row + m) (hsum (e.accs.get m)) else .ok s'

/-- The outputs of a block of `dotprod4` (R181). -/
def blockedEmit (e : Engine) (s : State) : Except Fault State := blockEmitRows .fourRowBlocked e s 4

/-- The outputs of a block of `dotprod4i` (R185). -/
def interleavedEmit (e : Engine) (s : State) : Except Fault State := blockEmitRows .fourRowInterleaved e s 4

end Sys2Proof.Machine
end

