-- ==== Sys2Proof/Machine/Scalar.lean ====
section
/-! DEFINITION. The engine's operations of `scalar` (R161): one column of a row, and the output of a row. -/

namespace Sys2Proof.Machine

/-- One multiply-accumulate: the loop body over `j` (R161). -/
def scalarMac (e : Engine) (s : State) : Except Fault Engine :=
  match s.readByte (s.wBase + e.row * s.padded + e.col) with
  | .error f => .error f
  | .ok w =>
    match s.readByte (s.xBase + e.col) with
    | .error f => .error f
    | .ok x => .ok { e with acc := accumulate e.acc (prod w x) }

/-- The output of row `r`: `MemWrite(ybase + 4*r, 4, acc)` (R161). -/
def scalarEmit (e : Engine) (s : State) : Except Fault State := s.emitRow .scalar e.row e.acc

end Sys2Proof.Machine
end

