-- ==== Sys2Proof/Machine/SingleRow.lean ====
section
/-! DEFINITION. The engine's operations of `dotprod` (R171), with its prefetch hint (R172): one chunk of a row, and the
output of a row. -/

namespace Sys2Proof.Machine

/-- `Prefetch(addr)`: no operation (R172; log 15). -/
def prefetchHint (_addr : Nat) (s : State) : State := s

/-- The prefetch target, `pf` chunks ahead of chunk `e.col` of the row, modulo 2^`ADDR_BITS` (R171, R172). -/
def prefetchTarget (e : Engine) (s : State) : Nat :=
  (s.wBase + e.row * s.padded + 16 * (e.col + s.regs.prefetch.toNat)) % 2 ^ s.params.addrBits

/-- The hint of one chunk: none when the prefetch distance is 0 (R171, R28). -/
def singleRowPrefetch (e : Engine) (s : State) : State :=
  if s.regs.prefetch = 0 then s else prefetchHint (prefetchTarget e s) s

/-- The loads and the dot product of one chunk: the loop body over `c` (R171). -/
def singleRowDot (e : Engine) (s : State) : Except Fault Engine :=
  match s.load16 (s.wBase + e.row * s.padded + 16 * e.col) with
  | .error f => .error f
  | .ok wv =>
    match s.load16 (s.xBase + 16 * e.col) with
    | .error f => .error f
    | .ok xv => .ok { e with wv := wv, xv := xv, accs := e.accs.set 0 (dot16 (e.accs.get 0) wv xv) }

/-- One chunk: the hint, then the loads and the dot product (R171). -/
def singleRowChunk (e : Engine) (s : State) : Except Fault Engine := singleRowDot e (singleRowPrefetch e s)

/-- The output of row `r`: `MemWrite(ybase + 4*r, 4, hsum(A))` (R171). -/
def singleRowEmit (e : Engine) (s : State) : Except Fault State :=
  s.emitRow .singleRow e.row (hsum (e.accs.get 0))

end Sys2Proof.Machine
end

