-- ==== Sys2Proof/Machine/Engine.lean ====
section
/-! DEFINITION. The engine: the loops all kernels share, one operation at a time, and a command run to its end (R132,
R139, R147). -/

namespace Sys2Proof.Machine

/-- The hidden state at the start of a command: indices and accumulators zero, no operand loaded (R30; log 7). -/
def Engine.start (k : Kernel) : Engine where
  kernel := k
  row := 0
  col := 0
  acc := 0
  accs := Accs.zero
  xv := []
  wv := []

/-- The body of the kernel's inner loop (R161, R171, R181, R185). -/
def Engine.consume (e : Engine) (s : State) : Except Fault Engine :=
  match e.kernel with
  | .scalar => scalarMac e s
  | .singleRow => singleRowChunk e s
  | .fourRowBlocked => blockedChunk e s
  | .fourRowInterleaved => interleavedChunk e s

/-- The output writes that end a pass of the kernel's outer loop (R161, R171, R181, R185). -/
def Engine.emit (e : Engine) (s : State) : Except Fault State :=
  match e.kernel with
  | .scalar => scalarEmit e s
  | .singleRow => singleRowEmit e s
  | .fourRowBlocked => blockedEmit e s
  | .fourRowInterleaved => interleavedEmit e s

/-- The next pass of the inner loop. -/
def Engine.nextCol (e : Engine) : Engine := { e with col := e.col + 1 }

/-- The next pass of the outer loop: the accumulators are zero again (R30). -/
def Engine.nextRow (e : Engine) : Engine := { e with row := e.row + 1, col := 0, acc := 0, accs := Accs.zero }

/-- `STATE <- DONE` (R132, R34); the output waits for the host's read of `DONE` (R79; log 11). -/
def State.complete (s : State) : State :=
  (s.withUnsynced (s.unsynced.push s.outputRegion)).withStatus .done

/-- The end of a pass of the outer loop: the next one, or the command is complete. -/
def State.endRow (s : State) (e : Engine) : State :=
  if e.row + 1 < s.outer e.kernel then s.withStatus (.busy e.nextRow) else s.complete

/-- One operation of the engine (R147): a pass of the inner loop, or the output writes that end a pass of the outer
loop. -/
def engineOp (e : Engine) (s : State) : Except Fault State :=
  if e.row < s.outer e.kernel then
    if e.col < s.inner e.kernel then
      match e.consume s with
      | .error f => .error f
      | .ok e' => .ok (s.withStatus (.busy e'.nextCol))
    else
      match e.emit s with
      | .error f => .error f
      | .ok s' => .ok (s'.endRow e)
  else .ok s.complete

/-- One operation of the engine where a command runs; nothing otherwise. -/
def State.engineTurn (s : State) : Except Fault State :=
  match s.status with
  | .busy e => engineOp e s
  | _ => .ok s

/-- At most `count` operations of the engine. -/
def State.runEngine (s : State) : Nat → Except Fault State
  | 0 => .ok s
  | count + 1 =>
    match s.engineTurn with
    | .error f => .error f
    | .ok s' => s'.runEngine count

/-- How many operations a command takes (R147). -/
def State.opCount (s : State) (k : Kernel) : Nat := s.outer k * (s.inner k + 1)

/-- `STATE <- BUSY`, `ERR <- NONE`, the engine at its start (R132, R34). -/
def State.accept (s : State) (k : Kernel) : State := s.withStatus (.busy (Engine.start k))

/-- An accepted command: one transition to its end, or the start of a visible `BUSY` interval (R139; log 5). -/
def State.runCommand (s : State) (k : Kernel) : Except Fault State :=
  if s.params.visibleBusy then .ok (s.accept k) else (s.accept k).runEngine (s.opCount k)

/-- A result of the engine as an outcome of a step. -/
def toOutcome : Except Fault State → Host.Outcome State Fault Refusal
  | .ok s => .next s
  | .error f => .fault f

/-- `GO` once the command is decoded to kernel `k` (R132): ignored in `BUSY` and `ERROR`, refused by the first check that
fails, else run. -/
def State.launch (s : State) (k : Kernel) : Host.Outcome State Fault Refusal :=
  if s.status.ignoresGo then .next s
  else match s.acceptError k with
    | some e => .next (s.refuse e)
    | none =>
      if s.overSideEffects k then .refused .sideEffectBuffer
      else if s.unsafeK then .fault .unsafeK
      else toOutcome (s.runCommand k)

/-- `GO` (R132): the command word is decoded (R104), and an illegal one is refused with `ERR_ARG` (R134). -/
def State.go (s : State) : Host.Outcome State Fault Refusal :=
  if s.status.ignoresGo then .next s
  else match decodeCommand s.regs.cmd with
    | .error _ => .next (s.refuse .arg)
    | .ok k => s.launch k

end Sys2Proof.Machine
end

