-- ==== Sys2Proof/Machine/Commands.lean ====
section
/-! DEFINITION. The meanings of the kernel commands: the command whose word is given is started (R132), with the kernel
of its row (R161, R171, R181, R185; log 18). -/

namespace Sys2Proof.Machine

/-- `scalar` (R161): available whatever `HAS_DOTPROD` is (R160). -/
def execScalar (s : State) : Host.Outcome State Fault Refusal := s.launch .scalar

/-- `dotprod` (R171). -/
def execDotprod (s : State) : Host.Outcome State Fault Refusal := s.launch .singleRow

/-- `dotprod4` (R181). -/
def execDotprod4 (s : State) : Host.Outcome State Fault Refusal := s.launch .fourRowBlocked

/-- `dotprod4i` (R185). -/
def execDotprod4i (s : State) : Host.Outcome State Fault Refusal := s.launch .fourRowInterleaved

end Sys2Proof.Machine
end

