-- ==== Sys2Proof/Machine/RegisterAccess.lean ====
section
/-! DEFINITION. The meanings of the host's register accesses: `GO` (R132), `REG.RD` (R130), `REG.WR` (R131). -/

namespace Sys2Proof.Machine

/-- `GO`: a write of 1 to `CTRL.GO` (R31, R132). -/
def execGo (s : State) : Host.Outcome State Fault Refusal := s.go

/-- `REG.RD offset` (R130); a misaligned offset is outside the format (R32). -/
def execRegRd (offset : BitVec 8) (s : State) : Host.Outcome State Fault Refusal :=
  if offsetAligned offset then .next (s.busRead (regAt offset)) else .refused .badRegisterAccess

/-- `REG.WR offset, data` (R131): a write of `CTRL` starts a command when data[0] = 1 and does nothing otherwise. -/
def execRegWr (offset : BitVec 8) (data : Word64) (s : State) : Host.Outcome State Fault Refusal :=
  if offsetAligned offset then
    if regAt offset = .ctrl then
      if data.getLsbD 0 then s.go else .next s
    else .next (s.writeReg (regAt offset) data)
  else .refused .badRegisterAccess

end Sys2Proof.Machine
end

