-- ==== Sys2Proof/Machine/Dispatch.lean ====
section
/-! DEFINITION. One arm per instruction. -/

namespace Sys2Proof.Machine

def exec (i : Instr) (s : State) : Host.Outcome State Fault Refusal :=
  match i with
  | .scalar => Sys2Proof.Machine.execScalar s
  | .dotprod => Sys2Proof.Machine.execDotprod s
  | .dotprod4 => Sys2Proof.Machine.execDotprod4 s
  | .dotprod4i => Sys2Proof.Machine.execDotprod4i s
  | .go => Sys2Proof.Machine.execGo s
  | .regRd offset => Sys2Proof.Machine.execRegRd offset s
  | .regWr offset data => Sys2Proof.Machine.execRegWr offset data s

end Sys2Proof.Machine
end

