-- ==== Sys2Proof/Machine/HostPort.lean ====
section
/-! DEFINITION. What the host does beside register accesses: reads and writes of the data space (R60, R72, R75, R79,
R86) and the poll of `WAIT` (R107). -/

namespace Sys2Proof.Machine

/-- The address holds output the host has not been promised (R79; log 11). -/
def State.isUnsynced (s : State) (a : Nat) : Bool := s.unsynced.regions.any (fun r => r.contains a)

/-- The address holds output of the last completed command whose `DONE` the host has not read (R79; log 11). -/
def State.inLatestOutput (s : State) (a : Nat) : Bool := s.unsynced.latest.any (fun r => r.contains a)

/-- The running command's buffers hold the address: what a host write must avoid (R86). -/
def State.inBusyBuffers (s : State) (a : Nat) : Bool :=
  match s.status with
  | .busy e => (s.weightRegion e.kernel).contains a || s.inputRegion.contains a || s.outputRegion.contains a
  | _ => false

/-- The running command's output range holds the address: what a host read must avoid (R86). -/
def State.inBusyOutput (s : State) (a : Nat) : Bool := s.status.isBusy && s.outputRegion.contains a

/-- A host read of one byte of the data space (R72), with the duties of R71, R75, R78, R79 and R86 (log 9). -/
def hostMemRead (a : Nat) (s : State) : Host.Outcome State Fault Refusal :=
  match s.addressFault a with
  | some f => .fault f
  | none =>
    if s.params.hasSideEffect a then .refused .sideEffectAccess
    else if s.inBusyOutput a then .fault (.busyBuffer a)
    else if s.isUnsynced a then .fault (.unsyncedOutput a)
    else match s.mem.read a with
      | none => .fault (.unwritten a)
      | some b => .next (s.withMemData b)

/-- A host write of one byte of the data space, with the duties of R75, R78, R79 and R86 (log 9). -/
def hostMemWrite (a : Nat) (b : Byte) (s : State) : Host.Outcome State Fault Refusal :=
  match s.addressFault a with
  | some f => .fault f
  | none =>
    if s.params.hasSideEffect a then .refused .sideEffectAccess
    else if s.inBusyBuffers a then .fault (.busyBuffer a)
    else if s.inLatestOutput a then .fault (.unsyncedOutput a)
    else .next ((s.withMem (s.mem.write a b)).withUnsynced (s.unsynced.release a))

/-- The engine's turn as an outcome of a step. -/
def engineStep (s : State) : Host.Outcome State Fault Refusal := toOutcome s.engineTurn

/-- One poll of `WAIT` (R107): `STATUS` is read; while it reads `BUSY` the wait stays and the engine gets a turn (R261;
log 20). -/
def waitStep (rest : List HostEvent) (s : State) : Host.Outcome State Fault Refusal :=
  if s.status.isBusy then engineStep (s.busRead .status) else .next ((s.busRead .status).withPending rest)

end Sys2Proof.Machine
end

