-- ==== Sys2Proof/Machine/Fetch.lean ====
section
/-! DEFINITION. What the next step does: the head of `pending`, and with nothing pending the engine (log 2). The block
fetches no instruction (R22, R83): its instructions are the accesses the host makes and the command word in `CMD`. -/

namespace Sys2Proof.Machine

/-- What a step does: run an instruction from a state, or answer an outcome. -/
inductive Action where
  | run (i : Instr) (s : State)
  | answer (o : Host.Outcome State Fault Refusal)

/-- The next step (log 2, log 19). -/
def State.nextAction (s : State) : Action :=
  match s.pending with
  | [] => .answer (engineStep s)
  | .access a :: rest =>
    match decodeAccess s.params.regBase a with
    | .ok i => .run i (s.withPending rest)
    | .error _ => .answer (.refused .badRegisterAccess)
  | .wait :: rest => .answer (waitStep rest s)
  | .engine :: rest => .answer (engineStep (s.withPending rest))
  | .memRead a :: rest => .answer (hostMemRead a (s.withPending rest))
  | .memWrite a b :: rest => .answer (hostMemWrite a b (s.withPending rest))
  | .reset :: rest => .answer (.next (s.withPending rest).platformReset)

/-- The host's write of `data` to the register at `offset` (R106). -/
def writeAccess (regBase : Nat) (offset : BitVec 8) (data : Word64) : BusAccess :=
  ⟨regBase + offset.toNat, 8, true, data⟩

/-- The host's read of the register at `offset` (R106). -/
def readAccess (regBase : Nat) (offset : BitVec 8) : BusAccess := ⟨regBase + offset.toNat, 8, false, 0⟩

/-- An access outside the format `BUS`, of width 0: a step refuses it (R32). -/
def noAccess (regBase : Nat) : BusAccess := ⟨regBase, 0, false, 0⟩

/-- The host access of the bytes of a `BUS` triple; bytes that are no triple, a direction that is neither `R` nor `W`
among them, give an access the step refuses, as `decodeBytes` does (the model's choice, as the layout is: log 3). -/
def accessOfBytes (regBase : Nat) : List Byte → BusAccess
  | offset :: dir :: data =>
    if data.length ≠ 8 then noAccess regBase
    else if dir = 1 then writeAccess regBase offset (BitVec.ofNat 64 (ofLeBytes data))
    else if dir = 0 then readAccess regBase offset
    else noAccess regBase
  | _ => noAccess regBase

/-- The state whose next step runs the instruction of a table word (log 2): a command word is put into `CMD` and the
host's next access is the write of 1 to `CTRL.GO` that starts it (R132); a `BUS` triple is the host's next access. A
number too large for the format is no word (log 3), and the next access is one the step refuses. -/
def State.placeWord (s : State) (nbits w : Nat) : State :=
  if 2 ^ (8 * formatBytes (rowFormat nbits)) ≤ w then s.withPending (.access (noAccess s.params.regBase) :: s.pending)
  else match rowFormat nbits with
  | .cmd =>
    (s.withRegs { s.regs with cmd := BitVec.ofNat 64 w }).withPending
      (.access (writeAccess s.params.regBase 0x48 1) :: s.pending)
  | .bus => s.withPending (.access (accessOfBytes s.params.regBase (leBytes 10 w)) :: s.pending)

end Sys2Proof.Machine
end

