-- ==== Sys2Proof/Machine/Step.lean ====
section
/-! DEFINITION. One step of the machine, and where a step finds its next instruction. -/

namespace Sys2Proof.Machine

/-- One step (log 2): the next event's instruction is run, or the event has its own outcome. -/
def step (s : State) : Host.Outcome State Fault Refusal :=
  match s.nextAction with
  | .run i s' => exec i s'
  | .answer o => o

/-- `s` with the instruction of a table word where the next step finds it (log 2). -/
def State.withFetchWord (s : State) (nbits w : Nat) : State := s.placeWord nbits w

end Sys2Proof.Machine
end

