-- ==== Sys2Proof/Machine/Companions.lean ====
section
/-! DEFINITION. The host-side companion functions (R200 to R211): in scope, not part of the block (R7). The generator,
the three packers, the external weight source, the validator, and the driver: the events it sends to the block, what it
reads back, its exit code. The metrics of R212 are out of scope (R10). -/

namespace Sys2Proof.Machine

/-! ## The deterministic data generator (R200 to R202) -/

/-- One xorshift step (R200). -/
def genStep (s : Word64) : Word64 :=
  let a := s ^^^ (s <<< 13)
  let b := a ^^^ (a >>> 7)
  b ^^^ (b <<< 17)

/-- The output of a state, as an integer: `s[30:24]`, negated when `s[0] = 1` (R201). -/
def genOutput (s : Word64) : Int :=
  let mag : Int := (s.extractLsb' 24 7).toNat
  if s.getLsbD 0 then -mag else mag

/-- The output as the byte it is stored as (R201). -/
def genByte (s : Word64) : Byte := BitVec.ofInt 8 (genOutput s)

/-- The first `len` outputs from a seed: each follows a step (R202). -/
def genSequence (seed : Word64) : Nat → List Byte
  | 0 => []
  | len + 1 => genByte (genStep seed) :: genSequence (genStep seed) len

/-- The raw matrix, `n*k` bytes row-major, from the weight seed (R202). -/
def genMatrix (seed : Word64) (n k : Nat) : List Byte := genSequence seed (n * k)

/-- The padded input vector: `k` outputs from the vector seed, then zeros to `KPAD` (R202). -/
def genInput (seed : Word64) (k : Nat) : List Byte := genSequence seed k ++ List.replicate (ceil16 k - k) 0

/-! ## The layout packers (R203 to R205) -/

/-- The raw element `(r, j)`, and an explicit zero outside the matrix (R203). -/
def rawByte (raw : List Byte) (n k r j : Nat) : Byte := if r < n ∧ j < k then raw.getD (r * k + j) 0 else 0

/-- `pack_RP` (R203): position `p` holds element `(p div KPAD, p mod KPAD)`. -/
def packRP (raw : List Byte) (n k : Nat) : List Byte :=
  (List.range (n * ceil16 k)).map (fun p => rawByte raw n k (p / ceil16 k) (p % ceil16 k))

/-- `pack_B4` (R204): as `pack_RP`, with `ceil4(n)` rows. -/
def packB4 (raw : List Byte) (n k : Nat) : List Byte :=
  (List.range (ceil4 n * ceil16 k)).map (fun p => rawByte raw n k (p / ceil16 k) (p % ceil16 k))

/-- The row of the padded element at position `p` of an interleaved buffer (R205). -/
def i4Row (kpad p : Nat) : Nat := p / (4 * kpad) * 4 + p % (4 * kpad) % 64 / 16

/-- The column of the padded element at position `p` of an interleaved buffer (R205). -/
def i4Col (kpad p : Nat) : Nat := p % (4 * kpad) / 64 * 16 + p % 16

/-- `pack_I4` (R205). -/
def packI4 (raw : List Byte) (n k : Nat) : List Byte :=
  (List.range (ceil4 n * ceil16 k)).map
    (fun p => rawByte raw n k (i4Row (ceil16 k) p) (i4Col (ceil16 k) p))

/-- The packer of the layout a kernel consumes (R67). -/
def packFor : Kernel → List Byte → Nat → Nat → List Byte
  | .scalar => packRP
  | .singleRow => packRP
  | .fourRowBlocked => packB4
  | .fourRowInterleaved => packI4

/-! ## Host-level errors and the external weight source (R207, R210) -/

/-- The errors of the host's process (R210). -/
inductive HostError where
  | argument
  | allocation
  | weightIO
  | capability
deriving DecidableEq, Repr

/-- The process's exit code (R210): 0 for success, 1 for each of the four errors. -/
def exitCode {α : Type} : Except HostError α → Nat
  | .ok _ => 0
  | .error _ => 1

/-- The external weight source: exactly `n*k` bytes, or a fatal error (R207, R210). -/
def loadWeights (file : List Byte) (n k : Nat) : Except HostError (List Byte) :=
  if file.length = n * k then .ok file else .error .weightIO

/-! ## The correctness validator (R208) -/

/-- What the validator answers (R208). -/
structure Validation where
  mismatches : Nat
  maxAbsDiff : Nat
  first      : List (Nat × Int × Int)
deriving DecidableEq, Repr

/-- The mismatching triples `(i, y_obs[i], y_ref[i])`, ascending (R208). -/
def mismatchList (obs ref : Nat → Int) (n : Nat) : List (Nat × Int × Int) :=
  ((List.range n).filter (fun i => obs i != ref i)).map (fun i => (i, obs i, ref i))

/-- `validate(y_obs, y_ref, n)` on 32-bit signed elements, differences exact (R208). -/
def validate (obs ref : List Word32) (n : Nat) : Validation :=
  let o := fun i => (obs.getD i 0).toInt
  let r := fun i => (ref.getD i 0).toInt
  let bad := mismatchList o r n
  { mismatches := bad.length
    maxAbsDiff := bad.foldl (fun m t => max m (t.2.1 - t.2.2).natAbs) 0
    first := bad.take 5 }

/-! ## The driver (R209, R211) and the host protocol (R254, R255) -/

/-- The benchmark configuration with the command line's defaults (R211). -/
structure BenchConfig where
  n          : Nat := 1024
  k          : Nat := 1024
  iterations : Nat := 64
  kernel     : Kernel := .fourRowBlocked
  prefetch   : Nat := 2
  check      : Bool := false
  weights    : Option (List Byte) := none
deriving DecidableEq, Repr

/-- A configuration the command line must not give (R210, R211). -/
def BenchConfig.bad (cfg : BenchConfig) : Bool := cfg.n == 0 || cfg.k == 0 || cfg.iterations == 0

/-- Where the host allocated its buffers (R254): three packed layouts, the input, and three outputs. -/
structure Placement where
  rp     : Nat
  b4     : Nat
  i4     : Nat
  x      : Nat
  warmup : Nat
  ref    : Nat
  out    : Nat
deriving DecidableEq, Repr

/-- The base of the layout a kernel consumes (R67). -/
def Placement.weights (p : Placement) : Kernel → Nat
  | .scalar => p.rp
  | .singleRow => p.rp
  | .fourRowBlocked => p.b4
  | .fourRowInterleaved => p.i4

/-- The buffers of an allocation (R254, R255). -/
def Placement.buffers (p : Placement) (n k : Nat) : List Region :=
  [⟨p.rp, n * ceil16 k⟩, ⟨p.b4, ceil4 n * ceil16 k⟩, ⟨p.i4, ceil4 n * ceil16 k⟩, ⟨p.x, ceil16 k⟩, ⟨p.warmup, 4 * n⟩,
    ⟨p.ref, 4 * n⟩, ⟨p.out, 4 * n⟩]

/-- What the host's allocation must give (R254 (2)): every buffer at a multiple of 64 and inside the data space (R60), and
no two overlapping. R137 asks for less, since weights and input may overlap; that all seven lie in the space and stand
apart, each allocated by itself, is the model's choice (log 23). -/
def Placement.legal (p : Placement) (addrBits n k : Nat) : Bool :=
  (p.buffers n k).all (fun r => r.base % Config.bufferAlign == 0 && decide (r.base + r.size ≤ 2 ^ addrBits))
    && decide ((p.buffers n k).Pairwise (fun q r => q.overlaps r = false))

/-- `WR reg, value` (R106). The data of a write has 64 bits (R101); that a value of 2^64 or more is written modulo 2^64 is
the model's choice (log 23). -/
def wrEvent (regBase : Nat) (r : Reg) (value : Nat) : HostEvent :=
  .access (writeAccess regBase r.offset (BitVec.ofNat 64 value))

/-- `RD reg` (R106). -/
def rdEvent (regBase : Nat) (r : Reg) : HostEvent := .access (readAccess regBase r.offset)

/-- `GEMV.<mn> n, k, pf, w, x, y` (R107). -/
def gemvEvents (regBase : Nat) (kernel : Kernel) (n k pf w x y : Nat) : List HostEvent :=
  [wrEvent regBase .cmd kernel.code.toNat, wrEvent regBase .n n, wrEvent regBase .k k,
   wrEvent regBase .prefetch pf, wrEvent regBase .wBase w, wrEvent regBase .xBase x,
   wrEvent regBase .yBase y, wrEvent regBase .ctrl 1, .wait]

/-- The writes that put bytes at consecutive addresses of the data space. -/
def storeEvents (base : Nat) : List Byte → List HostEvent
  | [] => []
  | b :: bs => .memWrite base b :: storeEvents (base + 1) bs

/-- The raw matrix: generated, or read from the external source (R209 step 2). -/
def rawMatrix (cfg : BenchConfig) (weightSeed : Word64) : Except HostError (List Byte) :=
  match cfg.weights with
  | none => .ok (genMatrix weightSeed cfg.n cfg.k)
  | some file => loadWeights file cfg.n cfg.k

/-- The commands of steps 5 to 7 of the driver: the warmup, the reference where asked for, the timed runs (R209). -/
def driverCommands (regBase : Nat) (cfg : BenchConfig) (p : Placement) : List HostEvent :=
  gemvEvents regBase .scalar cfg.n cfg.k cfg.prefetch p.rp p.x p.warmup
    ++ (if cfg.check then gemvEvents regBase .scalar cfg.n cfg.k cfg.prefetch p.rp p.x p.ref else [])
    ++ (List.replicate cfg.iterations
          (gemvEvents regBase cfg.kernel cfg.n cfg.k cfg.prefetch (p.weights cfg.kernel) p.x p.out)).flatten

/-- The reads of consecutive bytes of the data space. -/
def loadEvents (base : Nat) : Nat → List HostEvent
  | 0 => []
  | count + 1 => .memRead base :: loadEvents (base + 1) count

/-- What the driver sends once it knows the capability and has its buffers (R209 steps 2 to 7, R254 (3) to (7)): the raw
matrix, all three layouts and the input written, then the commands. That the layouts are stored before the input, and in
the order RP, B4, I4, is the model's choice (log 23). -/
def driverWork (regBase : Nat) (cfg : BenchConfig) (weightSeed vectorSeed : Word64) (p : Placement) :
    Except HostError (List HostEvent) :=
  match rawMatrix cfg weightSeed with
  | .error e => .error e
  | .ok raw =>
    .ok (storeEvents p.rp (packRP raw cfg.n cfg.k) ++ storeEvents p.b4 (packB4 raw cfg.n cfg.k)
      ++ storeEvents p.i4 (packI4 raw cfg.n cfg.k) ++ storeEvents p.x (genInput vectorSeed cfg.k)
      ++ driverCommands regBase cfg p)

/-- What the driver sends to the block after its read of `CAP`, with the buffers it sends it for (R209, R254): nothing
after an error of R210. `allocated` is `none` where the host's aligned allocation fails, and an allocation that is not
legal is a failed one (log 23). -/
def driverEvents (hasDotprod : Bool) (addrBits regBase : Nat) (cfg : BenchConfig) (weightSeed vectorSeed : Word64)
    (allocated : Option Placement) : Except HostError (Placement × List HostEvent) :=
  if cfg.bad then .error .argument
  else if cfg.kernel ≠ .scalar ∧ hasDotprod = false then .error .capability
  else match allocated with
    | none => .error .allocation
    | some p =>
      if p.legal addrBits cfg.n cfg.k then
        match driverWork regBase cfg weightSeed vectorSeed p with
        | .error e => .error e
        | .ok evs => .ok (p, evs)
      else .error .allocation

/-- What the driver reads once `STATUS` is `DONE` (R254 (8)): the timed output, and the reference where the validator
is asked for (R209 step 9). -/
def readbackEvents (cfg : BenchConfig) (p : Placement) : List HostEvent :=
  loadEvents p.out (4 * cfg.n) ++ if cfg.check then loadEvents p.ref (4 * cfg.n) else []

/-- The next event is a read of the data space. -/
def State.nextIsMemRead (s : State) : Bool :=
  match s.pending with
  | .memRead _ :: _ => true
  | _ => false

/-- The machine run until nothing is pending, for at most `fuel` steps, with the bytes its reads of the data space
returned, in order. -/
def hostRun : Nat → State → Host.Outcome (State × List Byte) Fault Refusal
  | 0, s => .next (s, [])
  | fuel + 1, s =>
    if s.pending = [] then .next (s, [])
    else match step s with
      | .fault f => .fault f
      | .refused r => .refused r
      | .next t =>
        match hostRun fuel t with
        | .fault f => .fault f
        | .refused r => .refused r
        | .next (u, bytes) => .next (u, if s.nextIsMemRead then t.memData :: bytes else bytes)

/-- The 32-bit elements of a little-endian byte sequence (R69, R72). -/
def wordsOf : List Byte → List Word32
  | b0 :: b1 :: b2 :: b3 :: bs => (b3 ++ b2 ++ b1 ++ b0) :: wordsOf bs
  | _ => []

/-- How the driver's process ends. -/
inductive DriverEnd where
  /-- It exits with a code (R210), and a report where the validator ran (R209 step 9). -/
  | exited (code : Nat) (report : Option Validation)
  /-- The model stopped under it. -/
  | stopped (why : Fault ⊕ Refusal)
  /-- The steps it was given did not suffice. -/
  | unfinished
deriving DecidableEq, Repr

/-- The validator's step (R209 step 9): the read-back bytes are the timed output, then the reference. -/
def driverReport (cfg : BenchConfig) (bytes : List Byte) : Option Validation :=
  if cfg.check then
    some (validate (wordsOf (bytes.take (4 * cfg.n))) (wordsOf (bytes.drop (4 * cfg.n))) cfg.n)
  else none

/-- One part of the driver: its events given to the machine for at most `fuel` steps, and what follows once all of them
are taken; the part that is not through by then ends the driver as `unfinished` (log 23). -/
def driverPart (fuel : Nat) (evs : List HostEvent) (s : State) (andThen : State → List Byte → DriverEnd) : DriverEnd :=
  match hostRun fuel (s.withPending evs) with
  | .fault f => .stopped (.inl f)
  | .refused r => .stopped (.inr r)
  | .next (t, bytes) => if t.pending = [] then andThen t bytes else .unfinished

/-- The end of the driver (R254 (8), R209 step 9): after its commands it reads the output back if `STATUS` read `DONE`,
and validates it if asked; mismatches are no error (R208). A command the block refused ends it with code 1 (log 23). -/
def driverFinish (fuel : Nat) (cfg : BenchConfig) (p : Placement) (s : State) : DriverEnd :=
  if s.busData.extractLsb' 0 2 = 2#2 then
    driverPart fuel (readbackEvents cfg p) s (fun _ bytes => .exited (exitCode (.ok ())) (driverReport cfg bytes))
  else .exited 1 none

/-- The driver on a machine (R209, R254), each of its parts given `fuel` steps: the configuration, the read of `CAP`, the
buffers and commands, the read-back, the validator. A bad configuration ends it before it reaches the block. R202 speaks
of distinct seeds; that a driver given two equal ones runs with them is the model's choice (log 22). -/
def driverRun (fuel : Nat) (cfg : BenchConfig) (weightSeed vectorSeed : Word64) (allocated : Option Placement)
    (s : State) : DriverEnd :=
  if cfg.bad then .exited (exitCode (.error .argument : Except HostError Unit)) none
  else driverPart fuel [rdEvent s.params.regBase .cap] s (fun t _ =>
    match driverEvents (t.busData.getLsbD 0) s.params.addrBits s.params.regBase cfg weightSeed vectorSeed allocated with
    | .error e => .exited (exitCode (.error e : Except HostError Unit)) none
    | .ok (p, evs) => driverPart fuel evs t (fun u _ => driverFinish fuel cfg p u))

end Sys2Proof.Machine
end

