-- ==== Sys2Proof/Safety.lean ====
section
/-! DEFINITION. The terms claims are stated in: the invariant of the machine, the invariant of a running command, the
conditions under which a command executes to its end, and what a completed command leaves. -/

namespace Sys2Proof.Machine

/-! ## The machine's invariant -/

/-- What holds of the engine while a command runs: the command is an accepted one (R134 to R137), `CMD` still decodes to
its kernel (R133), and the loop indices are in range (R161, R171, R181, R185). -/
def State.BusyInv (s : State) (e : Engine) : Prop :=
  s.acceptError e.kernel = none ∧ decodeCommand s.regs.cmd = .ok e.kernel
    ∧ e.row < s.outer e.kernel ∧ e.col ≤ s.inner e.kernel

/-- The machine's invariant: legal parameters (R12), memory in canonical form and inside the data space (R60), and a
running command as `BusyInv` says. -/
def State.Inv (s : State) : Prop :=
  s.params.legal ∧ s.mem.wf ∧ s.mem.inSpace s.params.addrBits ∧ ∀ e, s.status = .busy e → s.BusyInv e

/-! ## The running command's invariant -/

/-- The output element of row `r`: the row sum modulo 2^32 (R144). -/
def State.rowValue (s : State) (k : Kernel) (r : Nat) : Word32 := BitVec.ofInt 32 (s.rowSum k r)

/-- The four bytes at `Y_BASE + 4*r` are those of `y`, the least significant first (R69, R72). -/
def State.OutputIs (s : State) (r : Nat) (y : Word32) : Prop :=
  ∀ i, i < 4 → s.mem.read (s.yBase + 4 * r + i) = some (y.extractLsb' (8 * i) 8)

/-- How many rows a running command has written (R161, R171, R181, R185). -/
def State.rowsWritten (s : State) (e : Engine) : Nat :=
  match e.kernel with
  | .scalar => e.row
  | .singleRow => e.row
  | .fourRowBlocked => min (4 * e.row) s.rows
  | .fourRowInterleaved => min (4 * e.row) s.rows

/-- The accumulators hold the sum, modulo 2^32, of the products consumed so far (R141 to R143). -/
def State.AccumulatorsHold (s : State) (e : Engine) : Prop :=
  match e.kernel with
  | .scalar => e.acc = BitVec.ofInt 32 (s.partialSum .scalar e.row e.col)
  | .singleRow => hsum (e.accs.get 0) = BitVec.ofInt 32 (s.partialSum .singleRow e.row (16 * e.col))
  | .fourRowBlocked => ∀ i, i < 4 →
      hsum (e.accs.get i) = BitVec.ofInt 32 (s.partialSum .fourRowBlocked (4 * e.row + i) (16 * e.col))
  | .fourRowInterleaved => ∀ i, i < 4 →
      hsum (e.accs.get i) = BitVec.ofInt 32 (s.partialSum .fourRowInterleaved (4 * e.row + i) (16 * e.col))

/-- What a running command has done so far: the rows it has passed are written with their row values (R144), and its
accumulators hold the sums of what it has read. -/
def State.ProgressInv (s : State) : Prop :=
  ∀ e, s.status = .busy e →
    s.AccumulatorsHold e ∧ ∀ r, r < s.rowsWritten e → s.OutputIs r (s.rowValue e.kernel r)

/-! ## When a command executes to its end -/

/-- The state is one in which `GO` starts a command (R132). -/
def State.TakesGo (s : State) : Prop := s.status = .idle ∨ s.status = .done

/-- The byte exists, is admitted and has a value (R71, R78). -/
def State.Readable (s : State) (a : Nat) : Prop := s.addressFault a = none ∧ s.mem.read a ≠ none

/-- The byte exists and is admitted (R78). -/
def State.Writable (s : State) (a : Nat) : Prop := s.addressFault a = none

/-- What R145 asks of the data: nothing under `wrap`, every exact row sum in range under `refuse_out_of_range`,
`K <= K_SAFE` under `refuse_unsafe_k`. -/
def State.OverflowAllowed (s : State) (k : Kernel) : Prop :=
  match s.params.accOverflow with
  | .wrap => True
  | .refuseOutOfRange => ∀ r, r < s.rows → -2147483648 ≤ s.rowSum k r ∧ s.rowSum k r ≤ 2147483647
  | .refuseUnsafeK => s.regs.k.toNat ≤ Config.kSafe

/-- The host's duties before `GO` (R88, R71, R75, R78) and R145's condition: every weight and input byte the command
reads is readable, every output byte writable, no buffer lies over memory with read side effects. -/
def State.Prepared (s : State) (k : Kernel) : Prop :=
  (∀ a, (s.weightRegion k).Has a → s.Readable a) ∧ (∀ a, s.inputRegion.Has a → s.Readable a)
    ∧ (∀ a, s.outputRegion.Has a → s.Writable a) ∧ s.overSideEffects k = false ∧ s.OverflowAllowed k

/-- A command of kernel `k` executes normally from this state: `GO` is taken (R132), no check fails (R134 to R137), the
host's duties are kept. -/
def State.Runs (s : State) (k : Kernel) : Prop := s.TakesGo ∧ s.acceptError k = none ∧ s.Prepared k

/-- What a completed command of kernel `k` leaves: `t` is `s` with `STATE = DONE`, every output row at its row value
(R69, R144), every other byte of memory as before, the output range waiting for the host's read of `DONE` (log 11), and
every other field as before. -/
def State.CompletedTo (s t : State) (k : Kernel) : Prop :=
  t.status = .done
    ∧ (∀ r, r < s.rows → t.OutputIs r (s.rowValue k r))
    ∧ (∀ a, ¬ s.outputRegion.Has a → t.mem.read a = s.mem.read a)
    ∧ t.unsynced = s.unsynced.push s.outputRegion
    ∧ t.params = s.params ∧ t.regs = s.regs ∧ t.busData = s.busData ∧ t.memData = s.memData
    ∧ t.pending = s.pending

/-- The machine `k` steps on. -/
def runs (k : Nat) (s : State) : Host.Outcome State Fault Refusal := Sys2Proof.core.run k s

/-- The command of kernel `k` started in `s` completes in `t`, under either reading of R139: in one transition, or
through a visible `BUSY` with nothing else pending. -/
def State.Completes (s t : State) (k : Kernel) : Prop :=
  if s.params.visibleBusy then s.pending = [] ∧ exec k.toInstr s = .next (s.accept k)
    ∧ ∃ m, runs m (s.accept k) = .next t ∧ t.status = .done
  else exec k.toInstr s = .next t

/-- The command of kernel `k` started in `s` ends in a model fault, under either reading of R139: in its one transition,
or, with nothing else pending, at its start or within the steps of its visible `BUSY`. -/
def State.EndsInFault (s : State) (k : Kernel) : Prop :=
  (∃ f, exec k.toInstr s = .fault f)
    ∨ (s.params.visibleBusy = true ∧ exec k.toInstr s = .next (s.accept k) ∧ ∃ m f, runs m (s.accept k) = .fault f)

/-! ## The next operation of a running command -/

/-- The next event gives a running command's engine its turn: nothing is pending, or an engine turn is, or a poll of
`WAIT` (R261; log 2, log 20). -/
def State.EngineMoves (s : State) : Prop :=
  s.pending = [] ∨ (∃ rest, s.pending = .engine :: rest) ∨ ∃ rest, s.pending = .wait :: rest

/-- The engine's next operation is the command's last: the output writes that end its last pass of the outer loop (R161,
R171, R181, R185; log 6). -/
def State.LastOp (s : State) (e : Engine) : Prop := e.col = s.inner e.kernel ∧ e.row + 1 = s.outer e.kernel

/-- The rows of the padded matrix the engine's pass of the outer loop works on (R161, R171, R181, R185). -/
def Engine.PassRow (e : Engine) (r : Nat) : Prop :=
  match e.kernel with
  | .scalar => r = e.row
  | .singleRow => r = e.row
  | .fourRowBlocked => r / 4 = e.row
  | .fourRowInterleaved => r / 4 = e.row

/-- The columns of its pass of the inner loop. -/
def Engine.PassCol (e : Engine) (j : Nat) : Prop :=
  match e.kernel with
  | .scalar => j = e.col
  | .singleRow => j / 16 = e.col
  | .fourRowBlocked => j / 16 = e.col
  | .fourRowInterleaved => j / 16 = e.col

/-- The engine's next operation reads the byte at `a`: a weight or an input byte of its pass of the inner loop (R61;
log 6). -/
def State.OpReads (s : State) (e : Engine) (a : Nat) : Prop :=
  e.col < s.inner e.kernel ∧ ∃ r j, e.PassRow r ∧ e.PassCol j
    ∧ (a = s.wBase + layoutOffset e.kernel s.padded r j ∨ a = s.xBase + j)

/-- The engine's next operation writes output row `r`: a row below `N` of its pass of the outer loop (R69, R182, R186;
log 6). -/
def State.OpWritesRow (s : State) (e : Engine) (r : Nat) : Prop :=
  e.col = s.inner e.kernel ∧ e.PassRow r ∧ r < s.rows

/-- The engine's next operation must fault: it reads a byte that is not readable (R71, R78), or writes an output row with
a byte that is not writable (R78) or, under `refuse_out_of_range`, with a sum outside the 32-bit range (R145). -/
def State.OpFaults (s : State) (e : Engine) : Prop :=
  (∃ a, s.OpReads e a ∧ ¬ s.Readable a)
    ∨ ∃ r, s.OpWritesRow e r ∧ ((∃ i, i < 4 ∧ ¬ s.Writable (s.yBase + 4 * r + i))
        ∨ (s.params.accOverflow = .refuseOutOfRange ∧ ¬ (-2 ^ 31 ≤ s.rowSum e.kernel r ∧ s.rowSum e.kernel r ≤ 2 ^ 31 - 1)))

/-! ## Comparing runs -/

/-- The same state with another prefetch distance (R28). -/
def State.withPrefetch (s : State) (p : Word64) : State := s.withRegs { s.regs with prefetch := p }

/-- The same state on a block with or without the dot-product capability (R3). -/
def State.withCapability (s : State) (b : Bool) : State := { s with params := { s.params with hasDotprod := b } }

/-- An outcome with its next state changed, and its fault or refusal kept. -/
def mapNext (f : State → State) : Host.Outcome State Fault Refusal → Host.Outcome State Fault Refusal
  | .next s => .next (f s)
  | .fault x => .fault x
  | .refused x => .refused x

/-- The bytes stand at consecutive addresses of the memory. -/
def Memory.Holds (m : Memory) (base : Nat) (bytes : List Byte) : Prop :=
  ∀ i, i < bytes.length → m.read (base + i) = some (bytes.getD i 0)

/-- R70's condition for the padding of row `r`: in every padded column a weight byte or an input byte is zero. -/
def State.PaddingZero (s : State) (k : Kernel) (r : Nat) : Prop :=
  ∀ j, s.regs.k.toNat ≤ j → j < s.padded → s.weightByte k r j = 0 ∨ s.inputByte j = 0


end Sys2Proof.Machine
end

