-- ==== Sys2Proof/Certificates/Slice0/Obligations.lean ====
section
/-! DEFINITION. The statements for the provers. -/

open Sys2Proof Sys2Proof.Machine

/-! ## Encoding -/

/-- For every well-formed instruction, decoding its encoding gives it back, every operand at every value (R100, R101,
R103, R107). The bit layout of a `BUS` triple is the model's (log 3). -/
def Obligations.DecodeEncodeAgree : Prop :=
  ∀ i : Instr, i.wf = true → decodeBytes i.format (encode i) = .ok i

/-- R104, whole: the decode function on every 64-bit value; an illegal value is refused at `GO` with `ERR_ARG`; writing
one to `CMD` is no error, and it reads back as written. -/
def Obligations.CommandWordDecode : Prop :=
  (∀ cmd : Word64,
    (cmd.toNat / 8 ≠ 0 → ∃ x, decodeCommand cmd = .error x)
      ∧ (cmd.toNat / 8 = 0 → cmd.toNat % 8 = 0 → decodeCommand cmd = .ok .scalar)
      ∧ (cmd.toNat / 8 = 0 → cmd.toNat % 8 = 1 → decodeCommand cmd = .ok .singleRow)
      ∧ (cmd.toNat / 8 = 0 → cmd.toNat % 8 = 2 → decodeCommand cmd = .ok .fourRowBlocked)
      ∧ (cmd.toNat / 8 = 0 → cmd.toNat % 8 = 3 → decodeCommand cmd = .ok .fourRowInterleaved)
      ∧ (cmd.toNat / 8 = 0 → 4 ≤ cmd.toNat % 8 → ∃ x, decodeCommand cmd = .error x))
    ∧ (∀ s : State, s.TakesGo → (∃ x, decodeCommand s.regs.cmd = .error x) →
        exec .go s = .next (s.withStatus (.error .arg)))
    ∧ (∀ (s : State) (d : Word64), s.status.isBusy = false →
        ∃ t, exec (.regWr 0x08 d) s = .next t ∧ t.status = s.status
          ∧ ∃ u, exec (.regRd 0x08) t = .next u ∧ u.busData = d)

/-- A few table words decode to the instructions they stand for (R103, R107; the `BUS` layout is log 3's). -/
def Obligations.TableWordsDecode : Prop :=
  decodeTableWord 64 0 = some .scalar ∧ decodeTableWord 64 1 = some .dotprod
    ∧ decodeTableWord 64 2 = some .dotprod4 ∧ decodeTableWord 64 3 = some .dotprod4i
    ∧ decodeTableWord 64 4 = none ∧ decodeTableWord 64 8 = none
    ∧ decodeTableWord 80 0x10148 = some .go
    ∧ decodeTableWord 80 0x50 = some (.regRd 0x50)
    ∧ decodeTableWord 80 0x140118 = some (.regWr 0x18 20)

/-- A step runs the decoded instruction: when the next event is a register access that decodes to `i`, the step is
`exec i` with the event taken off; a table word put where the step fetches is run by the next step, with `CMD` holding
the word where it is a command word (log 2). -/
def Obligations.StepRunsDecodedInstruction : Prop :=
  (∀ (s : State) (a : BusAccess) (rest : List HostEvent) (i : Instr), s.pending = .access a :: rest →
      decodeAccess s.params.regBase a = .ok i → step s = exec i (s.withPending rest))
    ∧ (∀ (s : State) (w : Nat) (i : Instr), decodeTableWord 64 w = some i →
        step (s.withFetchWord 64 w) = exec i (s.withRegs { s.regs with cmd := BitVec.ofNat 64 w }))
    ∧ (∀ (s : State) (w : Nat) (i : Instr), decodeTableWord 80 w = some i →
        step (s.withFetchWord 80 w) = exec i s)

/-- R32, whole: the reserved offsets read 0 and ignore writes; an access that is not an aligned 8-byte access at an
offset below 0x100 is refused, and so are `REG.RD` and `REG.WR` of an offset that is no multiple of 8. -/
def Obligations.ReservedOffsetsAndBadAccesses : Prop :=
  (∀ (s : State) (o : BitVec 8), 0x58 ≤ o.toNat → o.toNat % 8 = 0 →
      (∃ t, exec (.regRd o) s = .next t ∧ t.busData = 0 ∧ t = s.withBusData 0)
        ∧ ∀ d, exec (.regWr o d) s = .next s)
    ∧ (∀ (s : State) (a : BusAccess) (rest : List HostEvent), s.pending = .access a :: rest →
        ¬ (s.params.regBase ≤ a.addr ∧ a.addr - s.params.regBase < 0x100 ∧ a.width = 8
            ∧ (a.addr - s.params.regBase) % 8 = 0) →
        step s = .refused .badRegisterAccess)
    ∧ (∀ (s : State) (o : BitVec 8) (d : Word64), o.toNat % 8 ≠ 0 →
        exec (.regRd o) s = .refused .badRegisterAccess ∧ exec (.regWr o d) s = .refused .badRegisterAccess)

/-! ## Register accesses -/

/-- R130, whole: what a read of each offset returns, and that it changes nothing else of the block in any state. The
list `unsynced` is the model's own record of ordering (log 11): it changes on a read of `STATUS` that returns `DONE`. -/
def Obligations.RegisterReads : Prop :=
  ∀ (s : State) (o : BitVec 8), o.toNat % 8 = 0 →
    ∃ t, exec (.regRd o) s = .next t
      ∧ (o = 0x00 → t.busData = if s.params.hasDotprod then 1 else 0)
      ∧ (o = 0x08 → t.busData = s.regs.cmd) ∧ (o = 0x10 → t.busData = s.regs.n) ∧ (o = 0x18 → t.busData = s.regs.k)
      ∧ (o = 0x20 → t.busData.toNat = (s.regs.k.toNat + 15) % 2 ^ 64 / 16 * 16)
      ∧ (o = 0x28 → t.busData = s.regs.prefetch) ∧ (o = 0x30 → t.busData = s.regs.wBase)
      ∧ (o = 0x38 → t.busData = s.regs.xBase) ∧ (o = 0x40 → t.busData = s.regs.yBase)
      ∧ (o = 0x48 → t.busData = 0)
      ∧ (o = 0x50 → (s.status = .idle → t.busData = 0x00) ∧ (s.status.isBusy = true → t.busData = 0x01)
          ∧ (s.status = .done → t.busData = 0x02) ∧ (s.status = .error .arg → t.busData = 0x13)
          ∧ (s.status = .error .cap → t.busData = 0x23) ∧ (s.status = .error .align → t.busData = 0x33)
          ∧ (s.status = .error .range → t.busData = 0x43))
      ∧ (0x58 ≤ o.toNat → t.busData = 0)
      ∧ t.params = s.params ∧ t.regs = s.regs ∧ t.status = s.status ∧ t.mem = s.mem ∧ t.memData = s.memData
      ∧ t.pending = s.pending ∧ (¬ (o = 0x50 ∧ s.status = .done) → t.unsynced = s.unsynced)

/-- R131, whole: a write of `CTRL` starts a command when data[0] = 1 and does nothing otherwise; a configuration register
is stored unless `BUSY`; every other offset ignores the write. Each next state is given whole, so nothing else changes. -/
def Obligations.RegisterWrites : Prop :=
  ∀ (s : State) (o : BitVec 8) (d : Word64), o.toNat % 8 = 0 →
    (o = 0x48 → exec (.regWr o d) s = if d.getLsbD 0 then exec .go s else .next s)
      ∧ (o ≠ 0x48 → s.status.isBusy = true → exec (.regWr o d) s = .next s)
      ∧ (s.status.isBusy = false →
          (o = 0x08 → exec (.regWr o d) s = .next (s.withRegs { s.regs with cmd := d }))
            ∧ (o = 0x10 → exec (.regWr o d) s = .next (s.withRegs { s.regs with n := d }))
            ∧ (o = 0x18 → exec (.regWr o d) s = .next (s.withRegs { s.regs with k := d }))
            ∧ (o = 0x28 → exec (.regWr o d) s = .next (s.withRegs { s.regs with prefetch := d }))
            ∧ (o = 0x30 → exec (.regWr o d) s = .next (s.withRegs { s.regs with wBase := d }))
            ∧ (o = 0x38 → exec (.regWr o d) s = .next (s.withRegs { s.regs with xBase := d }))
            ∧ (o = 0x40 → exec (.regWr o d) s = .next (s.withRegs { s.regs with yBase := d }))
            ∧ (o = 0x00 ∨ o = 0x20 ∨ 0x50 ≤ o.toNat → exec (.regWr o d) s = .next s))

/-- R35, whole: while `BUSY` a write of a configuration register and a write of 1 to `CTRL.GO` are ignored, reads are
answered in every state, and a step that leaves the command running or completes it leaves the registers as they were
(only a platform reset may change them, R250). -/
def Obligations.BusyKeepsConfiguration : Prop :=
  (∀ (s : State) (o : BitVec 8) (d : Word64), s.status.isBusy = true → o.toNat % 8 = 0 →
      exec (.regWr o d) s = .next s ∧ exec .go s = .next s)
    ∧ (∀ (s : State) (o : BitVec 8), o.toNat % 8 = 0 → ∃ t, exec (.regRd o) s = .next t)
    ∧ (∀ s t : State, s.status.isBusy = true → step s = .next t → (∀ rest, s.pending ≠ .reset :: rest) →
        t.regs = s.regs)

/-- R27, whole: `KPAD` is `ceil16(K)` modulo 2^64, follows every write of `K` at once, is for every legal `K` the
smallest multiple of 16 not below it, ignores writes, and is 1024 at reset. -/
def Obligations.KpadFollowsK : Prop :=
  (∀ s : State, (s.readReg .kpad).toNat = (s.regs.k.toNat + 15) % 2 ^ 64 / 16 * 16)
    ∧ (∀ (s : State) (d : Word64), s.status.isBusy = false →
        ∃ t u, exec (.regWr 0x18 d) s = .next t ∧ exec (.regRd 0x20) t = .next u
          ∧ u.busData.toNat = (d.toNat + 15) % 2 ^ 64 / 16 * 16)
    ∧ (∀ s : State, 1 ≤ s.regs.k.toNat → s.regs.k.toNat ≤ 2 ^ 31 - 1 →
        s.regs.k.toNat ≤ (s.readReg .kpad).toNat ∧ (s.readReg .kpad).toNat % 16 = 0
          ∧ ∀ m, s.regs.k.toNat ≤ m → m % 16 = 0 → (s.readReg .kpad).toNat ≤ m)
    ∧ (∀ (s : State) (d : Word64), exec (.regWr 0x20 d) s = .next s)
    ∧ State.reset.readReg .kpad = 1024

/-- R33, whole: the fields of `STATUS`, the reserved bits, the code `NONE` outside `ERROR`, that a write has no effect,
and the reset value. -/
def Obligations.StatusWordFields : Prop :=
  (∀ s : State,
    (s.statusWord.toNat % 4 = 0 ↔ s.status = .idle) ∧ (s.statusWord.toNat % 4 = 1 ↔ ∃ e, s.status = .busy e)
      ∧ (s.statusWord.toNat % 4 = 2 ↔ s.status = .done) ∧ (s.statusWord.toNat % 4 = 3 ↔ ∃ c, s.status = .error c)
      ∧ s.statusWord.toNat / 4 % 4 = 0 ∧ s.statusWord.toNat / 256 = 0
      ∧ (∀ c, s.status = .error c → s.statusWord.toNat / 16 = c.code)
      ∧ ((∀ c, s.status ≠ .error c) → s.statusWord.toNat / 16 = 0)
      ∧ (∀ d, exec (.regWr 0x50 d) s = .next s))
    ∧ State.reset.statusWord = 0

/-- R24, whole: `CAP` reads as `HAS_DOTPROD` in bit 0 and zero above, a write has no effect, and no step changes it (nor
any other parameter). -/
def Obligations.CapabilityHardwired : Prop :=
  (∀ s : State, s.readReg .cap = if s.params.hasDotprod then 1 else 0)
    ∧ (∀ (s : State) (d : Word64), exec (.regWr 0x00 d) s = .next s)
    ∧ (∀ s t : State, step s = .next t → t.params = s.params)

/-- R31, whole: writing 1 to bit 0 of `CTRL` starts a command, writing 0 has no effect, bits 63:1 are ignored, reads
return 0. -/
def Obligations.ControlRegister : Prop :=
  (∀ (s : State) (d : Word64), d.getLsbD 0 = true → exec (.regWr 0x48 d) s = exec .go s)
    ∧ (∀ (s : State) (d : Word64), d.getLsbD 0 = false → exec (.regWr 0x48 d) s = .next s)
    ∧ (∀ s : State, ∃ t, exec (.regRd 0x48) s = .next t ∧ t.busData = 0)

/-! ## Starting a command -/

/-- R134 to R137 with R222's priority: in a state that takes `GO`, the first check that fails, in the order `ERR_ARG`,
`ERR_CAP`, `ERR_ALIGN`, `ERR_RANGE`, decides the code, and the next state differs from the state in `STATUS` alone. The
sizes are `wsize = N * KPAD` or `ceil4(N) * KPAD`, `xsize = KPAD`, `ysize = 4 * N`. -/
def Obligations.GoRefusalPriority : Prop :=
  ∀ s : State, s.TakesGo →
    let dimBad := s.regs.n.toNat = 0 ∨ 2 ^ 31 - 1 < s.regs.n.toNat ∨ s.regs.k.toNat = 0 ∨ 2 ^ 31 - 1 < s.regs.k.toNat
    let misaligned := s.regs.wBase.toNat % 64 ≠ 0 ∨ s.regs.xBase.toNat % 64 ≠ 0 ∨ s.regs.yBase.toNat % 64 ≠ 0
    let n := s.regs.n.toNat
    let kp := (s.readReg .kpad).toNat
    let w := s.regs.wBase.toNat
    let x := s.regs.xBase.toNat
    let y := s.regs.yBase.toNat
    let top := 2 ^ s.params.addrBits
    ((3 < s.regs.cmd.toNat ∨ dimBad) → exec .go s = .next (s.withStatus (.error .arg)))
      ∧ (∀ k : Kernel, s.regs.cmd = k.code → ¬ dimBad →
          let wsize := (if k = .scalar ∨ k = .singleRow then n else (n + 3) / 4 * 4) * kp
          let rangeBad := top < w + wsize ∨ top < x + kp ∨ top < y + 4 * n
            ∨ (y < w + wsize ∧ w < y + 4 * n) ∨ (y < x + kp ∧ x < y + 4 * n)
          ((k ≠ .scalar ∧ s.params.hasDotprod = false) → exec .go s = .next (s.withStatus (.error .cap)))
            ∧ (¬ (k ≠ .scalar ∧ s.params.hasDotprod = false) →
                (misaligned → exec .go s = .next (s.withStatus (.error .align)))
                  ∧ (¬ misaligned → rangeBad → exec .go s = .next (s.withStatus (.error .range)))
                  ∧ (¬ misaligned → ¬ rangeBad → s.acceptError k = none)))

/-- A kernel command is `GO` with its word in `CMD` (R103, R132): the two meanings agree in every state. -/
def Obligations.KernelCommandIsGoWithItsWord : Prop :=
  ∀ (k : Kernel) (s : State), s.regs.cmd = k.code → exec .go s = exec k.toInstr s

/-- R138, R224 and R225, whole: a refused command, of `GO` or of any kernel, changes `STATUS` alone, reads no memory (the
refusal is the same whatever the memory holds) and runs no other kernel. -/
def Obligations.RefusalTouchesStatusAlone : Prop :=
  ∀ (i : Instr) (s t : State) (c : ErrorCode),
    i = .go ∨ i = .scalar ∨ i = .dotprod ∨ i = .dotprod4 ∨ i = .dotprod4i →
    s.TakesGo → exec i s = .next t → t.status = .error c →
    t = s.withStatus (.error c) ∧ ∀ m, exec i (s.withMem m) = .next ((s.withMem m).withStatus (.error c))

/-- R226 and R227, whole: while `STATE = ERROR`, `GO` and every kernel command are ignored, a write of any configuration
register is stored and the status kept, every step but a platform reset keeps the state and its code, and the reset
leaves `ERROR`. -/
def Obligations.ErrorTerminalUntilReset : Prop :=
  ∀ (s : State) (c : ErrorCode), s.status = .error c →
    exec .go s = .next s ∧ (∀ k : Kernel, exec k.toInstr s = .next s)
      ∧ (∀ (o : BitVec 8) (d : Word64),
          o = 0x08 ∨ o = 0x10 ∨ o = 0x18 ∨ o = 0x28 ∨ o = 0x30 ∨ o = 0x38 ∨ o = 0x40 →
          ∃ t u, exec (.regWr o d) s = .next t ∧ t.status = .error c ∧ exec (.regRd o) t = .next u ∧ u.busData = d)
      ∧ (∀ t, step s = .next t → (∀ rest, s.pending ≠ .reset :: rest) → t.status = .error c)
      ∧ (∀ t rest, s.pending = .reset :: rest → step s = .next t → t.status = .idle)

/-- After R34: a step changes `STATUS` only where a `GO` is taken (an accepted command: to `BUSY`, or in one transition
on to `DONE`, R139; a refused one: to `ERROR` with the code of the check), where the engine has its turn, and at a reset;
and a running command goes to `DONE` in the engine's turn that is its last operation, and in no other step (in states
that meet the machine's invariant). Which events give the engine a turn, and what one operation holds, is the model's
choice (log 2, log 6, log 20). -/
def Obligations.StatusWrittenByEngineAlone : Prop :=
  (∀ s t : State, step s = .next t →
    t.status = s.status
      ∨ (∃ rest, s.pending = .reset :: rest ∧ t.status = .idle)
      ∨ (s.TakesGo ∧ (∃ a rest, s.pending = .access a :: rest ∧ decodeAccess s.params.regBase a = .ok .go)
          ∧ (((∃ x, decodeCommand s.regs.cmd = .error x) ∧ t.status = .error .arg)
            ∨ (∃ k c, decodeCommand s.regs.cmd = .ok k ∧ s.acceptError k = some c ∧ t.status = .error c)
            ∨ (∃ k, decodeCommand s.regs.cmd = .ok k ∧ s.acceptError k = none
                ∧ t.status = if s.params.visibleBusy then .busy (Engine.start k) else .done)))
      ∨ (s.status.isBusy = true ∧ s.EngineMoves ∧ (t.status.isBusy = true ∨ t.status = .done)))
    ∧ ∀ (s t : State) (e : Engine), s.Inv → s.status = .busy e → step s = .next t →
        (t.status = .done ↔ s.EngineMoves ∧ s.LastOp e)

/-- R160, R170 and R180, whole: `scalar` behaves the same with and without the capability; without it the three
SIMD kernels are refused with `ERR_CAP` once their dimensions are legal. -/
def Obligations.CapabilityGatesSimdOnly : Prop :=
  (∀ (s : State) (b : Bool), exec .scalar (s.withCapability b) = mapNext (fun t => t.withCapability b) (exec .scalar s))
    ∧ (∀ s : State, s.TakesGo → s.params.hasDotprod = false → 1 ≤ s.regs.n.toNat → s.regs.n.toNat ≤ 2 ^ 31 - 1 →
        1 ≤ s.regs.k.toNat → s.regs.k.toNat ≤ 2 ^ 31 - 1 →
        exec .dotprod s = .next (s.withStatus (.error .cap)) ∧ exec .dotprod4 s = .next (s.withStatus (.error .cap))
          ∧ exec .dotprod4i s = .next (s.withStatus (.error .cap)))

/-- A command whose buffer lies over memory with read side effects is refused by the model (R75; log 14). -/
def Obligations.SideEffectBufferRefused : Prop :=
  ∀ (k : Kernel) (s : State), s.TakesGo → s.acceptError k = none → s.overSideEffects k = true →
    exec k.toInstr s = .refused .sideEffectBuffer

/-! ## The kernels -/

/-- For `scalar`, `dotprod`, `dotprod4` and `dotprod4i` (R132, R139, R144, R69): a command that is taken, passes
the checks and finds its buffers prepared (R88) completes in one transition (R139): `STATE = DONE`, every output row holds the sum over `KPAD`
columns modulo 2^32, little-endian, no byte outside the output range changes, and no other field of the machine does
(`unsynced` records the output range, log 11). -/
def Obligations.KernelCommandsComplete : Prop :=
  ∀ (k : Kernel) (s : State), s.Runs k → s.params.visibleBusy = false →
    ∃ t, exec k.toInstr s = .next t ∧ s.CompletedTo t k

/-- `GO` completes the command its word stands for, under the same conditions (R132). -/
def Obligations.GoCompletesItsCommand : Prop :=
  ∀ (k : Kernel) (s : State), s.regs.cmd = k.code → s.Runs k → s.params.visibleBusy = false →
    ∃ t, exec .go s = .next t ∧ s.CompletedTo t k

/-- The other reading of R139 (log 5): with a visible `BUSY`, the command is accepted and `BUSY` lasts exactly `opCount`
engine operations, after which the machine is in the state of the one-transition reading. R147 bounds the operations; how
many passes and output writes one of them holds, and so their exact count written out here, is the model's choice
(log 6). -/
def Obligations.VisibleBusyCompletes : Prop :=
  ∀ (k : Kernel) (s : State), s.Runs k → s.params.visibleBusy = true → s.pending = [] →
    exec k.toInstr s = .next (s.accept k)
      ∧ (s.opCount .scalar = s.rows * (s.padded + 1) ∧ s.opCount .singleRow = s.rows * (s.padded / 16 + 1)
          ∧ s.opCount .fourRowBlocked = (s.rows + 3) / 4 * (s.padded / 16 + 1)
          ∧ s.opCount .fourRowInterleaved = (s.rows + 3) / 4 * (s.padded / 16 + 1))
      ∧ (∀ m, m < s.opCount k → ∃ u, runs m (s.accept k) = .next u ∧ u.status.isBusy = true)
      ∧ ∃ t, runs (s.opCount k) (s.accept k) = .next t ∧ s.CompletedTo t k

/-- `WAIT` ends (R107, R147): polling while the command runs gives the engine its turns (log 20), and after one poll more
than the command has operations the wait is over, `STATUS` read as `DONE`, and the output is written. -/
def Obligations.WaitEndsWithDone : Prop :=
  ∀ (k : Kernel) (s : State) (rest : List HostEvent), s.Runs k → s.pending = .wait :: rest →
    ∃ t, runs (s.opCount k + 1) (s.accept k) = .next t ∧ t.pending = rest ∧ t.status = .done ∧ t.busData = 2
      ∧ (∀ r, r < s.rows → t.OutputIs r (s.rowValue k r))
      ∧ (∀ a, ¬ s.outputRegion.Has a → t.mem.read a = s.mem.read a) ∧ t.regs = s.regs

/-- The frame of `GO` and of the four kernel commands in every state and for every next state: parameters, registers,
read-back data and pending events are unchanged, and so is every byte outside `Y_BASE .. Y_BASE + 4*N - 1` (R69); if the
next state is not `DONE`, every byte is unchanged. And the frame of a running command under a visible `BUSY` (R61, R69):
a step that is no host write of memory and no reset changes no register, no parameter and no byte outside the output
range. -/
def Obligations.CommandFrame : Prop :=
  (∀ (i : Instr) (s t : State), i = .go ∨ i = .scalar ∨ i = .dotprod ∨ i = .dotprod4 ∨ i = .dotprod4i →
    exec i s = .next t →
    t.params = s.params ∧ t.regs = s.regs ∧ t.busData = s.busData ∧ t.memData = s.memData ∧ t.pending = s.pending
      ∧ (∀ a, ¬ (s.regs.yBase.toNat ≤ a ∧ a < s.regs.yBase.toNat + 4 * s.regs.n.toNat) →
          t.mem.read a = s.mem.read a)
      ∧ (t.status ≠ .done → t.mem = s.mem)) ∧
  ∀ s t : State, s.status.isBusy = true → step s = .next t → (∀ a b rest, s.pending ≠ .memWrite a b :: rest) →
    (∀ rest, s.pending ≠ .reset :: rest) →
    t.params = s.params ∧ t.regs = s.regs ∧ ∀ a, ¬ s.outputRegion.Has a → t.mem.read a = s.mem.read a

/-- R163 with R70's exact condition, for every kernel: under zero padding a completed command's output, in
either reading of R139, is the sum over `j < k` modulo 2^32, and that sum itself when it fits 32 bits (R145). -/
def Obligations.ExactUnderZeroPadding : Prop :=
  ∀ (k : Kernel) (s t : State), s.Runs k → s.Completes t k →
    ∀ r, r < s.rows → s.PaddingZero k r →
      t.OutputIs r (BitVec.ofInt 32 (s.partialSum k r s.regs.k.toNat))
        ∧ (-2 ^ 31 ≤ s.partialSum k r s.regs.k.toNat → s.partialSum k r s.regs.k.toNat ≤ 2 ^ 31 - 1 →
            (s.rowValue k r).toInt = s.partialSum k r s.regs.k.toNat)

/-- R145's safe bound: with `K <= 131071` and zero padding, no sum of the products of any set of columns of a row leaves
the 32-bit range, so no partial sum in any order does. -/
def Obligations.SafeKNeverOverflows : Prop :=
  ∀ (k : Kernel) (s : State) (r : Nat), 1 ≤ s.regs.k.toNat → s.regs.k.toNat ≤ 131071 → s.PaddingZero k r →
    ∀ cols : Finset Nat, (∀ j ∈ cols, j < s.padded) →
      -2 ^ 31 ≤ cols.sum (fun j => prod (s.weightByte k r j) (s.inputByte j))
        ∧ cols.sum (fun j => prod (s.weightByte k r j) (s.inputByte j)) ≤ 2 ^ 31 - 1

/-- The two refusing values of `ACC_OVERFLOW` (R145), in either reading of R139: `refuse_unsafe_k` faults on every accepted
command with `K > K_SAFE`; `refuse_out_of_range` faults on a command where some output row's exact sum leaves the 32-bit
range, its buffers being readable and writable. Where the model stops is log 13's. -/
def Obligations.RefusingOverflowModesFault : Prop :=
  (∀ (k : Kernel) (s : State), s.TakesGo → s.acceptError k = none → s.overSideEffects k = false →
      s.params.accOverflow = .refuseUnsafeK → 131071 < s.regs.k.toNat → exec k.toInstr s = .fault .unsafeK)
    ∧ (∀ (k : Kernel) (s : State), s.TakesGo → s.acceptError k = none → s.overSideEffects k = false →
        (s.params.visibleBusy = true → s.pending = []) → s.params.accOverflow = .refuseOutOfRange →
        (∀ a, (s.weightRegion k).Has a → s.Readable a) → (∀ a, s.inputRegion.Has a → s.Readable a) →
        (∀ a, s.outputRegion.Has a → s.Writable a) →
        (∃ r, r < s.rows ∧ ¬ (-2 ^ 31 ≤ s.rowSum k r ∧ s.rowSum k r ≤ 2 ^ 31 - 1)) →
        ∃ r, r < s.rows ∧ (exec k.toInstr s = .fault (.sumOutOfRange r)
          ∨ (s.params.visibleBusy = true ∧ exec k.toInstr s = .next (s.accept k)
              ∧ ∃ m, runs m (s.accept k) = .fault (.sumOutOfRange r))))

/-- R71 and R78, in either reading of R139: an accepted command that needs a byte nothing has written, or one that
`MEM_ADMIT` does not admit, for a read or for a write, ends in a model fault; a buffer past the top of the data space or an
output that overlaps a source is refused with `ERR_RANGE` instead, before any access. -/
def Obligations.UnprovidedByteFaults : Prop :=
  (∀ (k : Kernel) (s : State), s.TakesGo → s.acceptError k = none → s.overSideEffects k = false →
    (s.params.visibleBusy = true → s.pending = []) →
    ((∃ a, ((s.weightRegion k).Has a ∨ s.inputRegion.Has a) ∧ (s.mem.read a = none ∨ s.params.admits a = false))
      ∨ (∃ a, s.outputRegion.Has a ∧ s.params.admits a = false)) →
    s.EndsInFault k)
  ∧ ∀ (k : Kernel) (s : State), s.TakesGo → s.argBad = false → s.capBad k = false → s.alignBad = false →
      s.rangeBad k = true → exec k.toInstr s = .next (s.withStatus (.error .range))

/-- The same operation by operation under a visible `BUSY`: from every state that meets the machine's invariant, the
engine's step faults exactly where its next operation reads a byte that is not readable, writes one that is not writable,
or writes a row whose sum `refuse_out_of_range` turns away; otherwise it answers (R71, R78, R145; log 6, log 13). -/
def Obligations.BusyStepFaultsExactlyWhere : Prop :=
  ∀ (s : State) (e : Engine), s.Inv → s.status = .busy e →
    s.EngineMoves →
    (s.OpFaults e → ∃ f, step s = .fault f) ∧ (¬ s.OpFaults e → ∃ t, step s = .next t)

/-- R187: one matrix packed by R203 to R205 and one input vector give bit-identical outputs from any two kernels, for
every `n` and `k`, wherever the buffers stand and in either reading of R139. -/
def Obligations.CrossKernelEquality : Prop :=
  ∀ (raw x : List Byte) (n k : Nat) (a b : Kernel) (s t s' t' : State),
    s.Runs a → t.Runs b →
    s.regs.n.toNat = n → t.regs.n.toNat = n → s.regs.k.toNat = k → t.regs.k.toNat = k →
    x.length = ceil16 k →
    s.mem.Holds s.wBase (packFor a raw n k) → t.mem.Holds t.wBase (packFor b raw n k) →
    s.mem.Holds s.xBase x → t.mem.Holds t.xBase x →
    s.Completes s' a → t.Completes t' b →
    ∀ r i, r < n → i < 4 → ∃ v, s'.mem.read (s.yBase + 4 * r + i) = some v ∧ t'.mem.read (t.yBase + 4 * r + i) = some v

/-- R172 and R173: the prefetch distance has no effect on the outcome of any kernel command: the memory, the status and
any fault are the same for every value. And in every step of a running command, whatever the host does meanwhile: the
outcome is the same but for `PREFETCH` itself and the data of a read of it, and after a reset it is the same altogether. -/
def Obligations.PrefetchHasNoEffect : Prop :=
  (∀ (k : Kernel) (s : State) (p : Word64),
    exec k.toInstr (s.withPrefetch p) = mapNext (fun t => t.withPrefetch p) (exec k.toInstr s))
  ∧ ∀ (s : State) (p : Word64), s.status.isBusy = true →
    ((∀ rest, s.pending ≠ .reset :: rest) →
      (∀ a rest, s.pending = .access a :: rest → decodeAccess s.params.regBase a ≠ .ok (.regRd 0x28)) →
      step (s.withPrefetch p) = mapNext (fun t => t.withPrefetch p) (step s))
    ∧ (∀ a rest, s.pending = .access a :: rest → decodeAccess s.params.regBase a = .ok (.regRd 0x28) →
      step (s.withPrefetch p) = mapNext (fun t => (t.withPrefetch p).withBusData p) (step s))
    ∧ (∀ rest, s.pending = .reset :: rest → step (s.withPrefetch p) = step s)

/-- R182 and R186, for `dotprod4` and `dotprod4i`: bytes of rows `r >= n` of the last block change no output, and no byte
past the `n` output elements is written. -/
def Obligations.PaddingRowsNeverReachOutput : Prop :=
  ∀ (k : Kernel) (s t s' t' : State), k = .fourRowBlocked ∨ k = .fourRowInterleaved →
    t.params = s.params → t.regs = s.regs → s.Runs k → t.Runs k →
    (∀ a, s.inputRegion.Has a → t.mem.read a = s.mem.read a) →
    (∀ r j, r < s.rows → j < s.padded →
      t.mem.read (s.wBase + layoutOffset k s.padded r j) = s.mem.read (s.wBase + layoutOffset k s.padded r j)) →
    s.Completes s' k → t.Completes t' k →
    (∀ a, s.yBase ≤ a → a < s.yBase + 4 * s.rows → t'.mem.read a = s'.mem.read a)
      ∧ (∀ a, s.yBase + 4 * s.rows ≤ a → s'.mem.read a = s.mem.read a)

/-- R85: a command's output depends on the registers at its `GO` and on the bytes of the weight and input buffers alone;
nothing from an earlier command is read. -/
def Obligations.NoCarriedState : Prop :=
  ∀ (k : Kernel) (s t s' t' : State), t.params = s.params → t.regs = s.regs → s.Runs k → t.Runs k →
    (∀ a, (s.weightRegion k).Has a ∨ s.inputRegion.Has a → t.mem.read a = s.mem.read a) →
    s.Completes s' k → t.Completes t' k →
    ∀ a, s.outputRegion.Has a → t'.mem.read a = s'.mem.read a

/-! ## Arithmetic and layouts -/

/-- R140: the product is exact, lies in -16256..16384, and both bounds are reached. -/
def Obligations.ProductExactAndBounded : Prop :=
  (∀ w x : Byte, prod w x = w.toInt * x.toInt ∧ -16256 ≤ prod w x ∧ prod w x ≤ 16384)
    ∧ prod 0x80 0x7F = -16256 ∧ prod 0x80 0x80 = 16384

/-- R141 to R143: accumulation is `wrap32` of the exact sum, where `wrap32` is the integer of the 32-bit signed range
congruent to its argument modulo 2^32; each of a chunk's 16 products is added to the lane of its group of four; the lane
sum is `wrap32` of the sum of the lanes. -/
def Obligations.AccumulatorPrimitives : Prop :=
  (∀ v : Int, -2 ^ 31 ≤ wrap32 v ∧ wrap32 v ≤ 2 ^ 31 - 1 ∧ (wrap32 v - v) % 2 ^ 32 = 0)
    ∧ (∀ (a : Word32) (v : Int), (accumulate a v).toInt = wrap32 (a.toInt + v))
    ∧ (∀ (a : Lanes) (wv xv : List Byte), let p := fun t => prod (wv.getD t 0) (xv.getD t 0)
        (dot16 a wv xv).l0.toInt = wrap32 (a.l0.toInt + (p 0 + p 1 + p 2 + p 3))
          ∧ (dot16 a wv xv).l1.toInt = wrap32 (a.l1.toInt + (p 4 + p 5 + p 6 + p 7))
          ∧ (dot16 a wv xv).l2.toInt = wrap32 (a.l2.toInt + (p 8 + p 9 + p 10 + p 11))
          ∧ (dot16 a wv xv).l3.toInt = wrap32 (a.l3.toInt + (p 12 + p 13 + p 14 + p 15)))
    ∧ (∀ a : Lanes, (hsum a).toInt = wrap32 (a.l0.toInt + a.l1.toInt + a.l2.toInt + a.l3.toInt))

/-- R66's bijection: the interleaved offsets of the padded elements are distinct and fill the buffer. -/
def Obligations.InterleavedLayoutBijective : Prop :=
  ∀ n kpad : Nat, kpad % 16 = 0 →
    (∀ r j r' j', r < ceil4 n → j < kpad → r' < ceil4 n → j' < kpad →
        i4Offset kpad r j = i4Offset kpad r' j' → r = r' ∧ j = j')
      ∧ (∀ p, p < ceil4 n * kpad → ∃ r j, r < ceil4 n ∧ j < kpad ∧ i4Offset kpad r j = p)
      ∧ (∀ r j, r < ceil4 n → j < kpad → i4Offset kpad r j < ceil4 n * kpad)

/-- R65 and R185's corner case: the Four-Row-Blocked offset is the Row-Padded one, and with `KPAD = 16` the interleaved
one too. -/
def Obligations.LayoutsCoincideWhereTheSpecSays : Prop :=
  (∀ kpad r j : Nat, b4Offset kpad r j = r * kpad + j)
    ∧ (∀ r j : Nat, j < 16 → i4Offset 16 r j = b4Offset 16 r j)

/-- R203 to R206: the sizes of the packed buffers; every layout stores the raw byte of every element of the matrix at the
element's offset and zero at every other padded element's (by `InterleavedLayoutBijective`
and `LayoutsCoincideWhereTheSpecSays`, that is every byte). -/
def Obligations.PackersZeroFillAndRoundTrip : Prop :=
  ∀ (raw : List Byte) (n k : Nat),
    (packRP raw n k).length = n * ceil16 k ∧ (packB4 raw n k).length = ceil4 n * ceil16 k
      ∧ (packI4 raw n k).length = ceil4 n * ceil16 k
      ∧ (∀ r j, r < n → k ≤ j → j < ceil16 k → (packRP raw n k)[r * ceil16 k + j]? = some 0)
      ∧ (∀ r j, n ≤ r → r < ceil4 n → j < ceil16 k → (packB4 raw n k)[r * ceil16 k + j]? = some 0)
      ∧ (∀ (a : Kernel) (r j : Nat), r < n → j < k →
          (packFor a raw n k)[layoutOffset a (ceil16 k) r j]? = some (raw.getD (r * k + j) 0))
      ∧ (∀ (a : Kernel) (r j : Nat), r < layoutRows a n → j < ceil16 k → n ≤ r ∨ k ≤ j →
          (packFor a raw n k)[layoutOffset a (ceil16 k) r j]? = some 0)

/-- R201: the output of a generator state is the 7-bit magnitude of bits 30:24, negated when bit 0 is set, and is stored
exactly as a byte; it lies in -127..127, so 0x80 is never produced; magnitude 0 gives 0. -/
def Obligations.GeneratorBytesInRange : Prop :=
  (∀ s : Word64,
    (genByte s).toInt = (if s.toNat % 2 = 1 then -((s.toNat / 2 ^ 24 % 2 ^ 7 : Nat) : Int)
        else ((s.toNat / 2 ^ 24 % 2 ^ 7 : Nat) : Int))
      ∧ -127 ≤ (genByte s).toInt ∧ (genByte s).toInt ≤ 127 ∧ genByte s ≠ 0x80
      ∧ (s.toNat / 2 ^ 24 % 2 ^ 7 = 0 → genByte s = 0))
    ∧ (∀ (seed : Word64) (len : Nat), genSequence seed (len + 1) = genByte (genStep seed) :: genSequence (genStep seed) len)

/-- R208: the validator counts the mismatches, gives the largest exact difference (0 without a mismatch), and lists the
first up to five mismatching triples in ascending order. -/
def Obligations.ValidatorReport : Prop :=
  ∀ (obs ref : List Word32) (n : Nat),
    let o := fun i => (obs.getD i 0).toInt
    let r := fun i => (ref.getD i 0).toInt
    let v := validate obs ref n
    v.mismatches = ((Finset.range n).filter (fun i => o i ≠ r i)).card
      ∧ (∀ i, i < n → o i ≠ r i → (o i - r i).natAbs ≤ v.maxAbsDiff)
      ∧ ((∀ i, i < n → o i = r i) → v.maxAbsDiff = 0)
      ∧ (0 < v.mismatches → ∃ i, i < n ∧ o i ≠ r i ∧ v.maxAbsDiff = (o i - r i).natAbs)
      ∧ v.first.length = min 5 v.mismatches
      ∧ (∀ e ∈ v.first, e.1 < n ∧ o e.1 ≠ r e.1 ∧ e.2 = (o e.1, r e.1))
      ∧ v.first.Pairwise (fun d e => d.1 < e.1)
      ∧ (∀ i, i < n → o i ≠ r i → (∀ e ∈ v.first, e.1 ≠ i) → ∀ e ∈ v.first, e.1 < i)

/-! ## The host and the data space -/

/-- The driver's errors (R210): a bad configuration, a SIMD kernel on a block without the capability, a failed or illegal
allocation (log 23) and a weight source of the wrong length each end it with exit code 1 and no report, before a kernel
runs; where it ends with code 0, a report is there exactly if the check was asked for (R209). -/
def Obligations.DriverErrorsExitWithOne : Prop :=
  (∀ (fuel : Nat) (cfg : BenchConfig) (ws vs : Word64) (p : Option Placement) (s : State), 1 ≤ fuel →
    cfg.n = 0 ∨ cfg.k = 0 ∨ cfg.iterations = 0 ∨ (cfg.kernel ≠ .scalar ∧ s.params.hasDotprod = false) ∨ p = none
      ∨ (∃ q, p = some q ∧ q.legal s.params.addrBits cfg.n cfg.k = false)
      ∨ (∃ file, cfg.weights = some file ∧ file.length ≠ cfg.n * cfg.k) →
    driverRun fuel cfg ws vs p s = .exited 1 none)
  ∧ ∀ (fuel : Nat) (cfg : BenchConfig) (ws vs : Word64) (p : Option Placement) (s : State) (rep : Option Validation),
      driverRun fuel cfg ws vs p s = .exited 0 rep → (rep.isSome = true ↔ cfg.check = true)

/-- R75: a host write of a byte that is answered changes that byte alone, and the host's next read of it returns the
value written. That a write takes effect before the next event is the model's choice (log 22), and so is that a write to
a byte of an earlier command's output held back from the host is answered, and the read after it too (log 11). -/
def Obligations.HostWriteThenRead : Prop :=
  ∀ (s t : State) (a : Nat) (b : Byte) (rest : List HostEvent),
    s.pending = .memWrite a b :: .memRead a :: rest → step s = .next t →
    (∀ x, x ≠ a → t.mem.read x = s.mem.read x) ∧ t.regs = s.regs ∧ t.status = s.status
      ∧ ∃ u, step t = .next u ∧ u.memData = b ∧ u.mem = t.mem ∧ u.pending = rest

/-- R86: while `BUSY`, a host write of a byte of the weight, input or output range, or a host read of the output range,
faults; a host read of a readable byte outside the output range is answered. -/
def Obligations.BusyBuffersAreProtected : Prop :=
  ∀ (s : State) (e : Engine), s.status = .busy e →
    (∀ a b rest, s.pending = .memWrite a b :: rest → s.addressFault a = none → s.params.hasSideEffect a = false →
        (s.weightRegion e.kernel).Has a ∨ s.inputRegion.Has a ∨ s.outputRegion.Has a →
        step s = .fault (.busyBuffer a))
      ∧ (∀ a rest, s.pending = .memRead a :: rest → s.addressFault a = none → s.params.hasSideEffect a = false →
          s.outputRegion.Has a → step s = .fault (.busyBuffer a))
      ∧ (∀ a v rest, s.pending = .memRead a :: rest → s.addressFault a = none → s.params.hasSideEffect a = false →
          ¬ s.outputRegion.Has a → s.isUnsynced a = false → s.mem.read a = some v →
          step s = .next ((s.withPending rest).withMemData v))

/-- R79(b): after a completed command, a host read of an output byte is answered with the command's byte once the host has
read `STATUS` as `DONE`, whatever earlier output was held back; before that the model faults. Whatever is held back, the
read of `DONE` that follows the last completion promises the bytes of its range and no other, and a second one promises
nothing more. The faults, for what R79 does not promise, are the model's choice (log 11). -/
def Obligations.OutputSeenAfterDone : Prop :=
  (∀ (k : Kernel) (s t : State), s.Runs k → s.params.visibleBusy = false → exec k.toInstr s = .next t →
    ∃ u, exec (.regRd 0x50) t = .next u ∧ u.busData = 2
      ∧ ∀ r i, r < s.rows → i < 4 →
          hostMemRead (s.yBase + 4 * r + i) u = .next (u.withMemData ((s.rowValue k r).extractLsb' (8 * i) 8))
            ∧ hostMemRead (s.yBase + 4 * r + i) t = .fault (.unsyncedOutput (s.yBase + 4 * r + i)))
  ∧ ∀ (s : State) (r : Region), s.status = .done → s.unsynced.latest = some r →
      ∃ u, exec (.regRd 0x50) s = .next u ∧ exec (.regRd 0x50) u = .next u
        ∧ (∀ a, r.Has a → u.isUnsynced a = false)
        ∧ (∀ a, ¬ r.Has a → u.isUnsynced a = s.isUnsynced a)

/-! ## Reset -/

/-- R250: a platform reset gives every register its reset value and leaves `ERROR`; the state right after reset has the
same values. -/
def Obligations.ResetValues : Prop :=
  (∀ (s : State) (rest : List HostEvent), s.pending = .reset :: rest →
    ∃ t, step s = .next t ∧ t.status = .idle ∧ t.pending = rest ∧ t.params = s.params
      ∧ t.readReg .cap = (if s.params.hasDotprod then 1 else 0) ∧ t.readReg .cmd = 2 ∧ t.readReg .n = 1024
      ∧ t.readReg .k = 1024 ∧ t.readReg .kpad = 1024 ∧ t.readReg .prefetch = 2 ∧ t.readReg .wBase = 0
      ∧ t.readReg .xBase = 0 ∧ t.readReg .yBase = 0 ∧ t.readReg .status = 0 ∧ t.readReg .ctrl = 0)
    ∧ State.reset.status = .idle ∧ State.reset.regs = ⟨2, 1024, 1024, 2, 0, 0, 0⟩

/-- R251 and R252, whole: no register write resets the block; after a reset it is in the reset state of R250; if a command
was running, the bytes of its output range have no value, so that a host read of one is not answered and a command that
would read one is not `Prepared`; every other byte is kept. -/
def Obligations.ResetAndTheDataSpace : Prop :=
  (∀ (s t : State) (o : BitVec 8) (d : Word64), exec (.regWr o d) s = .next t → t.status = .idle → s.status = .idle)
  ∧ ∀ (s t : State) (rest : List HostEvent), s.pending = .reset :: rest → step s = .next t →
    t.status = .idle ∧ t.regs = ⟨2, 1024, 1024, 2, 0, 0, 0⟩
      ∧ (s.status.isBusy = true → ∀ a, s.outputRegion.Has a →
          t.mem.read a = none ∧ ¬ t.Readable a ∧ ∀ u, hostMemRead a t ≠ .next u)
      ∧ (∀ a, ¬ (s.status.isBusy = true ∧ s.outputRegion.Has a) → t.mem.read a = s.mem.read a)

/-! ## Invariants -/

/-- The machine's invariant holds after reset, for every legal value of the parameters. -/
def Obligations.ResetMeetsInvariant : Prop :=
  State.reset.Inv ∧ ∀ p : Params, p.legal → (State.resetWith p).Inv

/-- Every step keeps the machine's invariant: memory in canonical form and inside the data space, and a running command
an accepted one whose indices are in range (R60, R134 to R137, R133). -/
def Obligations.StepKeepsInvariant : Prop :=
  ∀ s t : State, s.Inv → step s = .next t → t.Inv

/-- Every step keeps the invariant of a running command: its accumulators hold the sums of what it has read, and the rows
it has passed hold their row values (R30, R141 to R144), whatever the host does meanwhile (R35, R86). -/
def Obligations.StepKeepsProgress : Prop :=
  ∀ s t : State, s.Inv → s.ProgressInv → step s = .next t → t.ProgressInv

/-- The step that takes a running command to `DONE` leaves every output row at its row value (R144). -/
def Obligations.LastOperationWritesEveryRow : Prop :=
  ∀ (s t : State) (e : Engine), s.Inv → s.ProgressInv → s.status = .busy e → step s = .next t → t.status = .done →
    ∀ r, r < s.rows → t.OutputIs r (s.rowValue e.kernel r)
end

