-- ==== Sys2Proof/Laws/Arith.lean ====
section
/-! SUPPORT. Arithmetic: `KPAD` (R27), accumulation modulo 2^32 (R141 to R144), the layout addresses (R64 to R66). -/

namespace Sys2Proof.Machine

/-! ### `KPAD` -/

theorem kpadOf_toNat (k : Word64) : (kpadOf k).toNat = (k.toNat + 15) % 2 ^ 64 / 16 * 16 := by
  have h : kpadOf k = ((k + 15#64) >>> 4) <<< 4 := by
    unfold kpadOf
    ext i hi
    simp only [BitVec.getElem_and, BitVec.getElem_not, BitVec.getElem_shiftLeft, BitVec.getElem_ushiftRight]
    have h15 : ∀ j, j < 64 → (15#64).getLsbD j = decide (j < 4) := by decide
    by_cases h4 : i < 4
    · have := h15 i hi
      simp_all [BitVec.getLsbD_eq_getElem]
    · have := h15 i hi
      have e : 4 + (i - 4) = i := by omega
      simp_all [BitVec.getLsbD_eq_getElem, Bool.and_comm]
  rw [h]
  simp only [BitVec.toNat_shiftLeft, BitVec.toNat_ushiftRight, BitVec.toNat_add, BitVec.toNat_ofNat,
    Nat.shiftLeft_eq, Nat.shiftRight_eq_div_pow]
  omega

/-- `KPAD mod 16 = 0`, for every value of `K` (R27). -/
theorem kpadOf_mod16 (k : Word64) : (kpadOf k).toNat % 16 = 0 := by rw [kpadOf_toNat]; omega

/-- For a legal `K`, `KPAD = ceil16(K)` (R27). -/
theorem kpadOf_legal (k : Word64) (h : k.toNat ≤ Config.maxDim) : (kpadOf k).toNat = ceil16 k.toNat := by
  rw [kpadOf_toNat, ceil16]; unfold Config.maxDim at h; omega

theorem State.padded_eq (s : State) : s.padded = 16 * s.chunks := by
  have := kpadOf_mod16 s.regs.k
  unfold State.chunks State.padded State.kpad
  omega

/-! ### Accumulation modulo 2^32 -/

theorem accumulate_eq_add (a : Word32) (v : Int) : accumulate a v = a + BitVec.ofInt 32 v := by
  unfold accumulate
  apply BitVec.eq_of_toInt_eq
  simp

/-- Adding exact values one after the other is adding their sum (R141, R144). -/
theorem accumulate_ofInt (v w : Int) : accumulate (BitVec.ofInt 32 v) w = BitVec.ofInt 32 (v + w) := by
  rw [accumulate_eq_add, BitVec.ofInt_add]

/-- `hsum` is the sum of the lanes modulo 2^32 (R143). -/
theorem hsum_eq_add (a : Lanes) : hsum a = a.l0 + a.l1 + a.l2 + a.l3 := by
  unfold hsum
  apply BitVec.eq_of_toInt_eq
  simp

@[simp] theorem hsum_zero : hsum Lanes.zero = 0 := by decide

/-- One chunk adds the exact sum of its 16 products to the lane sum (R142 to R144). -/
theorem hsum_dot16 (a : Lanes) (wv xv : List Byte) :
    hsum (dot16 a wv xv) = accumulate (hsum a) (sumUpTo (fun t => prod (lane wv t) (lane xv t)) 16) := by
  have h : sumUpTo (fun t => prod (lane wv t) (lane xv t)) 16
      = laneProducts wv xv 0 + laneProducts wv xv 1 + laneProducts wv xv 2 + laneProducts wv xv 3 := by
    simp only [sumUpTo, laneProducts]; ring
  rw [h]
  simp only [hsum_eq_add, dot16, accumulate_eq_add, BitVec.ofInt_add]
  ac_rfl

theorem sumUpTo_congr {f g : Nat → Int} {n : Nat} (h : ∀ i, i < n → f i = g i) : sumUpTo f n = sumUpTo g n := by
  induction n with
  | zero => rfl
  | succ n ih => simp only [sumUpTo]; rw [ih fun i hi => h i (by omega), h n (by omega)]

/-- A sum of `n + m` terms is the sum of the first `n` and of the `m` after them. -/
theorem sumUpTo_add (f : Nat → Int) (n m : Nat) :
    sumUpTo f (n + m) = sumUpTo f n + sumUpTo (fun t => f (n + t)) m := by
  induction m with
  | zero => simp [sumUpTo]
  | succ m ih => rw [← Nat.add_assoc]; simp only [sumUpTo]; rw [ih]; ring

/-! ### The accumulators by index -/

theorem Accs.get_set_same (a : Accs) {i : Nat} (hi : i < 4) (v : Lanes) : (a.set i v).get i = v := by
  match i, hi with
  | 0, _ => rfl
  | 1, _ => rfl
  | 2, _ => rfl
  | 3, _ => rfl

theorem Accs.get_set_other (a : Accs) {i j : Nat} (hi : i < 4) (hj : j < 4) (h : j ≠ i) (v : Lanes) :
    (a.set i v).get j = a.get j := by
  match i, hi, j, hj with
  | 0, _, 0, _ => exact absurd rfl h
  | 0, _, 1, _ => rfl
  | 0, _, 2, _ => rfl
  | 0, _, 3, _ => rfl
  | 1, _, 0, _ => rfl
  | 1, _, 1, _ => exact absurd rfl h
  | 1, _, 2, _ => rfl
  | 1, _, 3, _ => rfl
  | 2, _, 0, _ => rfl
  | 2, _, 1, _ => rfl
  | 2, _, 2, _ => exact absurd rfl h
  | 2, _, 3, _ => rfl
  | 3, _, 0, _ => rfl
  | 3, _, 1, _ => rfl
  | 3, _, 2, _ => rfl
  | 3, _, 3, _ => exact absurd rfl h

@[simp] theorem Accs.get_zero (i : Nat) : Accs.zero.get i = Lanes.zero := by
  unfold Accs.get Accs.zero; split <;> rfl

/-! ### The layouts -/

/-- The Four-Row-Blocked offset is the Row-Padded one (R65). -/
theorem b4Offset_eq_rpOffset (kpad r j : Nat) : b4Offset kpad r j = rpOffset kpad r j := by
  unfold b4Offset rpOffset
  have : r / 4 * 4 * kpad + r % 4 * kpad = r * kpad := by rw [← Nat.add_mul]; congr 1; omega
  omega

/-- The interleaved offset of lane `t` of chunk `c` of row `i` of block `b`: the weight load address of R185. -/
theorem i4Offset_chunk (kpad b c : Nat) {i t : Nat} (hi : i < 4) (ht : t < 16) :
    i4Offset kpad (4 * b + i) (16 * c + t) = b * 4 * kpad + 64 * c + 16 * i + t := by
  unfold i4Offset
  have h1 : (4 * b + i) / 4 = b := by omega
  rw [h1]; omega

/-- Every offset of a layout lies inside the buffer (R64 to R66). -/
theorem layoutOffset_lt (k : Kernel) {kpad rows r j : Nat} (h16 : kpad % 16 = 0) (hr : r < rows) (hj : j < kpad)
    (h4 : k = .fourRowInterleaved → rows % 4 = 0) : layoutOffset k kpad r j < rows * kpad := by
  have key : rpOffset kpad r j < rows * kpad := by
    unfold rpOffset
    calc r * kpad + j < r * kpad + kpad := by omega
      _ = (r + 1) * kpad := by ring
      _ ≤ rows * kpad := Nat.mul_le_mul_right _ hr
  cases k with
  | scalar => exact key
  | singleRow => exact key
  | fourRowBlocked => show b4Offset kpad r j < _; rw [b4Offset_eq_rpOffset]; exact key
  | fourRowInterleaved =>
    have h4' := h4 rfl
    show i4Offset kpad r j < _
    unfold i4Offset
    have h1 : j / 16 * 64 + r % 4 * 16 + j % 16 < 4 * kpad := by omega
    have h2 : r / 4 + 1 ≤ rows / 4 := by omega
    have h3 : rows = 4 * (rows / 4) := by omega
    calc r / 4 * 4 * kpad + j / 16 * 64 + r % 4 * 16 + j % 16 < r / 4 * 4 * kpad + 4 * kpad := by omega
      _ = 4 * ((r / 4 + 1) * kpad) := by ring
      _ ≤ 4 * (rows / 4 * kpad) := by gcongr
      _ = rows * kpad := by rw [← Nat.mul_assoc, ← h3]

theorem ceil4_mod4 (v : Nat) : ceil4 v % 4 = 0 := by unfold ceil4; omega

theorem State.blocks_mul (s : State) : 4 * s.blocks = ceil4 s.rows := by unfold State.blocks ceil4; omega

end Sys2Proof.Machine
end

