-- ==== Sys2Proof/Laws/State.lean ====
section
/-! SUPPORT. One lemma per field per update of the state, and what depends on the parameters and registers alone. -/

namespace Sys2Proof.Machine

/-! ### `withRegs` -/

@[simp] theorem State.withRegs_params (s : State) (v : Regs) : (s.withRegs v).params = s.params := rfl
@[simp] theorem State.withRegs_regs (s : State) (v : Regs) : (s.withRegs v).regs = v := rfl
@[simp] theorem State.withRegs_status (s : State) (v : Regs) : (s.withRegs v).status = s.status := rfl
@[simp] theorem State.withRegs_mem (s : State) (v : Regs) : (s.withRegs v).mem = s.mem := rfl
@[simp] theorem State.withRegs_busData (s : State) (v : Regs) : (s.withRegs v).busData = s.busData := rfl
@[simp] theorem State.withRegs_memData (s : State) (v : Regs) : (s.withRegs v).memData = s.memData := rfl
@[simp] theorem State.withRegs_unsynced (s : State) (v : Regs) : (s.withRegs v).unsynced = s.unsynced := rfl
@[simp] theorem State.withRegs_pending (s : State) (v : Regs) : (s.withRegs v).pending = s.pending := rfl

/-! ### `withStatus` -/

@[simp] theorem State.withStatus_params (s : State) (v : Status) : (s.withStatus v).params = s.params := rfl
@[simp] theorem State.withStatus_regs (s : State) (v : Status) : (s.withStatus v).regs = s.regs := rfl
@[simp] theorem State.withStatus_status (s : State) (v : Status) : (s.withStatus v).status = v := rfl
@[simp] theorem State.withStatus_mem (s : State) (v : Status) : (s.withStatus v).mem = s.mem := rfl
@[simp] theorem State.withStatus_busData (s : State) (v : Status) : (s.withStatus v).busData = s.busData := rfl
@[simp] theorem State.withStatus_memData (s : State) (v : Status) : (s.withStatus v).memData = s.memData := rfl
@[simp] theorem State.withStatus_unsynced (s : State) (v : Status) : (s.withStatus v).unsynced = s.unsynced := rfl
@[simp] theorem State.withStatus_pending (s : State) (v : Status) : (s.withStatus v).pending = s.pending := rfl

/-! ### `withMem` -/

@[simp] theorem State.withMem_params (s : State) (v : Memory) : (s.withMem v).params = s.params := rfl
@[simp] theorem State.withMem_regs (s : State) (v : Memory) : (s.withMem v).regs = s.regs := rfl
@[simp] theorem State.withMem_status (s : State) (v : Memory) : (s.withMem v).status = s.status := rfl
@[simp] theorem State.withMem_mem (s : State) (v : Memory) : (s.withMem v).mem = v := rfl
@[simp] theorem State.withMem_busData (s : State) (v : Memory) : (s.withMem v).busData = s.busData := rfl
@[simp] theorem State.withMem_memData (s : State) (v : Memory) : (s.withMem v).memData = s.memData := rfl
@[simp] theorem State.withMem_unsynced (s : State) (v : Memory) : (s.withMem v).unsynced = s.unsynced := rfl
@[simp] theorem State.withMem_pending (s : State) (v : Memory) : (s.withMem v).pending = s.pending := rfl

/-! ### `withBusData` -/

@[simp] theorem State.withBusData_params (s : State) (v : Word64) : (s.withBusData v).params = s.params := rfl
@[simp] theorem State.withBusData_regs (s : State) (v : Word64) : (s.withBusData v).regs = s.regs := rfl
@[simp] theorem State.withBusData_status (s : State) (v : Word64) : (s.withBusData v).status = s.status := rfl
@[simp] theorem State.withBusData_mem (s : State) (v : Word64) : (s.withBusData v).mem = s.mem := rfl
@[simp] theorem State.withBusData_busData (s : State) (v : Word64) : (s.withBusData v).busData = v := rfl
@[simp] theorem State.withBusData_memData (s : State) (v : Word64) : (s.withBusData v).memData = s.memData := rfl
@[simp] theorem State.withBusData_unsynced (s : State) (v : Word64) : (s.withBusData v).unsynced = s.unsynced := rfl
@[simp] theorem State.withBusData_pending (s : State) (v : Word64) : (s.withBusData v).pending = s.pending := rfl

/-! ### `withMemData` -/

@[simp] theorem State.withMemData_params (s : State) (v : Byte) : (s.withMemData v).params = s.params := rfl
@[simp] theorem State.withMemData_regs (s : State) (v : Byte) : (s.withMemData v).regs = s.regs := rfl
@[simp] theorem State.withMemData_status (s : State) (v : Byte) : (s.withMemData v).status = s.status := rfl
@[simp] theorem State.withMemData_mem (s : State) (v : Byte) : (s.withMemData v).mem = s.mem := rfl
@[simp] theorem State.withMemData_busData (s : State) (v : Byte) : (s.withMemData v).busData = s.busData := rfl
@[simp] theorem State.withMemData_memData (s : State) (v : Byte) : (s.withMemData v).memData = v := rfl
@[simp] theorem State.withMemData_unsynced (s : State) (v : Byte) : (s.withMemData v).unsynced = s.unsynced := rfl
@[simp] theorem State.withMemData_pending (s : State) (v : Byte) : (s.withMemData v).pending = s.pending := rfl

/-! ### `withUnsynced` -/

@[simp] theorem State.withUnsynced_params (s : State) (v : Unsynced) : (s.withUnsynced v).params = s.params := rfl
@[simp] theorem State.withUnsynced_regs (s : State) (v : Unsynced) : (s.withUnsynced v).regs = s.regs := rfl
@[simp] theorem State.withUnsynced_status (s : State) (v : Unsynced) : (s.withUnsynced v).status = s.status := rfl
@[simp] theorem State.withUnsynced_mem (s : State) (v : Unsynced) : (s.withUnsynced v).mem = s.mem := rfl
@[simp] theorem State.withUnsynced_busData (s : State) (v : Unsynced) : (s.withUnsynced v).busData = s.busData := rfl
@[simp] theorem State.withUnsynced_memData (s : State) (v : Unsynced) : (s.withUnsynced v).memData = s.memData := rfl
@[simp] theorem State.withUnsynced_unsynced (s : State) (v : Unsynced) : (s.withUnsynced v).unsynced = v := rfl
@[simp] theorem State.withUnsynced_pending (s : State) (v : Unsynced) : (s.withUnsynced v).pending = s.pending := rfl

/-! ### `withPending` -/

@[simp] theorem State.withPending_params (s : State) (v : List HostEvent) : (s.withPending v).params = s.params := rfl
@[simp] theorem State.withPending_regs (s : State) (v : List HostEvent) : (s.withPending v).regs = s.regs := rfl
@[simp] theorem State.withPending_status (s : State) (v : List HostEvent) : (s.withPending v).status = s.status := rfl
@[simp] theorem State.withPending_mem (s : State) (v : List HostEvent) : (s.withPending v).mem = s.mem := rfl
@[simp] theorem State.withPending_busData (s : State) (v : List HostEvent) : (s.withPending v).busData = s.busData := rfl
@[simp] theorem State.withPending_memData (s : State) (v : List HostEvent) : (s.withPending v).memData = s.memData := rfl
@[simp] theorem State.withPending_unsynced (s : State) (v : List HostEvent) : (s.withPending v).unsynced = s.unsynced := rfl
@[simp] theorem State.withPending_pending (s : State) (v : List HostEvent) : (s.withPending v).pending = v := rfl

/-! ### States with the same parameters and registers

Everything a command's operands and checks are computed from (R102, R133). -/

/-- `t` has the parameters and the registers of `s`. -/
def SameSetup (t s : State) : Prop := t.params = s.params ∧ t.regs = s.regs

theorem SameSetup.refl (s : State) : SameSetup s s := ⟨rfl, rfl⟩

theorem SameSetup.trans {a b c : State} (h : SameSetup a b) (g : SameSetup b c) : SameSetup a c :=
  ⟨h.1.trans g.1, h.2.trans g.2⟩

theorem SameSetup.symm {a b : State} (h : SameSetup a b) : SameSetup b a := ⟨h.1.symm, h.2.symm⟩

@[simp] theorem SameSetup.of_withStatus (s : State) (v : Status) : SameSetup (s.withStatus v) s := ⟨rfl, rfl⟩
@[simp] theorem SameSetup.of_withMem (s : State) (v : Memory) : SameSetup (s.withMem v) s := ⟨rfl, rfl⟩
@[simp] theorem SameSetup.of_withBusData (s : State) (v : Word64) : SameSetup (s.withBusData v) s := ⟨rfl, rfl⟩
@[simp] theorem SameSetup.of_withMemData (s : State) (v : Byte) : SameSetup (s.withMemData v) s := ⟨rfl, rfl⟩
@[simp] theorem SameSetup.of_withUnsynced (s : State) (v : Unsynced) : SameSetup (s.withUnsynced v) s := ⟨rfl, rfl⟩
@[simp] theorem SameSetup.of_withPending (s : State) (v : List HostEvent) : SameSetup (s.withPending v) s := ⟨rfl, rfl⟩

/-- What is computed from the parameters and the registers is the same in both states. -/
theorem SameSetup.view {α : Sort _} {t s : State} (h : SameSetup t s) (f : Params → Regs → α) :
    f t.params t.regs = f s.params s.regs := by rw [h.1, h.2]

/-- A state with other fields than the parameters and the registers left blank. -/
def State.setup (p : Params) (r : Regs) : State := ⟨p, r, .idle, [], 0, 0, ⟨none, []⟩, []⟩

theorem SameSetup.rows {t s : State} (h : SameSetup t s) : t.rows = s.rows :=
  h.view fun p r => (State.setup p r).rows

theorem SameSetup.padded {t s : State} (h : SameSetup t s) : t.padded = s.padded :=
  h.view fun p r => (State.setup p r).padded

theorem SameSetup.chunks {t s : State} (h : SameSetup t s) : t.chunks = s.chunks :=
  h.view fun p r => (State.setup p r).chunks

theorem SameSetup.blocks {t s : State} (h : SameSetup t s) : t.blocks = s.blocks :=
  h.view fun p r => (State.setup p r).blocks

theorem SameSetup.wBase {t s : State} (h : SameSetup t s) : t.wBase = s.wBase :=
  h.view fun p r => (State.setup p r).wBase

theorem SameSetup.xBase {t s : State} (h : SameSetup t s) : t.xBase = s.xBase :=
  h.view fun p r => (State.setup p r).xBase

theorem SameSetup.yBase {t s : State} (h : SameSetup t s) : t.yBase = s.yBase :=
  h.view fun p r => (State.setup p r).yBase

theorem SameSetup.outer {t s : State} (h : SameSetup t s) (k : Kernel) : t.outer k = s.outer k :=
  h.view fun p r => (State.setup p r).outer k

theorem SameSetup.inner {t s : State} (h : SameSetup t s) (k : Kernel) : t.inner k = s.inner k :=
  h.view fun p r => (State.setup p r).inner k

theorem SameSetup.weightRows {t s : State} (h : SameSetup t s) (k : Kernel) : t.weightRows k = s.weightRows k :=
  h.view fun p r => (State.setup p r).weightRows k

theorem SameSetup.weightRegion {t s : State} (h : SameSetup t s) (k : Kernel) : t.weightRegion k = s.weightRegion k :=
  h.view fun p r => (State.setup p r).weightRegion k

theorem SameSetup.inputRegion {t s : State} (h : SameSetup t s) : t.inputRegion = s.inputRegion :=
  h.view fun p r => (State.setup p r).inputRegion

theorem SameSetup.outputRegion {t s : State} (h : SameSetup t s) : t.outputRegion = s.outputRegion :=
  h.view fun p r => (State.setup p r).outputRegion

theorem SameSetup.acceptError {t s : State} (h : SameSetup t s) (k : Kernel) : t.acceptError k = s.acceptError k :=
  h.view fun p r => (State.setup p r).acceptError k

theorem SameSetup.addressFault {t s : State} (h : SameSetup t s) (a : Nat) : t.addressFault a = s.addressFault a :=
  h.view fun p r => (State.setup p r).addressFault a

theorem SameSetup.overSideEffects {t s : State} (h : SameSetup t s) (k : Kernel) : t.overSideEffects k = s.overSideEffects k :=
  h.view fun p r => (State.setup p r).overSideEffects k

theorem SameSetup.unsafeK {t s : State} (h : SameSetup t s) : t.unsafeK = s.unsafeK :=
  h.view fun p r => (State.setup p r).unsafeK

end Sys2Proof.Machine
end

