-- ==== Sys2Proof/Laws/Memory.lean ====
section
/-! SUPPORT. The data space: read after write, frames, and the canonical form kept by every operation. -/

namespace Sys2Proof.Machine

@[simp] theorem Memory.read_nil (a : Nat) : Memory.read [] a = none := rfl

theorem Memory.read_cons (b : Nat) (v : Byte) (m : Memory) (a : Nat) :
    Memory.read ((b, v) :: m) a = if a = b then some v else Memory.read m a := rfl

/-- A read of the byte just written. -/
@[simp] theorem Memory.read_write_same (m : Memory) (a : Nat) (v : Byte) : (m.write a v).read a = some v := by
  induction m with
  | nil => simp [Memory.write, Memory.read]
  | cons c m ih =>
    obtain ⟨b, w⟩ := c
    simp only [Memory.write]
    split
    · simp [Memory.read]
    · split
      · simp [Memory.read]
      · next h => simp [Memory.read, h, ih]

/-- A write leaves every other byte alone. -/
theorem Memory.read_write_other (m : Memory) {a a' : Nat} (v : Byte) (h : a' ≠ a) :
    (m.write a v).read a' = m.read a' := by
  induction m with
  | nil => simp [Memory.write, Memory.read, h]
  | cons c m ih =>
    obtain ⟨b, w⟩ := c
    simp only [Memory.write]
    split
    · simp [Memory.read, h]
    · split
      · next h1 h2 => subst h2; simp [Memory.read, h]
      · simp [Memory.read, ih]

/-- What a read answers after a write. -/
theorem Memory.read_write (m : Memory) (a a' : Nat) (v : Byte) :
    (m.write a v).read a' = if a' = a then some v else m.read a' := by
  split
  · next h => subst h; simp
  · next h => exact m.read_write_other v h

/-- What a read answers after the bytes of some ranges lost their value. -/
theorem Memory.read_erase (m : Memory) (rs : List Region) (a : Nat) :
    (m.erase rs).read a = if rs.any (fun r => r.contains a) then none else m.read a := by
  induction m with
  | nil => simp [Memory.erase, Memory.read]
  | cons c m ih =>
    obtain ⟨b, w⟩ := c
    have ih' : Memory.read (List.filter (fun c => !rs.any (fun r => r.contains c.1)) m) a
        = if rs.any (fun r => r.contains a) then none else Memory.read m a := ih
    by_cases hb : rs.any (fun r => r.contains b)
    · simp only [Memory.erase, List.filter_cons, hb, Bool.not_true, Bool.false_eq_true, if_false, ih', Memory.read]
      by_cases hab : a = b
      · subst hab; simp [hb]
      · simp [hab]
    · simp only [Memory.erase, List.filter_cons, hb, Bool.not_false, if_true, Memory.read, ih']
      by_cases hab : a = b
      · subst hab; simp [hb]
      · simp [hab]

/-- The cells of a memory with one byte written. -/
theorem Memory.mem_write {m : Memory} {a : Nat} {v : Byte} {c : Host.Cell} (h : c ∈ m.write a v) :
    c = (a, v) ∨ c ∈ m := by
  induction m with
  | nil => simpa [Memory.write] using h
  | cons d m ih =>
    obtain ⟨b, w⟩ := d
    simp only [Memory.write] at h
    split at h
    · simpa using h
    · split at h
      · rcases List.mem_cons.mp h with h | h
        · exact .inl h
        · exact .inr (List.mem_cons_of_mem _ h)
      · rcases List.mem_cons.mp h with h | h
        · exact .inr (h ▸ List.mem_cons_self)
        · exact (ih h).imp id (List.mem_cons_of_mem _)

/-- A write keeps the canonical form. -/
theorem Memory.wf_write {m : Memory} (hm : m.wf) (a : Nat) (v : Byte) : (m.write a v).wf := by
  induction m with
  | nil => simp [Memory.write]
  | cons d m ih =>
    obtain ⟨b, w⟩ := d
    have hp := List.pairwise_cons.mp hm
    simp only [Memory.write]
    split
    · next h =>
      refine List.pairwise_cons.mpr ⟨fun c hc => ?_, hm⟩
      rcases List.mem_cons.mp hc with hc | hc
      · subst hc; exact h
      · exact lt_trans h (hp.1 c hc)
    · split
      · next h => subst h; exact List.pairwise_cons.mpr ⟨hp.1, hp.2⟩
      · next h1 h2 =>
        refine List.pairwise_cons.mpr ⟨fun c hc => ?_, ih hp.2⟩
        rcases Memory.mem_write hc with hc | hc
        · subst hc; show b < a; omega
        · exact hp.1 c hc

/-- Taking bytes away keeps the canonical form. -/
theorem Memory.wf_erase {m : Memory} (hm : m.wf) (rs : List Region) : (m.erase rs).wf := List.Pairwise.filter _ hm

/-- A write inside the data space keeps every cell inside it. -/
theorem Memory.inSpace_write {m : Memory} {bits : Nat} (hm : m.inSpace bits) {a : Nat} (ha : a < 2 ^ bits) (v : Byte) :
    (m.write a v).inSpace bits := fun c hc => by
  rcases Memory.mem_write hc with h | h
  · subst h; exact ha
  · exact hm c h

theorem Memory.inSpace_erase {m : Memory} {bits : Nat} (hm : m.inSpace bits) (rs : List Region) :
    (m.erase rs).inSpace bits := fun c hc => hm c (List.mem_of_mem_filter hc)

/-- The memory of the reset state is canonical. -/
theorem reset_mem_wf : State.reset.mem.wf := List.Pairwise.nil

@[simp] theorem Region.contains_iff (r : Region) (a : Nat) : r.contains a = true ↔ r.Has a := by
  simp [Region.contains, Region.Has]

@[simp] theorem Region.contains_eq_false (r : Region) (a : Nat) : r.contains a = false ↔ ¬ r.Has a := by
  rw [← Region.contains_iff, Bool.not_eq_true]

end Sys2Proof.Machine
end

