-- ==== Sys2Proof/Laws/Ops.lean ====
section
/-! SUPPORT. What each shared operation can do: memory accesses, register accesses, the refusal, reset. -/

namespace Sys2Proof.Machine

/-! ### Reads -/

/-- A read of one byte answers a byte exactly where one is. -/
theorem readByte_ok {s : State} {a : Nat} {b : Byte} :
    s.readByte a = .ok b ↔ s.addressFault a = none ∧ s.mem.read a = some b := by
  unfold State.readByte
  cases s.addressFault a with
  | some f => simp
  | none => cases s.mem.read a <;> simp

/-- `MemRead` answers `n` bytes, byte `i` the one at `a + i` (R16). -/
theorem readBytes_ok {s : State} {n : Nat} : ∀ {a : Nat} {bs : List Byte}, s.readBytes a n = .ok bs →
    bs.length = n ∧ ∀ i, i < n → s.mem.read (a + i) = some (bs.getD i 0) := by
  induction n with
  | zero => intro a bs h; cases h; exact ⟨rfl, fun i hi => absurd hi (by omega)⟩
  | succ n ih =>
    intro a bs h
    simp only [State.readBytes] at h
    split at h
    · cases h
    · next b hb =>
      split at h
      · cases h
      · next bs' hbs =>
        cases h
        obtain ⟨hl, hr⟩ := ih hbs
        refine ⟨by simp [hl], fun i hi => ?_⟩
        cases i with
        | zero => simpa using (readByte_ok.mp hb).2
        | succ i =>
          have := hr i (by omega)
          rw [show a + (i + 1) = a + 1 + i by omega, this]; simp

/-- `MemRead` answers where every byte is readable. -/
theorem readBytes_of_readable {s : State} {n : Nat} : ∀ {a : Nat},
    (∀ i, i < n → s.addressFault (a + i) = none ∧ s.mem.read (a + i) ≠ none) →
    ∃ bs, s.readBytes a n = .ok bs := by
  induction n with
  | zero => intro a _; exact ⟨[], rfl⟩
  | succ n ih =>
    intro a h
    obtain ⟨h0, h0'⟩ := h 0 (by omega)
    obtain ⟨b, hb⟩ := Option.ne_none_iff_exists'.mp h0'
    obtain ⟨bs, hbs⟩ := ih (a := a + 1) fun i hi => by
      have := h (i + 1) (by omega)
      rwa [show a + (i + 1) = a + 1 + i by omega] at this
    have hb' : s.readByte a = .ok b := readByte_ok.mpr ⟨h0, hb⟩
    exact ⟨b :: bs, by simp [State.readBytes, hb', hbs]⟩

/-- Lane `t` of a loaded chunk is the byte at `addr + t` (R72). -/
theorem load16_lane {s : State} {a : Nat} {bs : List Byte} (h : s.load16 a = .ok bs) {t : Nat} (ht : t < 16) :
    lane bs t = s.byteAt (a + t) := by
  have := (readBytes_ok h).2 t ht
  simp [lane, State.byteAt, this]

/-! ### Writes -/

/-- What `MemWrite` leaves: nothing but memory changes; byte `i` is at `a + i`, every other byte is as before; the
canonical form and the data space are kept (R16). -/
theorem writeBytes_ok {bs : List Byte} : ∀ {s t : State} {a : Nat}, s.writeBytes a bs = .ok t →
    ∃ m, t = s.withMem m
      ∧ (∀ i, i < bs.length → m.read (a + i) = some (bs.getD i 0))
      ∧ (∀ x, ¬ (a ≤ x ∧ x < a + bs.length) → m.read x = s.mem.read x)
      ∧ (s.mem.wf → m.wf) ∧ (s.mem.inSpace s.params.addrBits → m.inSpace s.params.addrBits) := by
  induction bs with
  | nil =>
    intro s t a h
    cases h
    exact ⟨s.mem, rfl, fun i hi => absurd hi (by simp), fun _ _ => rfl, id, id⟩
  | cons b bs ih =>
    intro s t a h
    simp only [State.writeBytes] at h
    split at h
    · cases h
    · next hf =>
      obtain ⟨m, rfl, hr, ho, hw, hs⟩ := ih h
      refine ⟨m, rfl, fun i hi => ?_, fun x hx => ?_, fun h => hw (Memory.wf_write h a b), fun h => hs ?_⟩
      · cases i with
        | zero =>
          have := ho a (by omega)
          simp only [State.withMem_mem, Memory.read_write_same] at this
          simpa using this
        | succ i =>
          have := hr i (by simpa using hi)
          rw [show a + (i + 1) = a + 1 + i by omega, this]; simp
      · simp only [List.length_cons] at hx
        rw [ho x (by omega)]
        exact Memory.read_write_other _ _ (by omega)
      · refine Memory.inSpace_write h ?_ b
        unfold State.addressFault at hf
        by_contra hc
        simp [show 2 ^ s.params.addrBits ≤ a by omega] at hf

/-- `MemWrite` answers where every byte is writable. -/
theorem writeBytes_of_writable {bs : List Byte} : ∀ {s : State} {a : Nat},
    (∀ i, i < bs.length → s.addressFault (a + i) = none) → ∃ t, s.writeBytes a bs = .ok t := by
  induction bs with
  | nil => intro s a _; exact ⟨s, rfl⟩
  | cons b bs ih =>
    intro s a h
    have h0 := h 0 (by simp)
    simp only [Nat.add_zero] at h0
    obtain ⟨t, ht⟩ := ih (s := s.withMem (s.mem.write a b)) (a := a + 1) fun i hi => by
      have := h (i + 1) (by simpa using hi)
      rwa [show a + (i + 1) = a + 1 + i by omega] at this
    exact ⟨t, by simp [State.writeBytes, h0, ht]⟩

@[simp] theorem wordBytes_length (w : Word32) : (wordBytes w).length = 4 := rfl

theorem wordBytes_getD (w : Word32) {i : Nat} (hi : i < 4) : (wordBytes w).getD i 0 = w.extractLsb' (8 * i) 8 := by
  match i, hi with
  | 0, _ => rfl
  | 1, _ => rfl
  | 2, _ => rfl
  | 3, _ => rfl

/-- What the write of one output element leaves: its four bytes, the least significant first, and every other byte as
before (R69, R72). -/
theorem emitRow_ok {s t : State} {k : Kernel} {r : Nat} {y : Word32} (h : s.emitRow k r y = .ok t) :
    ∃ m, t = s.withMem m
      ∧ (∀ i, i < 4 → m.read (s.yBase + 4 * r + i) = some (y.extractLsb' (8 * i) 8))
      ∧ (∀ x, ¬ (s.yBase + 4 * r ≤ x ∧ x < s.yBase + 4 * r + 4) → m.read x = s.mem.read x)
      ∧ (s.mem.wf → m.wf) ∧ (s.mem.inSpace s.params.addrBits → m.inSpace s.params.addrBits) := by
  unfold State.emitRow at h
  split at h
  · cases h
  · obtain ⟨m, ht, hr, ho, hw, hs⟩ := writeBytes_ok h
    refine ⟨m, ht, fun i hi => ?_, ho, hw, hs⟩
    rw [hr i (by simpa using hi), wordBytes_getD y hi]

/-- The write of one output element answers where its bytes are writable and `ACC_OVERFLOW` has no objection. -/
theorem emitRow_of_writable {s : State} {k : Kernel} {r : Nat} {y : Word32}
    (hw : ∀ i, i < 4 → s.addressFault (s.yBase + 4 * r + i) = none) (hf : s.rowFault k r = none) :
    ∃ t, s.emitRow k r y = .ok t := by
  unfold State.emitRow State.writeOutput
  rw [hf]
  exact writeBytes_of_writable fun i hi => hw i (by simpa using hi)

/-! ### The bytes a row is computed from -/

/-- The row sums depend on the registers and on the bytes of the weight and input buffers alone (R85). -/
theorem partialSum_congr {s t : State} (h : SameSetup t s) {k : Kernel} {r m : Nat}
    (hw : ∀ j, j < m → t.mem.read (s.wBase + layoutOffset k s.padded r j)
      = s.mem.read (s.wBase + layoutOffset k s.padded r j))
    (hx : ∀ j, j < m → t.mem.read (s.xBase + j) = s.mem.read (s.xBase + j)) :
    t.partialSum k r m = s.partialSum k r m := by
  unfold State.partialSum
  refine sumUpTo_congr fun j hj => ?_
  simp only [State.weightByte, State.inputByte, State.byteAt, h.wBase, h.xBase, h.padded, hw j hj, hx j hj]

/-! ### Registers -/

/-- What a register write does (R131, R35): nothing while `BUSY`, else the register is stored. -/
theorem writeReg_cases (s : State) (r : Reg) (d : Word64) :
    (s.status.isBusy = true ∧ s.writeReg r d = s)
      ∨ (s.status.isBusy = false ∧ s.writeReg r d = s.withRegs (s.regs.store d r)) := by
  unfold State.writeReg
  cases s.status.isBusy <;> simp

/-- What a register read does: the value goes to `busData`; only `unsynced` may change beside it (R130). -/
theorem busRead_eq (s : State) (r : Reg) :
    ∃ u, s.busRead r = (s.withUnsynced u).withBusData (s.readReg r) := by
  unfold State.busRead State.syncOnRead
  split
  · exact ⟨_, rfl⟩
  · exact ⟨s.unsynced, rfl⟩

@[simp] theorem busRead_params (s : State) (r : Reg) : (s.busRead r).params = s.params := by
  obtain ⟨u, h⟩ := busRead_eq s r; rw [h]; rfl
@[simp] theorem busRead_regs (s : State) (r : Reg) : (s.busRead r).regs = s.regs := by
  obtain ⟨u, h⟩ := busRead_eq s r; rw [h]; rfl
@[simp] theorem busRead_status (s : State) (r : Reg) : (s.busRead r).status = s.status := by
  obtain ⟨u, h⟩ := busRead_eq s r; rw [h]; rfl
@[simp] theorem busRead_mem (s : State) (r : Reg) : (s.busRead r).mem = s.mem := by
  obtain ⟨u, h⟩ := busRead_eq s r; rw [h]; rfl
@[simp] theorem busRead_busData (s : State) (r : Reg) : (s.busRead r).busData = s.readReg r := rfl
@[simp] theorem busRead_memData (s : State) (r : Reg) : (s.busRead r).memData = s.memData := by
  obtain ⟨u, h⟩ := busRead_eq s r; rw [h]; rfl
@[simp] theorem busRead_pending (s : State) (r : Reg) : (s.busRead r).pending = s.pending := by
  obtain ⟨u, h⟩ := busRead_eq s r; rw [h]; rfl

/-! ### The checks of `GO` -/

theorem legalDim_iff (v : Word64) : legalDim v = true ↔ 1 ≤ v.toNat ∧ v.toNat ≤ 2147483647 := by
  unfold legalDim; rw [Bool.and_eq_true, decide_eq_true_eq, decide_eq_true_eq]; exact Iff.rfl

/-- The argument check passes exactly on legal dimensions (R134). -/
theorem argBad_false_iff (s : State) : s.argBad = false
    ↔ (1 ≤ s.regs.n.toNat ∧ s.regs.n.toNat ≤ 2147483647) ∧ 1 ≤ s.regs.k.toNat ∧ s.regs.k.toNat ≤ 2147483647 := by
  rw [← legalDim_iff, ← legalDim_iff]; unfold State.argBad
  cases legalDim s.regs.n <;> cases legalDim s.regs.k <;> simp

theorem capBad_iff (s : State) (k : Kernel) : s.capBad k = true ↔ k ≠ .scalar ∧ s.params.hasDotprod = false := by
  unfold State.capBad; simp

theorem alignBad_iff (s : State) : s.alignBad = true
    ↔ s.regs.wBase.toNat % 64 ≠ 0 ∨ s.regs.xBase.toNat % 64 ≠ 0 ∨ s.regs.yBase.toNat % 64 ≠ 0 := by
  unfold State.alignBad
  rw [Bool.or_eq_true, Bool.or_eq_true, decide_eq_true_eq, decide_eq_true_eq, decide_eq_true_eq, or_assoc]
  exact Iff.rfl

/-- `range_bad` as the spec writes it (R137). -/
theorem rangeBad_iff (s : State) (k : Kernel) : s.rangeBad k = true
    ↔ 2 ^ s.params.addrBits < s.wBase + s.weightRows k * s.padded ∨ 2 ^ s.params.addrBits < s.xBase + s.padded
      ∨ 2 ^ s.params.addrBits < s.yBase + 4 * s.rows
      ∨ (s.yBase < s.wBase + s.weightRows k * s.padded ∧ s.wBase < s.yBase + 4 * s.rows)
      ∨ (s.yBase < s.xBase + s.padded ∧ s.xBase < s.yBase + 4 * s.rows) := by
  unfold State.rangeBad State.pastTop Region.overlaps
  simp only [Bool.or_eq_true, Bool.and_eq_true, decide_eq_true_eq, or_assoc]
  exact Iff.rfl

/-- The decode function on every value: a kernel's word, or illegal (R104). -/
theorem decodeCommand_cases (c : Word64) :
    (3 < c.toNat ∧ ∃ x, decodeCommand c = .error x) ∨ ∃ k : Kernel, c = k.code ∧ decodeCommand c = .ok k := by
  unfold decodeCommand
  by_cases h : reservedField c = 0
  · have h2 : c.toNat < 8 := by
      have := congrArg BitVec.toNat h
      simp [reservedField] at this
      omega
    have h3 : (kernelField c).toNat = c.toNat := by simp [kernelField]; omega
    rw [if_neg (by simpa using h), h3]
    have : c.toNat = 0 ∨ c.toNat = 1 ∨ c.toNat = 2 ∨ c.toNat = 3 ∨ c.toNat = 4 ∨ c.toNat = 5 ∨ c.toNat = 6
        ∨ c.toNat = 7 := by omega
    rcases this with e | e | e | e | e | e | e | e
    · exact .inr ⟨.scalar, BitVec.eq_of_toNat_eq e, by rw [e]; rfl⟩
    · exact .inr ⟨.singleRow, BitVec.eq_of_toNat_eq e, by rw [e]; rfl⟩
    · exact .inr ⟨.fourRowBlocked, BitVec.eq_of_toNat_eq e, by rw [e]; rfl⟩
    · exact .inr ⟨.fourRowInterleaved, BitVec.eq_of_toNat_eq e, by rw [e]; rfl⟩
    all_goals exact .inl ⟨by omega, .reservedKernel, by rw [e]; rfl⟩
  · refine .inl ⟨?_, .reservedBits, by rw [if_pos h]⟩
    by_contra hc
    exact h (BitVec.eq_of_toNat_eq (by simp [reservedField]; omega))

/-! ### The refusal and reset -/

@[simp] theorem refuse_status (s : State) (e : ErrorCode) : (s.refuse e).status = .error e := rfl
@[simp] theorem refuse_params (s : State) (e : ErrorCode) : (s.refuse e).params = s.params := rfl
@[simp] theorem refuse_regs (s : State) (e : ErrorCode) : (s.refuse e).regs = s.regs := rfl
@[simp] theorem refuse_mem (s : State) (e : ErrorCode) : (s.refuse e).mem = s.mem := rfl
@[simp] theorem refuse_busData (s : State) (e : ErrorCode) : (s.refuse e).busData = s.busData := rfl
@[simp] theorem refuse_memData (s : State) (e : ErrorCode) : (s.refuse e).memData = s.memData := rfl
@[simp] theorem refuse_unsynced (s : State) (e : ErrorCode) : (s.refuse e).unsynced = s.unsynced := rfl
@[simp] theorem refuse_pending (s : State) (e : ErrorCode) : (s.refuse e).pending = s.pending := rfl

@[simp] theorem platformReset_status (s : State) : s.platformReset.status = .idle := rfl
@[simp] theorem platformReset_regs (s : State) : s.platformReset.regs = Regs.reset := rfl
@[simp] theorem platformReset_params (s : State) : s.platformReset.params = s.params := rfl
@[simp] theorem platformReset_pending (s : State) : s.platformReset.pending = s.pending := rfl

/-- Which bytes a reset leaves: all of them, but the output bytes of an abandoned command (R251, R252) and those of
commands whose `DONE` the host has not read (log 12). -/
theorem platformReset_read (s : State) (a : Nat) :
    s.platformReset.mem.read a
      = if s.openAtReset.any (fun r => r.contains a) then none else s.mem.read a := Memory.read_erase _ _ _

/-- A reset keeps the canonical form. -/
theorem platformReset_wf {s : State} (h : s.mem.wf) : s.platformReset.mem.wf := Memory.wf_erase h _

theorem platformReset_inSpace {s : State} {b : Nat} (h : s.mem.inSpace b) : s.platformReset.mem.inSpace b :=
  Memory.inSpace_erase h _

end Sys2Proof.Machine
end

