-- ==== Sys2Proof/Laws/Engine.lean ====
section
/-! SUPPORT. The engine: what one operation does to the accumulators and to the output, and that an accepted command
reaches its end (R144, R147). -/

namespace Sys2Proof.Machine

/-! ### What the checks of `GO` establish -/

/-- An accepted command has legal dimensions and an output that overlaps neither the weights nor the input (R134,
R137). -/
theorem acceptError_none {s : State} {k : Kernel} (h : s.acceptError k = none) :
    1 ≤ s.rows ∧ s.rows ≤ Config.maxDim ∧ 1 ≤ s.regs.k.toNat ∧ s.regs.k.toNat ≤ Config.maxDim
      ∧ (∀ a, s.outputRegion.Has a → ¬ (s.weightRegion k).Has a)
      ∧ (∀ a, s.outputRegion.Has a → ¬ s.inputRegion.Has a) := by
  unfold State.acceptError at h
  split at h
  · cases h
  · next h1 =>
    split at h
    · cases h
    · split at h
      · cases h
      · split at h
        · cases h
        · next h4 =>
          simp only [State.argBad, legalDim, Bool.or_eq_true, Bool.not_eq_true', Bool.and_eq_false_iff,
            decide_eq_false_iff_not, not_or, not_not] at h1
          simp only [State.rangeBad, Region.overlaps, Bool.or_eq_true, Bool.and_eq_true, decide_eq_true_eq,
            not_or, not_and, not_lt] at h4
          refine ⟨h1.1.1, h1.1.2, h1.2.1, h1.2.2, fun a ha hb => ?_, fun a ha hb => ?_⟩
          · obtain ⟨ha1, ha2⟩ := ha; obtain ⟨hb1, hb2⟩ := hb
            have := h4.1.2 (by omega); omega
          · obtain ⟨ha1, ha2⟩ := ha; obtain ⟨hb1, hb2⟩ := hb
            have := h4.2 (by omega); omega

/-! ### The bytes of a row lie in the buffers -/

theorem layout_in_weights {s : State} {k : Kernel} {r j : Nat} (hr : r < s.weightRows k) (hj : j < s.padded) :
    (s.weightRegion k).Has (s.wBase + layoutOffset k s.padded r j) := by
  refine ⟨Nat.le_add_right _ _, Nat.add_lt_add_left (layoutOffset_lt k ?_ hr hj ?_) _⟩
  · exact kpadOf_mod16 _
  · intro h; subst h; exact ceil4_mod4 _

theorem input_in_region {s : State} {j : Nat} (hj : j < s.padded) : s.inputRegion.Has (s.xBase + j) :=
  ⟨Nat.le_add_right _ _, Nat.add_lt_add_left hj _⟩

/-- The rows a pass of the outer loop works on are rows of the weight buffer. -/
theorem row_lt_weightRows {s : State} {k : Kernel} {row i : Nat} (h : row < s.outer k) (hi : i < 4) :
    (k = .scalar → row < s.weightRows k) ∧ (k = .singleRow → row < s.weightRows k)
      ∧ (k = .fourRowBlocked → 4 * row + i < s.weightRows k)
      ∧ (k = .fourRowInterleaved → 4 * row + i < s.weightRows k) := by
  have hb := s.blocks_mul
  refine ⟨?_, ?_, ?_, ?_⟩ <;> rintro rfl <;> simp only [State.outer, State.weightRows, layoutRows] at h ⊢ <;> omega

theorem chunk_lt_padded {s : State} {c t : Nat} (h : c < s.chunks) (ht : t < 16) : 16 * c + t < s.padded := by
  have := s.padded_eq; omega

/-! ### One pass of the inner loop -/

/-- Sixteen more products (R142, R144). -/
theorem partialSum_chunk {s : State} {k : Kernel} {r c : Nat} {wv xv : List Byte}
    (hw : ∀ t, t < 16 → lane wv t = s.weightByte k r (16 * c + t))
    (hx : ∀ t, t < 16 → lane xv t = s.inputByte (16 * c + t)) :
    s.partialSum k r (16 * (c + 1))
      = s.partialSum k r (16 * c) + sumUpTo (fun t => prod (lane wv t) (lane xv t)) 16 := by
  unfold State.partialSum
  rw [show 16 * (c + 1) = 16 * c + 16 by ring, sumUpTo_add]
  congr 1
  exact sumUpTo_congr fun t ht => by rw [hw t ht, hx t ht]

/-- One chunk on an accumulator that holds a row's sum so far. -/
theorem hsum_dot16_holds {s : State} {k : Kernel} {r c : Nat} {a : Lanes} {wv xv : List Byte}
    (ha : hsum a = BitVec.ofInt 32 (s.partialSum k r (16 * c)))
    (hw : ∀ t, t < 16 → lane wv t = s.weightByte k r (16 * c + t))
    (hx : ∀ t, t < 16 → lane xv t = s.inputByte (16 * c + t)) :
    hsum (dot16 a wv xv) = BitVec.ofInt 32 (s.partialSum k r (16 * (c + 1))) := by
  rw [hsum_dot16, ha, accumulate_ofInt, partialSum_chunk hw hx]

theorem input_chunk {s : State} {c : Nat} {xv : List Byte} (h : s.load16 (s.xBase + 16 * c) = .ok xv) {t : Nat}
    (ht : t < 16) : lane xv t = s.inputByte (16 * c + t) := by
  rw [load16_lane h ht, State.inputByte, Nat.add_assoc]

theorem weight_chunk {s : State} {k : Kernel} {r c addr : Nat} {wv : List Byte} (h : s.load16 addr = .ok wv) {t : Nat}
    (ht : t < 16) (ha : addr + t = s.wBase + layoutOffset k s.padded r (16 * c + t)) :
    lane wv t = s.weightByte k r (16 * c + t) := by
  rw [load16_lane h ht, State.weightByte, ha]

theorem blockedAddr_layout (e : Engine) (s : State) (i t : Nat) :
    blockedAddr e s i + t = s.wBase + layoutOffset .fourRowBlocked s.padded (4 * e.row + i) (16 * e.col + t) := by
  show _ = s.wBase + b4Offset _ _ _
  rw [b4Offset_eq_rpOffset]; unfold blockedAddr rpOffset; omega

theorem interleavedAddr_layout (e : Engine) (s : State) {i t : Nat} (hi : i < 4) (ht : t < 16) :
    interleavedAddr e s i + t = s.wBase + layoutOffset .fourRowInterleaved s.padded (4 * e.row + i) (16 * e.col + t) := by
  show _ = s.wBase + i4Offset _ _ _
  rw [i4Offset_chunk _ _ _ hi ht]; unfold interleavedAddr; omega

/-- What the loop over the rows of a block does: each row's accumulator takes its own weight chunk, the others stay
(R181, R185). -/
theorem blockRows_ok {addr : Nat → Nat} {s : State} {m : Nat} : ∀ {e e' : Engine}, m ≤ 4 → blockRows addr s m e = .ok e' →
    e'.kernel = e.kernel ∧ e'.row = e.row ∧ e'.col = e.col ∧ e'.xv = e.xv
      ∧ (∀ i, i < m → ∃ wv, s.load16 (addr i) = .ok wv ∧ e'.accs.get i = dot16 (e.accs.get i) wv e.xv)
      ∧ (∀ i, m ≤ i → i < 4 → e'.accs.get i = e.accs.get i) := by
  induction m with
  | zero =>
    intro e e' _ h; cases h
    exact ⟨rfl, rfl, rfl, rfl, fun i hi => absurd hi (by omega), fun _ _ _ => rfl⟩
  | succ m ih =>
    intro e e' hm h
    simp only [blockRows] at h
    split at h
    · cases h
    · next e1 h1 =>
      obtain ⟨hk, hr, hc, hx, hd, ho⟩ := ih (by omega) h1
      unfold blockRowDot at h
      split at h
      · cases h
      · next wv hwv =>
        cases h
        refine ⟨hk, hr, hc, hx, fun i hi => ?_, fun i hi hi4 => ?_⟩
        · by_cases him : i = m
          · subst him
            exact ⟨wv, hwv, by rw [Accs.get_set_same _ (by omega), ho i (le_refl _) (by omega), hx]⟩
          · obtain ⟨w, hw1, hw2⟩ := hd i (by omega)
            exact ⟨w, hw1, by rw [Accs.get_set_other _ (by omega) (by omega) him, hw2]⟩
        · rw [Accs.get_set_other _ (by omega) hi4 (by omega), ho i (by omega) hi4]

/-- A pass of the inner loop keeps the command and its indices. -/
theorem consume_indices {s : State} {e e' : Engine} (h : e.consume s = .ok e') :
    e'.kernel = e.kernel ∧ e'.row = e.row ∧ e'.col = e.col := by
  unfold Engine.consume at h
  split at h
  · unfold scalarMac at h
    split at h
    · cases h
    · split at h <;> cases h
      exact ⟨rfl, rfl, rfl⟩
  · unfold singleRowChunk singleRowDot at h
    split at h
    · cases h
    · split at h <;> cases h
      exact ⟨rfl, rfl, rfl⟩
  · unfold blockedChunk blockChunk at h
    split at h
    · cases h
    · obtain ⟨h1, h2, h3, -⟩ := blockRows_ok (le_refl 4) h; exact ⟨h1, h2, h3⟩
  · unfold interleavedChunk blockChunk at h
    split at h
    · cases h
    · obtain ⟨h1, h2, h3, -⟩ := blockRows_ok (le_refl 4) h; exact ⟨h1, h2, h3⟩

/-- The prefetch hint changes nothing (R172). -/
@[simp] theorem singleRowPrefetch_eq (e : Engine) (s : State) : singleRowPrefetch e s = s := by
  unfold singleRowPrefetch prefetchHint; split <;> rfl

/-- A pass of the inner loop takes accumulators that hold the sums so far to accumulators that hold the next ones
(R161, R171, R181, R185). -/
theorem consume_holds {s : State} {e e' : Engine} (h : e.consume s = .ok e') (ha : s.AccumulatorsHold e) :
    s.AccumulatorsHold e'.nextCol := by
  have hi := consume_indices h
  unfold Engine.consume at h
  unfold State.AccumulatorsHold at ha ⊢
  simp only [Engine.nextCol, hi.1, hi.2.1, hi.2.2]
  cases hk : e.kernel <;> simp only [hk] at h ha ⊢
  · unfold scalarMac at h
    split at h
    · cases h
    · next w hw =>
      split at h
      · cases h
      · next x hx =>
        cases h
        have h1 := (readByte_ok.mp hw).2
        have h2 := (readByte_ok.mp hx).2
        simp only
        rw [ha, accumulate_ofInt]
        congr 1
        simp only [State.partialSum, sumUpTo, State.weightByte, State.inputByte, layoutOffset, rpOffset, State.byteAt,
          ← Nat.add_assoc, h1, h2, Option.getD_some]
  · unfold singleRowChunk singleRowDot at h
    rw [singleRowPrefetch_eq] at h
    split at h
    · cases h
    · next wv hwv =>
      split at h
      · cases h
      · next xv hxv =>
        cases h
        simp only
        rw [Accs.get_set_same _ (by omega)]
        refine hsum_dot16_holds ha (fun t ht => weight_chunk hwv ht ?_) (fun t ht => input_chunk hxv ht)
        simp only [layoutOffset, rpOffset]; omega
  · unfold blockedChunk blockChunk at h
    split at h
    · cases h
    · next xv hxv =>
      obtain ⟨-, -, -, -, hd, -⟩ := blockRows_ok (le_refl 4) h
      intro i hi4
      obtain ⟨wv, hwv, hg⟩ := hd i hi4
      simp only at hg
      rw [hg]
      exact hsum_dot16_holds (ha i hi4) (fun t ht => weight_chunk hwv ht (blockedAddr_layout e s i t))
        (fun t ht => input_chunk hxv ht)
  · unfold interleavedChunk blockChunk at h
    split at h
    · cases h
    · next xv hxv =>
      obtain ⟨-, -, -, -, hd, -⟩ := blockRows_ok (le_refl 4) h
      intro i hi4
      obtain ⟨wv, hwv, hg⟩ := hd i hi4
      simp only at hg
      rw [hg]
      exact hsum_dot16_holds (ha i hi4) (fun t ht => weight_chunk hwv ht (interleavedAddr_layout e s hi4 ht))
        (fun t ht => input_chunk hxv ht)

end Sys2Proof.Machine
end

