-- ==== Sys2Proof/Laws/PerInstr.lean ====
section
/-! SUPPORT. A family of statements about each instruction as syntax: its encoding fills its format (R100, R101). -/

namespace Sys2Proof

@[simp] theorem leBytes_length (count w : Nat) : (leBytes count w).length = count := by
  induction count generalizing w with
  | zero => rfl
  | succ n ih => simp [leBytes, ih]

/-- The number of the low bytes of `w` is `w` modulo the range they cover. -/
theorem ofLeBytes_leBytes (count w : Nat) : ofLeBytes (leBytes count w) = w % 256 ^ count := by
  induction count generalizing w with
  | zero => simp [leBytes, ofLeBytes, Nat.mod_one]
  | succ n ih =>
    simp only [leBytes, ofLeBytes, ih, BitVec.toNat_ofNat]
    rw [show 256 ^ (n + 1) = 256 * 256 ^ n from pow_succ' 256 n, Nat.mod_mul, show 2 ^ 8 = 256 from rfl]

namespace Laws.EncodedLength

/-- The encoding of an instruction has the bytes of its format. -/
def Statement (i : Instr) : Prop := (encode i).length = formatBytes i.format

theorem scalar : Statement .scalar := by simp [Statement, encode, Instr.format, formatBytes]
theorem dotprod : Statement .dotprod := by simp [Statement, encode, Instr.format, formatBytes]
theorem dotprod4 : Statement .dotprod4 := by simp [Statement, encode, Instr.format, formatBytes]
theorem dotprod4i : Statement .dotprod4i := by simp [Statement, encode, Instr.format, formatBytes]
theorem go : Statement .go := by simp [Statement, encode, Instr.format, formatBytes]
theorem regRd (offset : BitVec 8) : Statement (.regRd offset) := by
  simp [Statement, encode, Instr.format, formatBytes]
theorem regWr (offset : BitVec 8) (data : Word64) : Statement (.regWr offset data) := by
  simp [Statement, encode, Instr.format, formatBytes]

end Laws.EncodedLength
end Sys2Proof
end

