-- ==== Sys2Proof/Laws/Run.lean ====
section
/-! SUPPORT. The output of a row or block, one engine operation, and a command run to its end (R69, R139, R144, R147). -/

namespace Sys2Proof.Machine

/-! ### The output of a pass of the outer loop -/

/-- The four bytes of output row `r`. -/
abbrev State.outputBytes (s : State) (r : Nat) : Region := ⟨s.yBase + 4 * r, 4⟩

/-- In memory `m`, output row `r` holds `y` (R69, R72). -/
def State.OutputIn (s : State) (m : Memory) (r : Nat) (y : Word32) : Prop :=
  ∀ i, i < 4 → m.read (s.yBase + 4 * r + i) = some (y.extractLsb' (8 * i) 8)

/-- From memory `m` to memory `m'`, the rows from `lo` up to `hi` take the values `y`, and no other byte changes. -/
structure State.RowsWritten (s : State) (m m' : Memory) (lo hi : Nat) (y : Nat → Word32) : Prop where
  written : ∀ r, lo ≤ r → r < hi → s.OutputIn m' r (y r)
  frame : ∀ x, (∀ r, lo ≤ r → r < hi → ¬ (s.outputBytes r).Has x) → m'.read x = m.read x
  wf : m.wf → m'.wf
  inSpace : m.inSpace s.params.addrBits → m'.inSpace s.params.addrBits

theorem State.RowsWritten.refl (s : State) (m : Memory) (lo : Nat) (y : Nat → Word32) : s.RowsWritten m m lo lo y :=
  ⟨fun r h1 h2 => absurd h1 (by omega), fun _ _ => rfl, id, id⟩

/-- One more row written after rows `lo` to `hi`. -/
theorem State.RowsWritten.snoc {s : State} {m m' m'' : Memory} {lo hi : Nat} {y : Nat → Word32}
    (h : s.RowsWritten m m' lo hi y) (hlo : lo ≤ hi) (g : s.RowsWritten m' m'' hi (hi + 1) y) :
    s.RowsWritten m m'' lo (hi + 1) y := by
  refine ⟨fun r h1 h2 => ?_, fun x hx => ?_, fun w => g.wf (h.wf w), fun w => g.inSpace (h.inSpace w)⟩
  · by_cases hr : r < hi
    · intro i hi4
      rw [g.frame _ fun r' h3 h4 hh => by obtain ⟨a, b⟩ := hh; simp only at a b; omega]
      exact h.written r h1 hr i hi4
    · exact g.written r (by omega) h2
  · rw [g.frame x fun r h1 h2 => hx r (by omega) h2, h.frame x fun r h1 h2 => hx r h1 (by omega)]

/-- One row written. -/
theorem emitRow_rowsWritten {s t : State} {k : Kernel} {r : Nat} {v : Word32} {y : Nat → Word32} (hv : v = y r)
    (h : s.emitRow k r v = .ok t) : ∃ m, t = s.withMem m ∧ s.RowsWritten s.mem m r (r + 1) y := by
  obtain ⟨m, ht, hr, ho, hw, hs⟩ := emitRow_ok h
  refine ⟨m, ht, fun q h1 h2 => ?_, fun x hx => ho x (hx r (le_refl _) (by omega)), hw, hs⟩
  obtain rfl : q = r := by omega
  rw [← hv]; exact hr

/-- The loop over the rows of a block writes those below `n`, each with its own accumulator (R181, R182, R185, R186). -/
theorem blockEmitRows_ok {k : Kernel} {e : Engine} {s : State} {y : Nat → Word32} {m : Nat} : ∀ {t : State}, m ≤ 4 →
    (∀ i, i < 4 → hsum (e.accs.get i) = y (4 * e.row + i)) → blockEmitRows k e s m = .ok t →
    ∃ mem, t = s.withMem mem
      ∧ s.RowsWritten s.mem mem (min (4 * e.row) s.rows) (min (4 * e.row + m) s.rows) y := by
  induction m with
  | zero => intro t _ _ h; cases h; exact ⟨s.mem, rfl, .refl _ _ _ _⟩
  | succ m ih =>
    intro t hm hy h
    simp only [blockEmitRows] at h
    split at h
    · cases h
    · next s1 h1 =>
      obtain ⟨m1, rfl, hw1⟩ := ih (by omega) hy h1
      split at h
      · next hlt =>
        obtain ⟨m2, rfl, hw2⟩ := emitRow_rowsWritten (y := y) (hy m (by omega)) h
        refine ⟨m2, rfl, ?_⟩
        have e1 : min (4 * e.row + m) s.rows = 4 * e.row + m := by omega
        have e2 : min (4 * e.row + (m + 1)) s.rows = 4 * e.row + m + 1 := by omega
        rw [e1] at hw1; rw [e2]
        exact hw1.snoc (by omega) ⟨hw2.written, hw2.frame, hw2.wf, hw2.inSpace⟩
      · next hge =>
        cases h
        refine ⟨m1, rfl, ?_⟩
        have e1 : min (4 * e.row + (m + 1)) s.rows = min (4 * e.row + m) s.rows := by omega
        rw [e1]; exact hw1

theorem rowsWritten_nextRow_four (s : State) (e : Engine) (h : e.kernel = .fourRowBlocked ∨ e.kernel = .fourRowInterleaved) :
    s.rowsWritten e = min (4 * e.row) s.rows ∧ s.rowsWritten e.nextRow = min (4 * e.row + 4) s.rows := by
  unfold State.rowsWritten Engine.nextRow
  rcases h with h | h <;> simp [h, Nat.mul_add]

/-- The output that ends a pass of the outer loop: the rows of the pass take their row values (R144), and nothing else
changes. -/
theorem emit_ok {s t : State} {e : Engine} (h : e.emit s = .ok t) (hc : e.col = s.inner e.kernel)
    (ha : s.AccumulatorsHold e) :
    ∃ m, t = s.withMem m
      ∧ s.RowsWritten s.mem m (s.rowsWritten e) (s.rowsWritten e.nextRow) (s.rowValue e.kernel) := by
  have hp := s.padded_eq
  unfold Engine.emit at h
  unfold State.AccumulatorsHold at ha
  cases hk : e.kernel <;> simp only [hk] at h ha hc
  · simp only [State.inner] at hc
    rw [hc] at ha
    obtain ⟨m, rfl, hw⟩ := emitRow_rowsWritten (y := s.rowValue .scalar) (by exact ha) h
    exact ⟨m, rfl, by simpa [State.rowsWritten, Engine.nextRow, hk] using hw⟩
  · simp only [State.inner] at hc
    rw [hc, ← hp] at ha
    obtain ⟨m, rfl, hw⟩ := emitRow_rowsWritten (y := s.rowValue .singleRow) (by exact ha) h
    exact ⟨m, rfl, by simpa [State.rowsWritten, Engine.nextRow, hk] using hw⟩
  · obtain ⟨h1, h2⟩ := rowsWritten_nextRow_four s e (.inl hk)
    simp only [State.inner] at hc
    rw [hc, ← hp] at ha
    rw [h1, h2]
    exact blockEmitRows_ok (le_refl 4) ha h
  · obtain ⟨h1, h2⟩ := rowsWritten_nextRow_four s e (.inr hk)
    simp only [State.inner] at hc
    rw [hc, ← hp] at ha
    rw [h1, h2]
    exact blockEmitRows_ok (le_refl 4) ha h

/-! ### A run seen from the state it started in -/

/-- A running command at hidden state `e` with memory `m`, seen from the state `s` whose registers and buffers it works
on: the rows it has passed hold their values, the accumulators hold the sums so far, and no byte outside the output has
changed. -/
structure State.RunAt (s : State) (e : Engine) (m : Memory) : Prop where
  accepted : s.acceptError e.kernel = none
  row : e.row < s.outer e.kernel
  col : e.col ≤ s.inner e.kernel
  holds : s.AccumulatorsHold e
  outputs : ∀ r, r < s.rowsWritten e → s.OutputIn m r (s.rowValue e.kernel r)
  frame : ∀ a, ¬ s.outputRegion.Has a → m.read a = s.mem.read a
  wf : s.mem.wf → m.wf
  inSpace : s.mem.inSpace s.params.addrBits → m.inSpace s.params.addrBits

/-- The state at a point of a run. -/
def State.at (s : State) (e : Engine) (m : Memory) : State := (s.withMem m).withStatus (.busy e)

theorem State.at_setup (s : State) (e : Engine) (m : Memory) : SameSetup (s.at e m) s := ⟨rfl, rfl⟩

/-- The row sums at a point of a run are those of its start (R85). -/
theorem State.RunAt.partialSum {s : State} {e : Engine} {m : Memory} (h : s.RunAt e m) {t : State} (ht : SameSetup t s)
    (hm : ∀ a, ¬ s.outputRegion.Has a → t.mem.read a = s.mem.read a)
    {r c : Nat} (hr : r < s.weightRows e.kernel) (hc : c ≤ s.padded) :
    t.partialSum e.kernel r c = s.partialSum e.kernel r c := by
  obtain ⟨-, -, -, -, hw, hx⟩ := acceptError_none h.accepted
  exact partialSum_congr ht
    (fun j hj => hm _ fun ho => hw _ ho (layout_in_weights hr (by omega)))
    (fun j hj => hm _ fun ho => hx _ ho (input_in_region (by omega)))

/-- Accumulators at a point of a run mean the same there and at its start. -/
theorem State.RunAt.holds_iff {s : State} {e : Engine} {m : Memory} (h : s.RunAt e m) {t : State} (ht : SameSetup t s)
    (hm : ∀ a, ¬ s.outputRegion.Has a → t.mem.read a = s.mem.read a) {e' : Engine} (hk : e'.kernel = e.kernel)
    (hr : e'.row < s.outer e'.kernel) (hc : e'.col ≤ s.inner e'.kernel) :
    t.AccumulatorsHold e' ↔ s.AccumulatorsHold e' := by
  have hp := s.padded_eq
  have hps := @State.RunAt.partialSum s e m h t ht hm
  rw [← hk] at hps
  unfold State.AccumulatorsHold
  cases hk' : e'.kernel <;> simp only [hk'] at hr hc hps ⊢ <;> simp only [State.inner] at hc
  · rw [hps (((row_lt_weightRows (i := 0) hr (by omega)).1) rfl) hc]
  · rw [hps (((row_lt_weightRows (i := 0) hr (by omega)).2.1) rfl) (by omega)]
  · exact forall_congr' fun i => forall_congr' fun hi => by
      rw [hps (((row_lt_weightRows hr hi).2.2.1) rfl) (by omega)]
  · exact forall_congr' fun i => forall_congr' fun hi => by
      rw [hps (((row_lt_weightRows hr hi).2.2.2) rfl) (by omega)]

theorem rows_le_weightRows (s : State) (k : Kernel) : s.rows ≤ s.weightRows k := by
  cases k <;> simp only [State.weightRows, layoutRows, ceil4] <;> omega

theorem rowsWritten_le (s : State) {e : Engine} (h : e.row ≤ s.outer e.kernel) : s.rowsWritten e ≤ s.rows := by
  unfold State.rowsWritten
  cases hk : e.kernel <;> simp only [hk, State.outer] at h ⊢ <;> omega

theorem rowsWritten_mono (s : State) (e : Engine) : s.rowsWritten e ≤ s.rowsWritten e.nextRow := by
  unfold State.rowsWritten Engine.nextRow
  cases e.kernel <;> simp only <;> omega

/-- Row values at a point of a run are those of its start. -/
theorem State.RunAt.rowValue {s : State} {e : Engine} {m : Memory} (h : s.RunAt e m) {t : State} (ht : SameSetup t s)
    (hm : ∀ a, ¬ s.outputRegion.Has a → t.mem.read a = s.mem.read a) {r : Nat} (hr : r < s.rows) :
    t.rowValue e.kernel r = s.rowValue e.kernel r := by
  unfold State.rowValue State.rowSum
  rw [ht.padded, h.partialSum ht hm (lt_of_lt_of_le hr (rows_le_weightRows s _)) (le_refl _)]

/-- The operations a run still takes (R147). -/
def State.remaining (s : State) (e : Engine) : Nat := (s.outer e.kernel - e.row) * (s.inner e.kernel + 1) - e.col

theorem outputBytes_in_region {s : State} {r x : Nat} (hr : r < s.rows) (hx : (s.outputBytes r).Has x) :
    s.outputRegion.Has x := by
  obtain ⟨h1, h2⟩ := hx
  simp only [State.outputRegion, Region.Has] at h1 h2 ⊢
  omega

theorem outer_rows (s : State) (e : Engine) (h : e.row + 1 = s.outer e.kernel) : s.rowsWritten e.nextRow = s.rows := by
  have := s.blocks_mul
  unfold State.rowsWritten Engine.nextRow
  cases hk : e.kernel <;> simp only [hk, State.outer, ceil4] at h this ⊢ <;> omega

/-- What a run leaves when it is complete: every row at its value, every byte outside the output as it was. -/
structure State.RunDone (s : State) (k : Kernel) (m : Memory) : Prop where
  outputs : ∀ r, r < s.rows → s.OutputIn m r (s.rowValue k r)
  frame : ∀ a, ¬ s.outputRegion.Has a → m.read a = s.mem.read a
  wf : s.mem.wf → m.wf
  inSpace : s.mem.inSpace s.params.addrBits → m.inSpace s.params.addrBits

/-- What one engine operation does at a point of a run: it goes on, one operation fewer remaining, or it is the last and
the command is complete. -/
theorem engineOp_at {s t : State} {e : Engine} {m : Memory} (h : s.RunAt e m) (hop : engineOp e (s.at e m) = .ok t) :
    (∃ e' m', t = s.at e' m' ∧ e'.kernel = e.kernel ∧ s.RunAt e' m' ∧ s.remaining e' + 1 = s.remaining e)
      ∨ (∃ m', t = (s.withMem m').complete ∧ s.RunDone e.kernel m' ∧ s.remaining e = 1) := by
  have hset : SameSetup (s.at e m) s := s.at_setup e m
  unfold engineOp at hop
  rw [hset.outer, if_pos h.row, hset.inner] at hop
  split at hop
  · next hcol =>
    split at hop
    · cases hop
    · next e1 he1 =>
      cases hop
      obtain ⟨hk, hr, hc⟩ := consume_indices he1
      have hk' : e1.nextCol.kernel = e.kernel := hk
      have hr' : e1.nextCol.row = e.row := hr
      have hc' : e1.nextCol.col = e.col + 1 := by rw [← hc]; rfl
      have hhold : s.AccumulatorsHold e1.nextCol :=
        (h.holds_iff hset h.frame hk' (by rw [hk', hr']; exact h.row) (by rw [hk', hc']; exact hcol)).mp
          (consume_holds he1 ((h.holds_iff hset h.frame rfl h.row h.col).mpr h.holds))
      refine .inl ⟨e1.nextCol, m, rfl, hk', ⟨?_, ?_, ?_, hhold, ?_, h.frame, h.wf, h.inSpace⟩, ?_⟩
      · rw [hk']; exact h.accepted
      · rw [hk', hr']; exact h.row
      · rw [hk', hc']; exact hcol
      · have : s.rowsWritten e1.nextCol = s.rowsWritten e := by unfold State.rowsWritten; rw [hk', hr']
        rw [this, hk']; exact h.outputs
      · have hrow := h.row
        unfold State.remaining
        rw [hk', hr', hc']
        have : s.inner e.kernel + 1 ≤ (s.outer e.kernel - e.row) * (s.inner e.kernel + 1) :=
          Nat.le_mul_of_pos_left _ (by omega)
        omega
  · next hcol =>
    have hceq : e.col = s.inner e.kernel := le_antisymm h.col (by omega)
    split at hop
    · cases hop
    · next s1 hs1 =>
      cases hop
      obtain ⟨m', rfl, hw⟩ := emit_ok hs1 (by rw [hset.inner]; exact hceq)
        ((h.holds_iff hset h.frame rfl h.row h.col).mpr h.holds)
      have hle : s.rowsWritten e.nextRow ≤ s.rows := rowsWritten_le s (by exact h.row)
      have hval : ∀ r, r < s.rows → (s.at e m).rowValue e.kernel r = s.rowValue e.kernel r :=
        fun r hr => h.rowValue hset h.frame hr
      have hout : ∀ r, r < s.rowsWritten e.nextRow → s.OutputIn m' r (s.rowValue e.kernel r) := by
        intro r hr
        by_cases hlt : r < s.rowsWritten e
        · intro i hi
          rw [hw.frame _ fun q h1 h2 hh => ?_]
          · exact h.outputs r hlt i hi
          · have h1' : s.rowsWritten e ≤ q := h1
            obtain ⟨h3, h4⟩ := hh
            have h3' : s.yBase + 4 * q ≤ s.yBase + 4 * r + i := h3
            omega
        · have := hw.written r (by show s.rowsWritten e ≤ r; omega) (by exact hr)
          rw [hval r (by omega)] at this
          exact this
      have hframe : ∀ a, ¬ s.outputRegion.Has a → m'.read a = s.mem.read a := by
        intro a hna
        rw [hw.frame a fun q h1 h2 hh => hna (outputBytes_in_region (lt_of_lt_of_le h2 hle) hh)]
        exact h.frame a hna
      have hwf : s.mem.wf → m'.wf := fun w => hw.wf (h.wf w)
      have hsp : s.mem.inSpace s.params.addrBits → m'.inSpace s.params.addrBits := fun w => hw.inSpace (h.inSpace w)
      have hout' : ((s.at e m).withMem m').outer e.kernel = s.outer e.kernel := SameSetup.outer ⟨rfl, rfl⟩ _
      have hrow := h.row
      unfold State.endRow
      rw [hout']
      split
      · next hlt =>
        refine .inl ⟨e.nextRow, m', rfl, rfl, ⟨h.accepted, hlt, Nat.zero_le _, ?_, hout, hframe, hwf, hsp⟩, ?_⟩
        · unfold State.AccumulatorsHold Engine.nextRow
          cases e.kernel <;> simp [State.partialSum, sumUpTo]
        · unfold State.remaining Engine.nextRow
          simp only
          rw [hceq, show s.outer e.kernel - e.row = (s.outer e.kernel - (e.row + 1)) + 1 by omega, Nat.add_mul]
          omega
      · next hge =>
        have hlast : e.row + 1 = s.outer e.kernel := by omega
        refine .inr ⟨m', rfl, ⟨?_, hframe, hwf, hsp⟩, ?_⟩
        · rw [← outer_rows s e hlast]; exact hout
        · unfold State.remaining
          rw [hceq, show s.outer e.kernel - e.row = 1 by omega]; omega

/-! ### A prepared command does not fault (R88) -/

/-- The row's output raises no fault (R145). -/
theorem rowFault_none {s t : State} {e : Engine} {m : Memory} (h : s.RunAt e m) (ho : s.OverflowAllowed e.kernel)
    (ht : SameSetup t s) (hm : ∀ a, ¬ s.outputRegion.Has a → t.mem.read a = s.mem.read a) {r : Nat} (hr : r < s.rows) :
    t.rowFault e.kernel r = none := by
  unfold State.rowFault
  rw [ht.1]
  split
  · next hc =>
    unfold State.OverflowAllowed at ho
    rw [hc.1] at ho
    have h1 : t.rowSum e.kernel r = s.rowSum e.kernel r := by
      unfold State.rowSum
      rw [ht.padded, h.partialSum ht hm (lt_of_lt_of_le hr (rows_le_weightRows s _)) (le_refl _)]
    have h2 := ho r hr
    rw [h1] at hc
    simp only [fits32, Bool.and_eq_false_iff, decide_eq_false_iff_not] at hc
    omega
  · rfl

/-- A byte the command reads is readable at every point of its run. -/
theorem readable_at {s : State} {e : Engine} {m : Memory} (h : s.RunAt e m) {a : Nat} (hr : s.Readable a)
    (ho : ¬ s.outputRegion.Has a) :
    (s.at e m).addressFault a = none ∧ (s.at e m).mem.read a ≠ none :=
  ⟨(s.at_setup e m).addressFault a ▸ hr.1, by
    show m.read a ≠ none
    rw [h.frame a ho]; exact hr.2⟩

theorem load16_at {s : State} {e : Engine} {m : Memory} (h : s.RunAt e m) {a : Nat}
    (hr : ∀ i, i < 16 → s.Readable (a + i) ∧ ¬ s.outputRegion.Has (a + i)) :
    ∃ bs, (s.at e m).load16 a = .ok bs :=
  readBytes_of_readable fun i hi => readable_at h (hr i hi).1 (hr i hi).2

theorem blockRows_of_loads {addr : Nat → Nat} {s : State} {n : Nat} : ∀ {e : Engine},
    (∀ i, i < n → ∃ wv, s.load16 (addr i) = .ok wv) → ∃ e', blockRows addr s n e = .ok e' := by
  induction n with
  | zero => intro e _; exact ⟨e, rfl⟩
  | succ n ih =>
    intro e h
    obtain ⟨e1, h1⟩ := ih (e := e) fun i hi => h i (by omega)
    obtain ⟨wv, hwv⟩ := h n (by omega)
    simp only [blockRows, h1, blockRowDot, hwv]
    exact ⟨_, rfl⟩

/-- A prepared command's pass of the inner loop raises no fault (R71, R78). -/
theorem consume_at {s : State} {e : Engine} {m : Memory} (h : s.RunAt e m) (hp : s.Prepared e.kernel)
    (hcol : e.col < s.inner e.kernel) : ∃ e', e.consume (s.at e m) = .ok e' := by
  have hset := s.at_setup e m
  obtain ⟨hw, hx, -, -, -⟩ := hp
  obtain ⟨-, -, -, -, how, hox⟩ := acceptError_none h.accepted
  have hW : ∀ r j, r < s.weightRows e.kernel → j < s.padded →
      s.Readable (s.wBase + layoutOffset e.kernel s.padded r j)
        ∧ ¬ s.outputRegion.Has (s.wBase + layoutOffset e.kernel s.padded r j) := fun r j hr hj =>
    have := layout_in_weights hr hj
    ⟨hw _ this, fun ho => how _ ho this⟩
  have hX : ∀ j, j < s.padded → s.Readable (s.xBase + j) ∧ ¬ s.outputRegion.Has (s.xBase + j) := fun j hj =>
    have := input_in_region (s := s) hj
    ⟨hx _ this, fun ho => hox _ ho this⟩
  have hXc : ∀ i, e.col < s.chunks → i < 16 →
      s.Readable (s.xBase + 16 * e.col + i) ∧ ¬ s.outputRegion.Has (s.xBase + 16 * e.col + i) := fun i hc hi => by
    rw [Nat.add_assoc]; exact hX _ (chunk_lt_padded hc hi)
  have hrow := h.row
  unfold Engine.consume
  cases hk : e.kernel <;> simp only [hk, State.inner] at hcol hrow hW ⊢
  · have r1 := hW _ _ ((row_lt_weightRows (i := 0) hrow (by omega)).1 rfl) hcol
    simp only [layoutOffset, rpOffset, ← Nat.add_assoc] at r1
    obtain ⟨a1, a2⟩ := readable_at h r1.1 r1.2
    obtain ⟨b1, b2⟩ := readable_at h (hX _ hcol).1 (hX _ hcol).2
    obtain ⟨w, hw'⟩ := Option.ne_none_iff_exists'.mp a2
    obtain ⟨x, hx'⟩ := Option.ne_none_iff_exists'.mp b2
    unfold scalarMac
    rw [hset.wBase, hset.padded, hset.xBase, readByte_ok.mpr ⟨a1, hw'⟩]
    simp only [readByte_ok.mpr ⟨b1, hx'⟩]
    exact ⟨_, rfl⟩
  · obtain ⟨wv, hwv⟩ := load16_at (a := s.wBase + e.row * s.padded + 16 * e.col) h fun i hi => by
      have := hW _ _ ((row_lt_weightRows (i := 0) hrow (by omega)).2.1 rfl) (chunk_lt_padded hcol hi)
      simpa only [layoutOffset, rpOffset, ← Nat.add_assoc] using this
    obtain ⟨xv, hxv⟩ := load16_at (a := s.xBase + 16 * e.col) h fun i hi => hXc i hcol hi
    unfold singleRowChunk singleRowDot
    rw [singleRowPrefetch_eq, hset.wBase, hset.padded, hset.xBase, hwv]
    simp only [hxv]
    exact ⟨_, rfl⟩
  · obtain ⟨xv, hxv⟩ := load16_at (a := s.xBase + 16 * e.col) h fun i hi => hXc i hcol hi
    unfold blockedChunk blockChunk
    rw [hset.xBase, hxv]
    refine blockRows_of_loads fun i hi => ?_
    have heq : blockedAddr e (s.at e m) i = blockedAddr e s i := by
      unfold blockedAddr; rw [hset.wBase, hset.padded]
    rw [heq]
    refine load16_at h fun t ht => ?_
    rw [blockedAddr_layout]
    exact hW _ _ ((row_lt_weightRows hrow hi).2.2.1 rfl) (chunk_lt_padded hcol ht)
  · obtain ⟨xv, hxv⟩ := load16_at (a := s.xBase + 16 * e.col) h fun i hi => hXc i hcol hi
    unfold interleavedChunk blockChunk
    rw [hset.xBase, hxv]
    refine blockRows_of_loads fun i hi => ?_
    have heq : interleavedAddr e (s.at e m) i = interleavedAddr e s i := by
      unfold interleavedAddr; rw [hset.wBase, hset.padded]
    rw [heq]
    refine load16_at h fun t ht => ?_
    rw [interleavedAddr_layout e s hi ht]
    exact hW _ _ ((row_lt_weightRows hrow hi).2.2.2 rfl) (chunk_lt_padded hcol ht)

/-- Writing a row of the output raises no fault. -/
theorem emitRow_at {s t : State} {e : Engine} {m : Memory} (h : s.RunAt e m) (hp : s.Prepared e.kernel)
    (ht : SameSetup t s) (hm : ∀ a, ¬ s.outputRegion.Has a → t.mem.read a = s.mem.read a) {r : Nat} (hr : r < s.rows)
    (v : Word32) : ∃ t', t.emitRow e.kernel r v = .ok t' := by
  obtain ⟨-, -, hy, -, ho⟩ := hp
  refine emitRow_of_writable (fun i hi => ?_) (rowFault_none h ho ht hm hr)
  rw [ht.yBase, ht.addressFault]
  refine hy _ (outputBytes_in_region hr ⟨by simp only; omega, by simp only; omega⟩)

theorem blockEmitRows_at {s : State} {e : Engine} {m : Memory} (h : s.RunAt e m) (hp : s.Prepared e.kernel) {n : Nat} :
    ∃ t, blockEmitRows e.kernel e (s.at e m) n = .ok t ∧ SameSetup t s
      ∧ ∀ a, ¬ s.outputRegion.Has a → t.mem.read a = s.mem.read a := by
  induction n with
  | zero => exact ⟨_, rfl, s.at_setup e m, h.frame⟩
  | succ n ih =>
    obtain ⟨t, ht, hset, hm⟩ := ih
    simp only [blockEmitRows, ht, (s.at_setup e m).rows]
    split
    · next hlt =>
      obtain ⟨t', ht'⟩ := emitRow_at h hp hset hm hlt (hsum (e.accs.get n))
      obtain ⟨mem, rfl, hw⟩ := emitRow_rowsWritten (y := fun _ => hsum (e.accs.get n)) rfl ht'
      refine ⟨_, ht', (SameSetup.of_withMem t mem).trans hset, fun a ha => ?_⟩
      rw [← hm a ha]
      refine hw.frame a fun q h1 h2 hh => ha ?_
      obtain rfl : q = 4 * e.row + n := by omega
      refine outputBytes_in_region hlt ?_
      unfold State.outputBytes at hh
      rwa [hset.yBase] at hh
    · exact ⟨t, rfl, hset, hm⟩

/-- A prepared command's output raises no fault (R78, R145). -/
theorem emit_at {s : State} {e : Engine} {m : Memory} (h : s.RunAt e m) (hp : s.Prepared e.kernel) :
    ∃ t, e.emit (s.at e m) = .ok t := by
  have hrow := h.row
  have hb := fun n => blockEmitRows_at h hp (n := n)
  have he := fun (hr : e.row < s.rows) v => emitRow_at h hp (s.at_setup e m) h.frame hr v
  unfold Engine.emit
  cases hk : e.kernel <;> simp only [hk, State.outer] at hrow hb he ⊢
  · exact he hrow _
  · exact he hrow _
  · obtain ⟨t, ht, -⟩ := hb 4; exact ⟨t, ht⟩
  · obtain ⟨t, ht, -⟩ := hb 4; exact ⟨t, ht⟩

/-- A prepared command's engine operation raises no fault. -/
theorem engineOp_prepared {s : State} {e : Engine} {m : Memory} (h : s.RunAt e m) (hp : s.Prepared e.kernel) :
    ∃ t, engineOp e (s.at e m) = .ok t := by
  have hset := s.at_setup e m
  unfold engineOp
  rw [hset.outer, if_pos h.row, hset.inner]
  split
  · next hcol =>
    obtain ⟨e', he'⟩ := consume_at h hp hcol
    simp only [he']
    exact ⟨_, rfl⟩
  · obtain ⟨t, ht⟩ := emit_at h hp
    simp only [ht]
    exact ⟨_, rfl⟩

/-! ### A command run to its end (R147) -/

/-- The start of a run: nothing done yet. -/
theorem runAt_start {s : State} {k : Kernel} (h : s.acceptError k = none) : s.RunAt (Engine.start k) s.mem := by
  have hr := (acceptError_none h).1
  refine ⟨h, ?_, Nat.zero_le _, ?_, ?_, fun _ _ => rfl, id, id⟩
  · have hb := s.blocks_mul
    unfold Engine.start
    cases k <;> simp only [State.outer, ceil4] at hb ⊢ <;> omega
  · unfold State.AccumulatorsHold Engine.start
    cases k <;> simp [State.partialSum, sumUpTo]
  · intro r hlt
    unfold State.rowsWritten Engine.start at hlt
    cases k <;> simp at hlt

theorem remaining_start (s : State) (k : Kernel) : s.remaining (Engine.start k) = s.opCount k := rfl

/-- From any point of a prepared command's run, its remaining operations complete it. -/
theorem runEngine_at {s : State} {k : Kernel} (hp : s.Prepared k) {n : Nat} : ∀ {e : Engine} {m : Memory},
    e.kernel = k → s.RunAt e m → s.remaining e = n →
    ∃ m', (s.at e m).runEngine n = .ok (s.withMem m').complete ∧ s.RunDone k m' := by
  induction n with
  | zero =>
    intro e m _ h hn
    exfalso
    have h1 := h.row
    have h2 := h.col
    unfold State.remaining at hn
    have : s.inner e.kernel + 1 ≤ (s.outer e.kernel - e.row) * (s.inner e.kernel + 1) :=
      Nat.le_mul_of_pos_left _ (by omega)
    omega
  | succ n ih =>
    intro e m hk h hn
    subst hk
    obtain ⟨t, ht⟩ := engineOp_prepared h hp
    have hturn : (s.at e m).engineTurn = .ok t := ht
    simp only [State.runEngine, hturn]
    rcases engineOp_at h ht with ⟨e', m', rfl, hk', h', hrem⟩ | ⟨m', rfl, hd, hrem⟩
    · exact ih hk' h' (by omega)
    · obtain rfl : n = 0 := by omega
      exact ⟨m', rfl, hd⟩

end Sys2Proof.Machine
end

