-- ==== Sys2Proof/Laws/Shape.lean ====
section
/-! SUPPORT. What the engine, `GO` and a step can do in any state: which fields they touch and which they leave. -/

namespace Sys2Proof.Machine

/-! ### The engine in any state -/

/-- What the engine may change from `s` to `t`: `STATUS` (never to `ERROR`), the bytes of the output range, and the
ranges that wait for the host's read of `DONE`. -/
structure EngineFrame (s t : State) : Prop where
  setup : SameSetup t s
  busData : t.busData = s.busData
  memData : t.memData = s.memData
  pending : t.pending = s.pending
  frame : ∀ a, ¬ s.outputRegion.Has a → t.mem.read a = s.mem.read a
  wf : s.mem.wf → t.mem.wf
  inSpace : s.mem.inSpace s.params.addrBits → t.mem.inSpace s.params.addrBits

theorem EngineFrame.refl (s : State) : EngineFrame s s := ⟨.refl s, rfl, rfl, rfl, fun _ _ => rfl, id, id⟩

theorem EngineFrame.trans {a b c : State} (h : EngineFrame a b) (g : EngineFrame b c) : EngineFrame a c where
  setup := g.setup.trans h.setup
  busData := g.busData.trans h.busData
  memData := g.memData.trans h.memData
  pending := g.pending.trans h.pending
  frame x hx := (g.frame x (by rw [h.setup.outputRegion]; exact hx)).trans (h.frame x hx)
  wf w := g.wf (h.wf w)
  inSpace w := by
    have := g.inSpace (by rw [h.setup.1]; exact h.inSpace w)
    rwa [h.setup.1] at this

theorem EngineFrame.withStatus (s : State) (x : Status) : EngineFrame s (s.withStatus x) :=
  ⟨⟨rfl, rfl⟩, rfl, rfl, rfl, fun _ _ => rfl, id, id⟩

theorem EngineFrame.complete (s : State) : EngineFrame s s.complete :=
  ⟨⟨rfl, rfl⟩, rfl, rfl, rfl, fun _ _ => rfl, id, id⟩

/-- The output that ends a pass of the outer loop, whatever the accumulators hold: rows of the output, nothing else. -/
theorem emit_frame {s t : State} {e : Engine} (h : e.emit s = .ok t) :
    ∃ m y, t = s.withMem m ∧ s.RowsWritten s.mem m (s.rowsWritten e) (s.rowsWritten e.nextRow) y := by
  unfold Engine.emit at h
  cases hk : e.kernel <;> simp only [hk] at h
  · obtain ⟨m, rfl, hw⟩ := emitRow_rowsWritten (y := fun _ => e.acc) rfl h
    exact ⟨m, _, rfl, by simpa [State.rowsWritten, Engine.nextRow, hk] using hw⟩
  · obtain ⟨m, rfl, hw⟩ := emitRow_rowsWritten (y := fun _ => hsum (e.accs.get 0)) rfl h
    exact ⟨m, _, rfl, by simpa [State.rowsWritten, Engine.nextRow, hk] using hw⟩
  · obtain ⟨h1, h2⟩ := rowsWritten_nextRow_four s e (.inl hk)
    rw [h1, h2]
    obtain ⟨m, ht, hw⟩ := blockEmitRows_ok (y := fun r => hsum (e.accs.get (r - 4 * e.row))) (le_refl 4)
      (fun i _ => by simp) h
    exact ⟨m, _, ht, hw⟩
  · obtain ⟨h1, h2⟩ := rowsWritten_nextRow_four s e (.inr hk)
    rw [h1, h2]
    obtain ⟨m, ht, hw⟩ := blockEmitRows_ok (y := fun r => hsum (e.accs.get (r - 4 * e.row))) (le_refl 4)
      (fun i _ => by simp) h
    exact ⟨m, _, ht, hw⟩

/-- What one engine operation can do, in any state: a pass of the inner loop, an output and the next pass of the outer
loop, or the end of the command. -/
theorem engineOp_ok {s t : State} {e : Engine} (h : engineOp e s = .ok t) :
    EngineFrame s t ∧
      ((∃ e', t.status = .busy e' ∧ e'.kernel = e.kernel ∧ t.unsynced = s.unsynced
          ∧ e'.row < s.outer e.kernel ∧ e'.col ≤ s.inner e.kernel)
        ∨ (t.status = .done ∧ t.unsynced = s.unsynced.push s.outputRegion)) := by
  unfold engineOp at h
  split at h
  · next hrow =>
    split at h
    · next hcol =>
      split at h
      · cases h
      · next e1 he1 =>
        cases h
        obtain ⟨hk, hr, hc⟩ := consume_indices he1
        refine ⟨.withStatus _ _, .inl ⟨e1.nextCol, rfl, hk, rfl, ?_, ?_⟩⟩
        · show e1.row < _; omega
        · show e1.col + 1 ≤ _; omega
    · split at h
      · cases h
      · next s1 hs1 =>
        cases h
        obtain ⟨m, y, rfl, hw⟩ := emit_frame hs1
        have hle : s.rowsWritten e.nextRow ≤ s.rows := rowsWritten_le s (by exact hrow)
        have hf : EngineFrame s (s.withMem m) :=
          ⟨⟨rfl, rfl⟩, rfl, rfl, rfl, fun a ha => hw.frame a fun q h1 h2 hh =>
            ha (outputBytes_in_region (lt_of_lt_of_le h2 hle) hh), hw.wf, hw.inSpace⟩
        unfold State.endRow
        rw [SameSetup.outer (SameSetup.of_withMem s m)]
        split
        · next hlt => exact ⟨hf.trans (.withStatus _ _), .inl ⟨e.nextRow, rfl, rfl, rfl, hlt, Nat.zero_le _⟩⟩
        · exact ⟨hf.trans (.complete _), .inr ⟨rfl, rfl⟩⟩
  · cases h; exact ⟨.complete s, .inr ⟨rfl, rfl⟩⟩

/-- An engine turn where no command runs does nothing. -/
theorem engineTurn_not_busy {s : State} (h : s.status.isBusy = false) : s.engineTurn = .ok s := by
  unfold State.engineTurn
  cases hs : s.status <;> simp_all [Status.isBusy]

theorem engineTurn_busy {s : State} {e : Engine} (h : s.status = .busy e) : s.engineTurn = engineOp e s := by
  unfold State.engineTurn; rw [h]

/-- What an engine turn can do, in any state. -/
theorem engineTurn_ok {s t : State} (h : s.engineTurn = .ok t) : EngineFrame s t := by
  cases hs : s.status with
  | busy e => rw [engineTurn_busy hs] at h; exact (engineOp_ok h).1
  | _ => rw [engineTurn_not_busy (by rw [hs]; rfl)] at h; cases h; exact .refl s

/-- What several engine turns can do, in any state. -/
theorem runEngine_ok {n : Nat} : ∀ {s t : State}, s.runEngine n = .ok t → EngineFrame s t := by
  induction n with
  | zero => intro s t h; cases h; exact .refl s
  | succ n ih =>
    intro s t h
    simp only [State.runEngine] at h
    split at h
    · cases h
    · next s1 h1 => exact (engineTurn_ok h1).trans (ih h)

/-! ### Starting a command -/

theorem launch_ignored {s : State} (h : s.status.ignoresGo = true) (k : Kernel) : s.launch k = .next s := by
  unfold State.launch; rw [h]; rfl

theorem launch_refused {s : State} (h : s.status.ignoresGo = false) {k : Kernel} {e : ErrorCode}
    (he : s.acceptError k = some e) : s.launch k = .next (s.refuse e) := by
  unfold State.launch; rw [h, he]; rfl

theorem launch_accepted {s : State} (h : s.status.ignoresGo = false) {k : Kernel} (he : s.acceptError k = none)
    (ho : s.overSideEffects k = false) (hu : s.unsafeK = false) : s.launch k = toOutcome (s.runCommand k) := by
  unfold State.launch; rw [h, he, ho, hu]; rfl

/-- Everything `GO` can do once the command is decoded (R132). -/
theorem launch_cases (s : State) (k : Kernel) :
    (s.status.ignoresGo = true ∧ s.launch k = .next s)
      ∨ (s.status.ignoresGo = false ∧ ∃ e, s.acceptError k = some e ∧ s.launch k = .next (s.refuse e))
      ∨ (s.status.ignoresGo = false ∧ s.acceptError k = none ∧ s.overSideEffects k = true
          ∧ s.launch k = .refused .sideEffectBuffer)
      ∨ (s.status.ignoresGo = false ∧ s.acceptError k = none ∧ s.overSideEffects k = false ∧ s.unsafeK = true
          ∧ s.launch k = .fault .unsafeK)
      ∨ (s.status.ignoresGo = false ∧ s.acceptError k = none ∧ s.overSideEffects k = false ∧ s.unsafeK = false
          ∧ s.launch k = toOutcome (s.runCommand k)) := by
  cases hg : s.status.ignoresGo with
  | true => exact .inl ⟨rfl, launch_ignored hg k⟩
  | false =>
    cases ha : s.acceptError k with
    | some e => exact .inr (.inl ⟨rfl, e, rfl, launch_refused hg ha⟩)
    | none =>
      cases ho : s.overSideEffects k with
      | true => refine .inr (.inr (.inl ⟨rfl, rfl, rfl, ?_⟩)); unfold State.launch; rw [hg, ha, ho]; rfl
      | false =>
        cases hu : s.unsafeK with
        | true =>
          refine .inr (.inr (.inr (.inl ⟨rfl, rfl, rfl, rfl, ?_⟩))); unfold State.launch; rw [hg, ha, ho, hu]; rfl
        | false => exact .inr (.inr (.inr (.inr ⟨rfl, rfl, rfl, rfl, launch_accepted hg ha ho hu⟩)))

/-- A run that answers has completed its command. -/
theorem runEngine_done {s t : State} {n : Nat} : ∀ {e : Engine} {m : Memory}, s.RunAt e m → s.remaining e = n →
    (s.at e m).runEngine n = .ok t → t.status = .done := by
  induction n with
  | zero =>
    intro e m h hn
    exfalso
    have h1 := h.row
    have h2 := h.col
    unfold State.remaining at hn
    have : s.inner e.kernel + 1 ≤ (s.outer e.kernel - e.row) * (s.inner e.kernel + 1) :=
      Nat.le_mul_of_pos_left _ (by omega)
    omega
  | succ n ih =>
    intro e m h hn ht
    simp only [State.runEngine] at ht
    split at ht
    · cases ht
    · next s1 h1 =>
      rcases engineOp_at h h1 with ⟨e', m', rfl, -, h', hrem⟩ | ⟨m', rfl, -, hrem⟩
      · exact ih h' (by omega) ht
      · obtain rfl : n = 0 := by omega
        cases ht; rfl

/-- Every next state a decoded command can answer: the same state, a refusal, or an accepted command (R132). -/
theorem launch_next {s t : State} {k : Kernel} (h : s.launch k = .next t) :
    (s.status.ignoresGo = true ∧ t = s)
      ∨ (s.status.ignoresGo = false ∧ ∃ c, s.acceptError k = some c ∧ t = s.refuse c)
      ∨ (s.status.ignoresGo = false ∧ s.acceptError k = none ∧ s.params.visibleBusy = true ∧ t = s.accept k)
      ∨ (s.status.ignoresGo = false ∧ s.acceptError k = none ∧ s.params.visibleBusy = false
          ∧ (s.accept k).runEngine (s.opCount k) = .ok t ∧ EngineFrame s t ∧ t.status = .done) := by
  rcases launch_cases s k with ⟨g, c⟩ | ⟨g, e, he, c⟩ | ⟨-, -, -, c⟩ | ⟨-, -, -, -, c⟩ | ⟨g, ha, -, -, c⟩ <;> rw [c] at h
  · cases h; exact .inl ⟨g, rfl⟩
  · cases h; exact .inr (.inl ⟨g, e, he, rfl⟩)
  · cases h
  · cases h
  · unfold State.runCommand at h
    split at h
    · next hv => cases h; exact .inr (.inr (.inl ⟨g, ha, hv, rfl⟩))
    · next hv =>
      unfold toOutcome at h
      split at h
      · next hh =>
        cases h
        exact .inr (.inr (.inr ⟨g, ha, by simpa using hv, hh, (EngineFrame.withStatus _ _).trans (runEngine_ok hh),
          runEngine_done (runAt_start ha) (remaining_start s k) hh⟩))
      · cases h

/-- `GO` is the command its word decodes to (R132, R133). -/
theorem go_eq_launch {s : State} {k : Kernel} (h : decodeCommand s.regs.cmd = .ok k) : s.go = s.launch k := by
  unfold State.go
  cases hg : s.status.ignoresGo with
  | true => rw [launch_ignored hg]; rfl
  | false => rw [h]; rfl

/-- `GO` with an illegal command word (R134). -/
theorem go_illegal {s : State} {x : DecodeError} (hg : s.status.ignoresGo = false)
    (h : decodeCommand s.regs.cmd = .error x) : s.go = .next (s.refuse .arg) := by
  unfold State.go; rw [hg, h]; rfl

/-- `GO` where it is ignored (R132). -/
theorem go_ignored {s : State} (hg : s.status.ignoresGo = true) : s.go = .next s := by
  unfold State.go; rw [hg]; rfl

theorem takesGo_iff (s : State) : s.TakesGo ↔ s.status.ignoresGo = false := by
  unfold State.TakesGo; cases s.status <;> simp [Status.ignoresGo]

/-- The meanings of the kernel commands are one operation. -/
theorem exec_kernel (k : Kernel) (s : State) : exec k.toInstr s = s.launch k := by cases k <;> rfl

theorem exec_go (s : State) : exec .go s = s.go := rfl

/-! ### One step -/

theorem step_run {s s' : State} {i : Instr} (h : s.nextAction = .run i s') : step s = exec i s' := by
  unfold step; rw [h]

theorem step_answer {s : State} {o : Host.Outcome State Fault Refusal} (h : s.nextAction = .answer o) : step s = o := by
  unfold step; rw [h]

theorem step_nil {s : State} (h : s.pending = []) : step s = engineStep s :=
  step_answer (by unfold State.nextAction; rw [h])

theorem step_access {s : State} {a : BusAccess} {rest : List HostEvent} {i : Instr} (h : s.pending = .access a :: rest)
    (hd : decodeAccess s.params.regBase a = .ok i) : step s = exec i (s.withPending rest) :=
  step_run (by unfold State.nextAction; rw [h]; simp only; rw [hd])

theorem step_bad_access {s : State} {a : BusAccess} {rest : List HostEvent} {x : DecodeError}
    (h : s.pending = .access a :: rest) (hd : decodeAccess s.params.regBase a = .error x) :
    step s = .refused .badRegisterAccess :=
  step_answer (by unfold State.nextAction; rw [h]; simp only; rw [hd])

theorem step_wait {s : State} {rest : List HostEvent} (h : s.pending = .wait :: rest) : step s = waitStep rest s :=
  step_answer (by unfold State.nextAction; rw [h])

theorem step_engine {s : State} {rest : List HostEvent} (h : s.pending = .engine :: rest) :
    step s = engineStep (s.withPending rest) :=
  step_answer (by unfold State.nextAction; rw [h])

theorem step_memRead {s : State} {a : Nat} {rest : List HostEvent} (h : s.pending = .memRead a :: rest) :
    step s = hostMemRead a (s.withPending rest) :=
  step_answer (by unfold State.nextAction; rw [h])

theorem step_memWrite {s : State} {a : Nat} {b : Byte} {rest : List HostEvent} (h : s.pending = .memWrite a b :: rest) :
    step s = hostMemWrite a b (s.withPending rest) :=
  step_answer (by unfold State.nextAction; rw [h])

theorem step_reset {s : State} {rest : List HostEvent} (h : s.pending = .reset :: rest) :
    step s = .next (s.withPending rest).platformReset :=
  step_answer (by unfold State.nextAction; rw [h])

/-- The step of an engine turn that answers. -/
theorem engineStep_next {s t : State} : engineStep s = .next t ↔ s.engineTurn = .ok t := by
  unfold engineStep toOutcome
  cases s.engineTurn <;> simp

/-- What a host read of the data space answers (R72). -/
theorem hostMemRead_next {a : Nat} {s t : State} (h : hostMemRead a s = .next t) :
    ∃ b, s.mem.read a = some b ∧ t = s.withMemData b ∧ s.addressFault a = none ∧ s.inBusyOutput a = false
      ∧ s.isUnsynced a = false := by
  unfold hostMemRead at h
  split at h
  · cases h
  · next hf =>
    split at h
    · cases h
    · split at h
      · cases h
      · next h1 =>
        split at h
        · cases h
        · next h2 =>
          split at h
          · cases h
          · next b hb => cases h; exact ⟨b, hb, rfl, hf, by simpa using h1, by simpa using h2⟩

/-- What a host write of the data space answers (R86). -/
theorem hostMemWrite_next {a : Nat} {b : Byte} {s t : State} (h : hostMemWrite a b s = .next t) :
    t = (s.withMem (s.mem.write a b)).withUnsynced (s.unsynced.release a) ∧ s.addressFault a = none
      ∧ s.inBusyBuffers a = false ∧ s.inLatestOutput a = false := by
  unfold hostMemWrite at h
  split at h
  · cases h
  · next hf =>
    split at h
    · cases h
    · split at h
      · cases h
      · next h1 =>
        split at h
        · cases h
        · next h2 => cases h; exact ⟨rfl, hf, by simpa using h1, by simpa using h2⟩

/-- What the meaning of `REG.WR` answers (R131). -/
theorem execRegWr_cases (o : BitVec 8) (d : Word64) (s : State) :
    (offsetAligned o = false ∧ execRegWr o d s = .refused .badRegisterAccess)
      ∨ (offsetAligned o = true ∧ regAt o = .ctrl ∧ d.getLsbD 0 = true ∧ execRegWr o d s = s.go)
      ∨ (offsetAligned o = true ∧ regAt o = .ctrl ∧ d.getLsbD 0 = false ∧ execRegWr o d s = .next s)
      ∨ (offsetAligned o = true ∧ regAt o ≠ .ctrl ∧ execRegWr o d s = .next (s.writeReg (regAt o) d)) := by
  unfold execRegWr
  cases offsetAligned o with
  | false => exact .inl ⟨rfl, rfl⟩
  | true =>
    by_cases hc : regAt o = .ctrl
    · cases hd : d.getLsbD 0 with
      | true => exact .inr (.inl ⟨rfl, hc, rfl, by simp [hc]⟩)
      | false => exact .inr (.inr (.inl ⟨rfl, hc, rfl, by simp [hc]⟩))
    · exact .inr (.inr (.inr ⟨rfl, hc, by simp [hc]⟩))

end Sys2Proof.Machine
end

