-- ==== Sys2Proof/Laws/Step.lean ====
section
/-! SUPPORT. Everything one step that answers a next state can do. -/

namespace Sys2Proof.Machine

/-- What the decoder of register accesses answers: never a kernel command, and never the write that is `GO` under the
name `REG.WR` (R31, R107). -/
theorem decodeBus_ok {offset width : Nat} {write : Bool} {data : Word64} {i : Instr}
    (h : decodeBus offset width write data = .ok i) :
    i = .go ∨ (∃ o, i = .regRd o ∧ offsetAligned o = true)
      ∨ (∃ o d, i = .regWr o d ∧ offsetAligned o = true ∧ isGoWrite o d = false) := by
  unfold decodeBus at h
  split at h
  · cases h
  · next h1 =>
    split at h
    · cases h
    · split at h
      · cases h
      · next h3 =>
        have hal : offsetAligned (BitVec.ofNat 8 offset) = true := by
          unfold offsetAligned
          rw [beq_iff_eq, BitVec.toNat_ofNat]
          simp only [Config.regBlockSize] at h1
          omega
        split at h
        · split at h
          · cases h; exact .inl rfl
          · next hg => cases h; exact .inr (.inr ⟨_, _, rfl, hal, by simpa using hg⟩)
        · cases h; exact .inr (.inl ⟨_, rfl, hal⟩)

theorem decodeAccess_ok {base : Nat} {a : BusAccess} {i : Instr} (h : decodeAccess base a = .ok i) :
    i = .go ∨ (∃ o, i = .regRd o ∧ offsetAligned o = true)
      ∨ (∃ o d, i = .regWr o d ∧ offsetAligned o = true ∧ isGoWrite o d = false) := by
  unfold decodeAccess at h
  split at h
  · cases h
  · exact decodeBus_ok h

/-- `u` has the parameters, registers, status and memory of `s`: it may differ in what the host was given back, in the
events still to come and in the ranges that wait for the host's read of `DONE`. -/
structure SameBlock (u s : State) : Prop where
  setup : SameSetup u s
  status : u.status = s.status
  mem : u.mem = s.mem

theorem SameBlock.withPending (s : State) (p : List HostEvent) : SameBlock (s.withPending p) s := ⟨⟨rfl, rfl⟩, rfl, rfl⟩

theorem SameBlock.busRead (s : State) (r : Reg) : SameBlock (s.busRead r) s :=
  ⟨⟨busRead_params s r, busRead_regs s r⟩, busRead_status s r, busRead_mem s r⟩

theorem SameBlock.trans {a b c : State} (h : SameBlock a b) (g : SameBlock b c) : SameBlock a c :=
  ⟨h.setup.trans g.setup, h.status.trans g.status, h.mem.trans g.mem⟩

/-- Everything a step that answers can do: nothing to the block; a turn of the engine, where the next event gives it one; a `GO`; a register stored, not
while `BUSY`; a byte written by the host, outside a running command's buffers; a reset. -/
theorem step_cases {s t : State} (h : step s = .next t) :
    SameBlock t s
      ∨ (∃ u, SameBlock u s ∧ s.EngineMoves ∧ u.engineTurn = .ok t)
      ∨ (∃ a rest, s.pending = .access a :: rest ∧ decodeAccess s.params.regBase a = .ok .go
          ∧ (s.withPending rest).go = .next t)
      ∨ (∃ rest r, s.status.isBusy = false ∧ t = (s.withPending rest).withRegs r)
      ∨ (∃ rest a b, s.pending = .memWrite a b :: rest
          ∧ t = ((s.withPending rest).withMem (s.mem.write a b)).withUnsynced (s.unsynced.release a)
          ∧ s.addressFault a = none ∧ s.inBusyBuffers a = false)
      ∨ (∃ rest, s.pending = .reset :: rest ∧ t = (s.withPending rest).platformReset) := by
  cases hp : s.pending with
  | nil => rw [step_nil hp, engineStep_next] at h; exact .inr (.inl ⟨s, ⟨.refl s, rfl, rfl⟩, .inl hp, h⟩)
  | cons ev rest =>
    have hs' := SameBlock.withPending s rest
    cases ev with
    | access a =>
      cases hd : decodeAccess s.params.regBase a with
      | error x => rw [step_bad_access hp hd] at h; cases h
      | ok i =>
        rw [step_access hp hd] at h
        rcases decodeAccess_ok hd with rfl | ⟨o, rfl, hal⟩ | ⟨o, d, rfl, hal, hg⟩
        · exact .inr (.inr (.inl ⟨a, rest, rfl, hd, h⟩))
        · have h' : execRegRd o (s.withPending rest) = .next t := h
          unfold execRegRd at h'
          rw [if_pos hal] at h'
          cases h'
          exact .inl ((SameBlock.busRead _ _).trans hs')
        · have h' : execRegWr o d (s.withPending rest) = .next t := h
          rcases execRegWr_cases o d (s.withPending rest) with ⟨c, -⟩ | ⟨-, c1, c2, -⟩ | ⟨-, -, -, c⟩ | ⟨-, -, c⟩
          · rw [hal] at c; cases c
          · exfalso
            have ho : o = 0x48#8 := by
              clear * - c1
              revert c1; revert o; decide
            subst ho
            unfold isGoWrite at hg
            rw [c2] at hg
            simp at hg
          · rw [c] at h'; cases h'; exact .inl hs'
          · rw [c] at h'; cases h'
            rcases writeReg_cases (s.withPending rest) (regAt o) d with ⟨-, hw⟩ | ⟨hb, hw⟩
            · rw [hw]; exact .inl hs'
            · rw [hw]; exact .inr (.inr (.inr (.inl ⟨rest, _, hb, rfl⟩)))
    | wait =>
      rw [step_wait hp] at h
      unfold waitStep at h
      split at h
      · rw [engineStep_next] at h; exact .inr (.inl ⟨_, SameBlock.busRead s .status, .inr (.inr ⟨rest, hp⟩), h⟩)
      · cases h; exact .inl ((SameBlock.withPending _ _).trans (SameBlock.busRead s .status))
    | engine => rw [step_engine hp, engineStep_next] at h; exact .inr (.inl ⟨_, hs', .inr (.inl ⟨rest, hp⟩), h⟩)
    | memRead a =>
      rw [step_memRead hp] at h
      obtain ⟨b, -, rfl, -⟩ := hostMemRead_next h
      exact .inl ⟨⟨rfl, rfl⟩, rfl, rfl⟩
    | memWrite a b =>
      rw [step_memWrite hp] at h
      obtain ⟨rfl, h1, h2, -⟩ := hostMemWrite_next h
      exact .inr (.inr (.inr (.inr (.inl ⟨rest, a, b, rfl, rfl, h1, h2⟩))))
    | reset => rw [step_reset hp] at h; cases h; exact .inr (.inr (.inr (.inr (.inr ⟨rest, rfl, rfl⟩))))

end Sys2Proof.Machine
end

