-- ==== Sys2Proof/Laws/Unsynced.lean ====
section
/-! SUPPORT. Which bytes the host has been promised (R79; log 11): one lemma per operation on the record. -/

namespace Sys2Proof.Machine

/-- The bytes of a range with another taken out of it. -/
theorem Region.minus_contains (p q : Region) (a : Nat) :
    (p.minus q).any (fun r => r.contains a) = (p.contains a && !q.contains a) := by
  rw [Bool.eq_iff_iff]
  simp only [Region.minus, List.any_filter, List.any_cons, List.any_nil, Bool.or_false, Bool.or_eq_true,
    Bool.and_eq_true, bne_iff_ne, Bool.not_eq_true', ← Bool.not_eq_true, Region.contains_iff, Region.Has]
  omega

theorem minus_all_contains (rs : List Region) (q : Region) (a : Nat) :
    (rs.flatMap (fun p => p.minus q)).any (fun r => r.contains a)
      = (rs.any (fun r => r.contains a) && !q.contains a) := by
  induction rs with
  | nil => rfl
  | cons r rs ih =>
    rw [List.flatMap_cons, List.any_append, List.any_cons, Region.minus_contains, ih, Bool.and_or_distrib_right]

/-- A completed command's range is held back, beside what was. -/
theorem Unsynced.push_regions (u : Unsynced) (r : Region) : (u.push r).regions = r :: u.regions := rfl

/-- The read of `DONE` for a range promises its bytes and no other. -/
theorem Unsynced.settle_contains {u : Unsynced} {r : Region} (h : u.latest = some r) (a : Nat) :
    u.settle.regions.any (fun q => q.contains a) = (u.regions.any (fun q => q.contains a) && !r.contains a) := by
  simp only [Unsynced.settle, Unsynced.regions, h, Option.toList, List.nil_append, List.cons_append, List.any_cons,
    minus_all_contains]
  cases r.contains a <;> simp

/-- A second read of the same `DONE` promises nothing more. -/
theorem Unsynced.settle_settle (u : Unsynced) : u.settle.settle = u.settle := by
  obtain ⟨l, o⟩ := u
  cases l <;> rfl

/-- The host's own value releases its byte and no other, where the last command's output does not hold it. -/
theorem Unsynced.release_contains {u : Unsynced} {a : Nat} (h : u.latest.any (fun r => r.contains a) = false) (x : Nat) :
    (u.release a).regions.any (fun r => r.contains x) = (u.regions.any (fun r => r.contains x) && !decide (x = a)) := by
  have h1 : (⟨a, 1⟩ : Region).contains x = decide (x = a) := by
    rw [Bool.eq_iff_iff, Region.contains_iff, decide_eq_true_eq]; show a ≤ x ∧ x < a + 1 ↔ x = a; omega
  obtain ⟨l, o⟩ := u
  simp only [Unsynced.release, Unsynced.regions, List.any_append, minus_all_contains, h1, Bool.and_or_distrib_right]
  cases l with
  | none => rfl
  | some r =>
    have hr : r.contains a = false := h
    by_cases hx : x = a
    · subst hx; simp [hr]
    · simp [hx]

/-- A reset releases nothing. -/
theorem Unsynced.afterReset_regions (u : Unsynced) : u.afterReset.regions = u.regions := rfl

end Sys2Proof.Machine
end

