-- ==== Sys2Proof/Tests/Slice0.lean ====
section
/-! SUPPORT. The model's own tests: ill-formed terms refused, every constructor's word decoded, the spec's vectors, and a
witness for the hypotheses of each statement that has some. -/

namespace Sys2Proof.Tests

open Sys2Proof.Machine

-- The tests are checked one after another: each that waits for the kernel would hold a thread's stack.
set_option Elab.async false

/-! ## Well-formedness: an ill-formed term for each check -/

theorem test_wf_regRd_misaligned_refused : (Instr.regRd 0x14).wf = false := by decide
theorem test_wf_regWr_misaligned_refused : (Instr.regWr 0x0C 1).wf = false := by decide
theorem test_wf_regWr_go_is_not_regWr : (Instr.regWr 0x48 1).wf = false := by decide
theorem test_wf_regWr_ctrl_zero : (Instr.regWr 0x48 2).wf = true := by decide

/-! ## Decoding: the words of R103 and of the triples of P1 (`95_test_vectors.md`), in log 3's layout -/

theorem test_decode_scalar : decodeTableWord 64 0x0 = some .scalar := by decide
theorem test_decode_dotprod : decodeTableWord 64 0x1 = some .dotprod := by decide
theorem test_decode_dotprod4 : decodeTableWord 64 0x2 = some .dotprod4 := by decide
theorem test_decode_dotprod4i : decodeTableWord 64 0x3 = some .dotprod4i := by decide
theorem test_decode_reserved_kernel : decodeTableWord 64 0x4 = none ∧ decodeTableWord 64 0x7 = none := by decide
theorem test_decode_reserved_bits : decodeTableWord 64 0x8 = none ∧ decodeTableWord 64 0x8000000000000001 = none := by
  decide
/-- `GO`: (0x48, W, 0x1), and with ignored data bits (0x48, W, 0x3). -/
theorem test_decode_go : decodeBytes .bus [0x48, 1, 1, 0, 0, 0, 0, 0, 0, 0] = .ok .go
    ∧ decodeBytes .bus [0x48, 1, 3, 0, 0, 0, 0, 0, 0, 0x80] = .ok .go := ⟨rfl, rfl⟩
/-- `RD STATUS`: (0x50, R). -/
theorem test_decode_regRd : decodeBytes .bus [0x50, 0, 0, 0, 0, 0, 0, 0, 0, 0] = .ok (.regRd 0x50) := rfl
/-- `WR X_BASE, 0x2000`: (0x38, W, 0x2000). -/
theorem test_decode_regWr :
    decodeBytes .bus [0x38, 1, 0x00, 0x20, 0, 0, 0, 0, 0, 0] = .ok (.regWr 0x38 0x2000) := rfl
theorem test_decode_misaligned : decodeBytes .bus [0x14, 0, 0, 0, 0, 0, 0, 0, 0, 0] = .error .misalignedOffset := rfl
theorem test_decode_short : decodeBytes .bus [0x10, 0] = .error .wrongLength := rfl
theorem test_decode_narrow_access : decodeAccess 0x1000 ⟨0x1010, 4, false, 0⟩ = .error .wrongWidth := rfl
theorem test_decode_outside : decodeAccess 0x1000 ⟨0x1100, 8, false, 0⟩ = .error .outsideBlock := rfl
theorem test_encode_regWr : encode (.regWr 0x38 0x2000) = [0x38, 1, 0x00, 0x20, 0, 0, 0, 0, 0, 0] := by decide

/-! ## Arithmetic (table 2.1) -/

theorem test_prod : prod 0x80 0x80 = 16384 ∧ prod 0x80 0x7F = -16256 ∧ prod 0x7F 0x7F = 16129
    ∧ prod 0xFF 0x01 = -1 ∧ prod 0x00 0x80 = 0 := by decide
theorem test_wrap32 : wrap32 (2 ^ 31) = -2147483648 ∧ wrap32 (-2 ^ 31 - 1) = 2147483647 ∧ wrap32 (2 ^ 32 + 5) = 5 := by
  decide

def tableWv : List Byte := [1, -1, 2, -2, 3, -3, 4, -4, 127, -128, 127, -128, 0, 0, 0, 5]
def tableXv : List Byte := [1, 1, 1, 1, 2, 2, 2, 2, 127, -128, -128, 127, 9, 9, 9, -3]

theorem test_dot16 : dot16 Lanes.zero tableWv tableXv = ⟨0, 0, 1, -15⟩ ∧ (hsum (dot16 Lanes.zero tableWv tableXv)).toInt = -14 := by
  decide
theorem test_dot16_wraps :
    dot16 ⟨2147483647, 0, -2147483648, 5⟩ tableWv tableXv = ⟨2147483647, 0, -2147483647, -10⟩
      ∧ (hsum (dot16 ⟨2147483647, 0, -2147483648, 5⟩ tableWv tableXv)).toInt = -10 := by decide

/-! ## Layouts (table 2.7, `n = 5, k = 33`) and companions (tables 2.8 and 1) -/

theorem test_layout_addresses :
    rpOffset 48 3 17 = 161 ∧ b4Offset 48 3 17 = 161 ∧ i4Offset 48 3 17 = 113 ∧ i4Offset 48 1 0 = 16
      ∧ i4Offset 48 4 0 = 192 ∧ rpOffset 48 4 32 = 224 ∧ i4Offset 48 4 32 = 320 ∧ i4Offset 48 7 47 = 383
      ∧ b4Offset 48 7 47 = 383 := by decide
theorem test_generator_first : genStep 1 = 0x0000000040822041 ∧ genStep 0x1234 = 0x000004843C621F10 := by decide
theorem test_generator_bytes :
    genSequence 1 8 = [-64, -12, -110, -85, -16, -101, -107, -20]
      ∧ genSequence 0x1234 8 = [60, 81, 63, -43, -119, 69, 105, -58] ∧ genSequence 0 4 = [0, 0, 0, 0] := by decide
theorem test_validate :
    validate [33197, -17406, 27755, 0] [33197, -18406, 27755, -7432] 4
        = ⟨2, 7432, [(1, -17406, -18406), (3, 0, -7432)]⟩
      ∧ validate [2147483647] [-2147483648] 1 = ⟨1, 4294967295, [(0, 2147483647, -2147483648)]⟩ := by decide
theorem test_validate_first_five :
    validate [1, 2, 3, 4, 5, 6, 7, 0] [0, 0, 0, 0, 0, 0, 0, 0] 8
      = ⟨7, 7, [(0, 1, 0), (1, 2, 0), (2, 3, 0), (3, 4, 0), (4, 5, 0)]⟩ := by decide

/-! ## A small machine -/

/-- What an outcome leaves, and the reset state where it is no next state. -/
def after : Host.Outcome State Fault Refusal → State
  | .next s => s
  | _ => State.reset

def isNext : Host.Outcome State Fault Refusal → Bool
  | .next _ => true
  | _ => false

def isFault : Host.Outcome State Fault Refusal → Option Fault
  | .fault f => some f
  | _ => none

def isRefused : Host.Outcome State Fault Refusal → Option Refusal
  | .refused r => some r
  | _ => none

theorem next_after {o : Host.Outcome State Fault Refusal} (h : isNext o = true) : o = .next (after o) := by
  cases o with
  | next s => rfl
  | fault f => cases h
  | refused r => cases h

/-- The data of table 2.4's "one product": `n = 1, k = 1`, weights at 0 (64 bytes), input at 64, output at 128. -/
def demoMem : Memory :=
  (List.range 80).map (fun a => (a, if a = 0 then 0x05 else if a = 64 then 0xFD else 0))

def demoRegs (k : Kernel) : Regs := ⟨k.code, 1, 1, 2, 0, 64, 128⟩

def demo (k : Kernel) : State := ((State.reset).withRegs (demoRegs k)).withMem demoMem

def demoWith (k : Kernel) (p : Params) : State := { demo k with params := p }

def word (s : State) (a : Nat) : List (Option Byte) := (List.range 4).map (fun i => s.mem.read (a + i))

theorem test_scalar_one_product : word (after (exec .scalar (demo .scalar))) 128 = [some 0xF1, some 0xFF, some 0xFF, some 0xFF] := by
  decide +kernel
theorem test_dotprod_one_product :
    word (after (exec .dotprod (demo .singleRow))) 128 = [some 0xF1, some 0xFF, some 0xFF, some 0xFF] := by decide +kernel
theorem test_dotprod4_one_product :
    word (after (exec .dotprod4 (demo .fourRowBlocked))) 128 = [some 0xF1, some 0xFF, some 0xFF, some 0xFF]
      ∧ word (after (exec .dotprod4 (demo .fourRowBlocked))) 132 = [none, none, none, none] := by decide +kernel
theorem test_dotprod4i_one_product :
    word (after (exec .dotprod4i (demo .fourRowInterleaved))) 128 = [some 0xF1, some 0xFF, some 0xFF, some 0xFF] := by
  decide +kernel

/-- Scenario A's rows (L1-A), `n = 4, k = 20`. -/
def rowsA : List Byte :=
  [0x3C, 0x51, 0x3F, 0xD5, 0x89, 0x45, 0x69, 0xC6, 0x73, 0x0F, 0x07, 0xBF, 0xDC, 0x3E, 0x97, 0x05, 0x7E, 0x6B, 0x82, 0x6D,
   0xE9, 0xA7, 0xDF, 0x3F, 0x72, 0x82, 0x99, 0x7C, 0x39, 0x2B, 0x73, 0xD7, 0xE2, 0x7C, 0x29, 0xDF, 0xF6, 0x56, 0xDC, 0x19,
   0x9D, 0xF4, 0xF5, 0x5D, 0xB4, 0x77, 0xFA, 0xDD, 0xFC, 0x55, 0x87, 0xE0, 0x0C, 0x16, 0xF8, 0x6F, 0x8E, 0xDE, 0x8A, 0xBD,
   0x18, 0xEE, 0x48, 0xC3, 0x62, 0xF4, 0x58, 0xF0, 0xCC, 0x58, 0x81, 0xB5, 0x93, 0x52, 0x1D, 0xE6, 0xC6, 0x60, 0x8D, 0x7E]

def inputA : List Byte :=
  [0x86, 0x31, 0x82, 0xB3, 0x8C, 0xE7, 0xA3, 0xC9, 0x5D, 0xC5, 0xA7, 0xEB, 0x0F, 0xB1, 0x83, 0x22, 0xBD, 0x78, 0xD3, 0x42,
   0, 0, 0, 0, 0, 0, 0, 0, 0, 0, 0, 0]

/-- The generator and the interleaved packer give Scenario A's data (L1-A). -/
theorem test_generator_scenarioA : genMatrix 0x1234 4 20 = rowsA ∧ genInput 0x9abc 20 = inputA := by decide +kernel

def cellsAt (base : Nat) (bs : List Byte) : Memory := bs.zipIdx.map (fun p => (base + p.2, p.1))

/-- Scenario A with the weights at 0 packed for a kernel, the input at 128, the output at 192. -/
def scenarioA (k : Kernel) : State :=
  ((State.reset).withRegs ⟨k.code, 4, 20, 2, 0, 128, 192⟩).withMem (cellsAt 0 (packFor k rowsA 4 20) ++ cellsAt 128 inputA)

/-- Scenario A's output, from two kernels with different layouts: `[33197, -18406, 27755, -7432]`. -/
theorem test_scenarioA_dotprod :
    (word (after (exec .dotprod (scenarioA .singleRow))) 192, word (after (exec .dotprod (scenarioA .singleRow))) 204)
      = ([some 0xAD, some 0x81, some 0, some 0], [some 0xF8, some 0xE2, some 0xFF, some 0xFF]) := by decide +kernel
theorem test_scenarioA_dotprod4i :
    (word (after (exec .dotprod4i (scenarioA .fourRowInterleaved))) 192,
      word (after (exec .dotprod4i (scenarioA .fourRowInterleaved))) 196)
      = ([some 0xAD, some 0x81, some 0, some 0], [some 0x1A, some 0xB8, some 0xFF, some 0xFF]) := by decide +kernel

/-! ## Register accesses (table 2.2) -/

def readAfterReset (o : BitVec 8) : Word64 := (after (exec (.regRd o) State.reset)).busData

theorem test_reads_after_reset :
    [0x00, 0x08, 0x10, 0x18, 0x20, 0x28, 0x30, 0x38, 0x40, 0x48, 0x50, 0x58, 0xF8].map readAfterReset
      = [1, 2, 1024, 1024, 1024, 2, 0, 0, 0, 0, 0, 0, 0] := by decide
theorem test_read_misaligned_refused : isRefused (exec (.regRd 0x14) State.reset) = some .badRegisterAccess := by decide

def kpadAfter (d : Word64) : Word64 := (after (exec (.regRd 0x20) (after (exec (.regWr 0x18 d) State.reset)))).busData

theorem test_kpad_follows_k :
    [1, 15, 16, 17, 20, 0x7FFFFFFF, 0, 0xFFFFFFFFFFFFFFF1].map kpadAfter = [16, 16, 16, 32, 32, 0x80000000, 0, 0] := by
  decide
theorem test_write_cap_and_kpad_ignored :
    (after (exec (.regWr 0x00 0) State.reset)).readReg .cap = 1
      ∧ (after (exec (.regWr 0x20 5) State.reset)).readReg .kpad = 1024 := by decide

/-! ## Acceptance (table 2.3) -/

/-- The table's base configuration. -/
def base : Regs := ⟨0, 4, 20, 2, 0x1000, 0x2000, 0x3000⟩

/-- The code `GO` refuses with, `hasDotprod` given. -/
def verdict (r : Regs) (cap : Bool) : Word64 :=
  (after (exec .go (((State.reset).withCapability cap).withRegs r))).statusWord

theorem test_go_err_arg :
    [verdict { base with cmd := 4 } true, verdict { base with cmd := 8 } true, verdict { base with n := 0 } true,
      verdict { base with k := 0x80000000 } true, verdict { base with n := 0, cmd := 1, xBase := 0x2010 } false]
      = [0x13, 0x13, 0x13, 0x13, 0x13] := by decide
theorem test_go_err_cap_align_range :
    [verdict { base with cmd := 1 } false, verdict { base with cmd := 1, xBase := 0x2010 } false,
      verdict { base with xBase := 0x2010 } true, verdict { base with yBase := 0x1040 } true,
      verdict { base with wBase := 0xFFFFFFFFFFFFFFC0 } true, verdict Regs.reset true]
      = [0x23, 0x23, 0x33, 0x43, 0x43, 0x43] := by decide
theorem test_go_adjacent_and_overlapping_inputs_accepted :
    (((State.reset).withRegs { base with yBase := 0x1080 }).acceptError .scalar = none)
      ∧ (((State.reset).withRegs { base with xBase := 0x1000 }).acceptError .scalar = none) := by decide

/-! ## Single steps -/

/-- P4: after reset, `GO` is refused with `ERR_RANGE`; a platform reset leaves `ERROR`. -/
theorem test_step_go_at_reset :
    (after (step ((State.reset).withFetchWord 80 0x10148))).statusWord = 0x43
      ∧ (after (step (((State.reset).refuse .range).withPending [.reset]))).statusWord = 0 := by decide
theorem test_step_command_word :
    (after (step ((demo .scalar).withFetchWord 64 1))).statusWord = 2
      ∧ (after (step ((demo .scalar).withFetchWord 64 1))).regs.cmd = 1 := by decide +kernel
theorem test_step_bad_access_refused :
    isRefused (step ((State.reset).withPending [.access ⟨0x10, 4, true, 7⟩])) = some .badRegisterAccess := by decide

/-- A running command of `demo`, just accepted. -/
def busyDemo (k : Kernel) : State := (demo k).accept k

theorem test_busy_buffers_fault :
    isFault (step ((busyDemo .scalar).withPending [.memWrite 64 1])) = some (.busyBuffer 64)
      ∧ isFault (step ((busyDemo .scalar).withPending [.memRead 128])) = some (.busyBuffer 128)
      ∧ (after (step ((busyDemo .scalar).withPending [.memRead 64]))).memData = 0xFD := by decide +kernel
theorem test_reset_abandons_output :
    (after (step (((busyDemo .scalar).withMem (demoMem ++ [(128, 9)])).withPending [.reset]))).mem.read 128 = none := by
  decide +kernel
theorem test_unwritten_faults :
    isFault (exec .scalar ((demo .scalar).withMem (demoMem.take 79))) = some (.unwritten 79) := by decide +kernel

/-- A placed word with a direction that is neither `R` nor `W` is no instruction, and its step is refused (log 3). -/
theorem test_bad_direction_refused : decodeTableWord 80 0x250 = none
    ∧ isRefused (step ((State.reset).withFetchWord 80 0x250)) = some .badRegisterAccess := by decide

/-- Two commands, `STATUS` read as `DONE` once, twice: the last command's output is read, the rest of an earlier one's is
still held back (R79; log 11). -/
theorem test_done_read_twice :
    let s := (demo .scalar).withUnsynced ⟨some ⟨130, 4⟩, [⟨120, 9⟩]⟩
    let t := after (exec (.regRd 0x50) (after (exec .scalar s)))
    t.unsynced = ⟨none, [⟨132, 2⟩, ⟨120, 8⟩]⟩ ∧ after (exec (.regRd 0x50) t) = t
      ∧ (after (step (t.withPending [.memRead 130]))).memData = 0xFF
      ∧ isFault (step (t.withPending [.memRead 133])) = some (.unsyncedOutput 133)
      ∧ (after (step (t.withPending [.memWrite 133 7]))).unsynced.older = [⟨132, 1⟩, ⟨120, 8⟩] := by decide +kernel

/-- A reset after a completed command keeps its output (R251). -/
theorem test_reset_keeps_output :
    (after (step ((after (exec .scalar (demo .scalar))).withPending [.reset]))).mem.read 128 = some 0xF1 := by
  decide +kernel

/-- An empty range of side-effect memory lies under no buffer (log 14). -/
theorem test_empty_side_effect_range :
    (demoWith .scalar { Config.resetParams with sideEffects := [⟨8, 0⟩] }).overSideEffects .scalar = false := by decide

/-! ## The driver (R209, R210, R254) -/

def driverPlacement : Placement := ⟨0, 64, 128, 192, 256, 320, 384⟩

/-- `n = 1, k = 1`, the weight a file of one byte 0x3C, checked: the validator finds nothing, the exit code is 0. -/
theorem test_driver_checked :
    driverRun 300 { n := 1, k := 1, iterations := 2, kernel := .fourRowInterleaved, check := true, weights := some [0x3C] }
        1 2 (some driverPlacement) State.reset = .exited 0 (some ⟨0, 0, []⟩) := by decide +kernel

/-- An unaligned allocation is a failed one; a weight file of the wrong length ends the driver (R210). -/
theorem test_driver_errors :
    driverRun 300 { n := 1, k := 1 } 1 2 (some { driverPlacement with x := 200 }) State.reset = .exited 1 none
      ∧ driverRun 300 { n := 1, k := 1, weights := some [1, 2] } 1 2 (some driverPlacement) State.reset = .exited 1 none := by
  decide +kernel

/-- A driver without a step to spend has not seen `CAP` yet (log 23). -/
theorem test_driver_without_steps :
    driverRun 0 { n := 1, k := 1 } 1 2 (some driverPlacement) State.reset = .unfinished := by decide

/-- A host read of the weights leaves the command `BUSY` (R34). -/
theorem test_busy_until_engine_moves :
    ((after (step ((busyDemo .scalar).withPending [.memRead 0]))).status.isBusy) = true := by decide +kernel

/-! ## Witnesses: concrete states and operands that meet the hypotheses of the statements -/

/-- A region's addresses, one by one. -/
theorem forall_has {r : Region} {P : Nat → Prop} (h : ∀ i, i < r.size → P (r.base + i)) : ∀ a, r.Has a → P a := by
  intro a ha
  have := h (a - r.base) (by have := ha.1; have := ha.2; omega)
  rwa [show r.base + (a - r.base) = a by have := ha.1; omega] at this

/-- Readable, as a check. -/
def readable (s : State) (a : Nat) : Bool := s.addressFault a == none && (s.mem.read a).isSome

theorem readable_iff {s : State} {a : Nat} (h : readable s a = true) : s.Readable a := by
  unfold readable at h
  simp only [Bool.and_eq_true, beq_iff_eq, Option.isSome_iff_ne_none] at h
  exact h

/-- The conditions of `Prepared` but R145's, as a check. -/
def preparedCheck (s : State) (k : Kernel) : Bool :=
  (List.range (s.weightRegion k).size).all (fun i => readable s ((s.weightRegion k).base + i))
    && (List.range s.inputRegion.size).all (fun i => readable s (s.inputRegion.base + i))
    && (List.range s.outputRegion.size).all (fun i => s.addressFault (s.outputRegion.base + i) == none)
    && !s.overSideEffects k

theorem prepared_of_check {s : State} {k : Kernel} (h : preparedCheck s k = true) (ho : s.OverflowAllowed k) :
    s.Prepared k := by
  unfold preparedCheck at h
  simp only [Bool.and_eq_true, List.all_eq_true, List.mem_range, beq_iff_eq, Bool.not_eq_true'] at h
  exact ⟨forall_has fun i hi => readable_iff (h.1.1.1 i hi), forall_has fun i hi => readable_iff (h.1.1.2 i hi),
    forall_has fun i hi => h.1.2 i hi, h.2, ho⟩

theorem demo_prepared (k : Kernel) : (demo k).Prepared k :=
  prepared_of_check (by cases k <;> decide +kernel) (by unfold State.OverflowAllowed; exact trivial)

/-- `Runs` for each kernel: `KernelCommandsComplete`, `GoCompletesItsCommand`, `WaitEndsWithDone`. -/
theorem demo_runs (k : Kernel) : (demo k).Runs k :=
  ⟨.inl rfl, by cases k <;> decide +kernel, demo_prepared k⟩

theorem demo_next (k : Kernel) : exec k.toInstr (demo k) = .next (after (exec k.toInstr (demo k))) :=
  next_after (by cases k <;> decide +kernel)

theorem witness_KernelCommandsComplete : ∀ k : Kernel, (demo k).Runs k ∧ (demo k).params.visibleBusy = false :=
  fun k => ⟨demo_runs k, rfl⟩

theorem witness_GoCompletesItsCommand :
    ∀ k : Kernel, (demo k).regs.cmd = k.code ∧ (demo k).Runs k ∧ (demo k).params.visibleBusy = false :=
  fun k => ⟨rfl, demo_runs k, rfl⟩

def visibleParams : Params := { Config.resetParams with visibleBusy := true }

theorem witness_VisibleBusyCompletes : ∀ k : Kernel, (demoWith k visibleParams).Runs k
    ∧ (demoWith k visibleParams).params.visibleBusy = true ∧ (demoWith k visibleParams).pending = [] :=
  fun k => ⟨⟨.inl rfl, by cases k <;> decide +kernel,
    prepared_of_check (by cases k <;> decide +kernel) (by unfold State.OverflowAllowed; exact trivial)⟩, rfl, rfl⟩

theorem witness_WaitEndsWithDone : ∀ k : Kernel,
    ((demo k).withPending [.wait, .engine]).Runs k ∧ ((demo k).withPending [.wait, .engine]).pending = .wait :: [.engine] :=
  fun k => ⟨⟨.inl rfl, by cases k <;> decide +kernel,
    prepared_of_check (by cases k <;> decide +kernel) (by unfold State.OverflowAllowed; exact trivial)⟩, rfl⟩

theorem witness_DecodeEncodeAgree : (Instr.regWr 0xF8 0xFFFFFFFFFFFFFFFF).wf = true ∧ (Instr.regRd 0xF8).wf = true
    ∧ Instr.go.wf = true ∧ Instr.dotprod4i.wf = true := by decide

theorem witness_CommandWordDecode : State.reset.TakesGo
    ∧ (∃ x, decodeCommand (State.reset.withRegs { Regs.reset with cmd := 4 }).regs.cmd = .error x)
    ∧ (∃ x, decodeCommand (State.reset.withRegs { Regs.reset with cmd := 8 }).regs.cmd = .error x)
    ∧ State.reset.status.isBusy = false := ⟨.inl rfl, ⟨_, rfl⟩, ⟨_, rfl⟩, rfl⟩

theorem witness_StepRunsDecodedInstruction :
    decodeAccess Config.resetParams.regBase (writeAccess 0 0x48 1) = .ok .go
      ∧ decodeTableWord 64 3 = some .dotprod4i ∧ decodeTableWord 80 0x10148 = some .go := ⟨rfl, by decide, by decide⟩

/-- The boundary offsets 0x58 and 0xF8, and an access for each way to be outside the format. -/
theorem witness_ReservedOffsetsAndBadAccesses :
    (0x58 ≤ (0x58 : BitVec 8).toNat ∧ (0x58 : BitVec 8).toNat % 8 = 0)
      ∧ (0x58 ≤ (0xF8 : BitVec 8).toNat ∧ (0xF8 : BitVec 8).toNat % 8 = 0)
      ∧ (∀ a ∈ [(⟨0xFFF, 8, true, 0⟩ : BusAccess), ⟨0x1100, 8, true, 0⟩, ⟨0x1010, 4, true, 0⟩, ⟨0x1014, 8, true, 0⟩],
          ¬ (0x1000 ≤ a.addr ∧ a.addr - 0x1000 < 0x100 ∧ a.width = 8 ∧ (a.addr - 0x1000) % 8 = 0))
      ∧ (0x14 : BitVec 8).toNat % 8 ≠ 0 := by decide

/-- Each offset of the map, and the reserved offsets' ends, for the reads and writes of the register file. -/
theorem witness_RegisterReads_RegisterWrites :
    ∀ o ∈ ([0x00, 0x08, 0x10, 0x18, 0x20, 0x28, 0x30, 0x38, 0x40, 0x48, 0x50, 0x58, 0xF8] : List (BitVec 8)),
      o.toNat % 8 = 0 := by decide

theorem witness_RegisterWrites_status : State.reset.status.isBusy = false ∧ (busyDemo .scalar).status.isBusy = true := by
  decide

theorem witness_BusyKeepsConfiguration : (busyDemo .scalar).status.isBusy = true
    ∧ isNext (step (busyDemo .scalar)) = true ∧ (∀ rest, (busyDemo .scalar).pending ≠ .reset :: rest) :=
  ⟨rfl, by decide +kernel, fun _ h => by cases h⟩

/-- The ends of the legal range of `K`. -/
theorem witness_KpadFollowsK : State.reset.status.isBusy = false
    ∧ (1 ≤ (1 : Word64).toNat ∧ (1 : Word64).toNat ≤ 2147483647)
    ∧ (1 ≤ (0x7FFFFFFF : Word64).toNat ∧ (0x7FFFFFFF : Word64).toNat ≤ 2147483647) :=
  ⟨rfl, by simp, by simp⟩

theorem witness_StatusWordFields : (State.reset.refuse .range).status = .error .range
    ∧ (∀ c, State.reset.status ≠ .error c) := ⟨rfl, fun _ h => by cases h⟩

theorem witness_CapabilityHardwired : isNext (step State.reset) = true := by decide

theorem witness_ControlRegister : (1 : Word64).getLsbD 0 = true ∧ (2 : Word64).getLsbD 0 = false := by decide

/-- A state for each clause of the priority: dimensions at both ends, each later check failing alone, and none. -/
theorem witness_GoRefusalPriority :
    (∀ r ∈ [{ base with cmd := 4 }, { base with n := 0 }, { base with n := 0x80000000 }, { base with k := 0 },
        { base with k := 0x80000000 }], (State.reset.withRegs r).acceptError .scalar = some .arg ∨ 3 < r.cmd.toNat)
      ∧ ((State.reset.withCapability false).withRegs { base with cmd := 1 }).acceptError .singleRow = some .cap
      ∧ (State.reset.withRegs { base with yBase := 0x3020 }).acceptError .scalar = some .align
      ∧ (State.reset.withRegs { base with yBase := 0x1040 }).acceptError .scalar = some .range
      ∧ (State.reset.withRegs base).acceptError .scalar = none ∧ State.reset.TakesGo :=
  ⟨by decide, by decide, by decide, by decide, by decide, .inl rfl⟩

theorem witness_KernelCommandIsGoWithItsWord : ∀ k : Kernel, (demo k).regs.cmd = k.code := fun _ => rfl

theorem witness_RefusalTouchesStatusAlone : State.reset.TakesGo
    ∧ (∀ i ∈ [Instr.go, .scalar, .dotprod, .dotprod4, .dotprod4i],
        isNext (exec i State.reset) = true ∧ (after (exec i State.reset)).status = .error .range) :=
  ⟨.inl rfl, by decide⟩

theorem witness_ErrorTerminalUntilReset : (State.reset.refuse .cap).status = .error .cap
    ∧ isNext (step (State.reset.refuse .cap)) = true
    ∧ isNext (step ((State.reset.refuse .cap).withPending [.reset])) = true := by decide

theorem witness_CapabilityGatesSimdOnly : (State.reset.withCapability false).TakesGo
    ∧ (State.reset.withCapability false).params.hasDotprod = false ∧ 1 ≤ State.reset.regs.n.toNat
    ∧ State.reset.regs.k.toNat ≤ 2 ^ 31 - 1 := ⟨.inl rfl, rfl, by decide, by decide⟩

def sideEffectParams : Params := { Config.resetParams with sideEffects := [⟨64, 4⟩] }

theorem witness_SideEffectBufferRefused : ∀ k : Kernel, (demoWith k sideEffectParams).TakesGo
    ∧ (demoWith k sideEffectParams).acceptError k = none ∧ (demoWith k sideEffectParams).overSideEffects k = true :=
  fun k => ⟨.inl rfl, by cases k <;> decide +kernel, by cases k <;> decide +kernel⟩

theorem witness_CommandFrame : (∀ k : Kernel, exec k.toInstr (demo k) = .next (after (exec k.toInstr (demo k))))
    ∧ (busyDemo .scalar).status.isBusy = true ∧ isNext (step (busyDemo .scalar)) = true
    ∧ (∀ a b rest, (busyDemo .scalar).pending ≠ .memWrite a b :: rest)
    ∧ (∀ rest, (busyDemo .scalar).pending ≠ .reset :: rest) :=
  ⟨demo_next, rfl, by decide +kernel, fun _ _ _ => nofun, fun _ => nofun⟩

theorem completes_of_exec {s : State} {k : Kernel} (hv : s.params.visibleBusy = false)
    (h : isNext (exec k.toInstr s) = true) : s.Completes (after (exec k.toInstr s)) k := by
  unfold State.Completes
  rw [hv, if_neg (by decide)]
  exact next_after h

/-- `Completes` under both readings of R139: `ExactUnderZeroPadding`, `CrossKernelEquality`,
`PaddingRowsNeverReachOutput`, `NoCarriedState`. -/
theorem witness_Completes : ∀ k : Kernel, (demo k).Completes (after (exec k.toInstr (demo k))) k
    ∧ (demoWith k visibleParams).Completes (after (runs 17 ((demoWith k visibleParams).accept k))) k := by
  refine fun k => ⟨completes_of_exec rfl (by cases k <;> decide +kernel), ?_⟩
  unfold State.Completes
  rw [if_pos (show (demoWith k visibleParams).params.visibleBusy = true from rfl)]
  exact ⟨rfl, by cases k <;> rfl, 17, next_after (by cases k <;> decide +kernel), by cases k <;> decide +kernel⟩

theorem witness_ExactUnderZeroPadding : ∀ k : Kernel, (demo k).Runs k
    ∧ (demo k).Completes (after (exec k.toInstr (demo k))) k ∧ 0 < (demo k).rows ∧ (demo k).PaddingZero k 0 :=
  fun k => ⟨demo_runs k, (witness_Completes k).1, by cases k <;> decide, fun j h1 h2 => .inr (by
    have hk : (demo k).padded = 16 := by cases k <;> decide
    have hx : ∀ j, j < 16 → 1 ≤ j → (demo k).inputByte j = 0 := by cases k <;> decide +kernel
    exact hx j (by omega) h1)⟩

theorem witness_SafeKNeverOverflows : 1 ≤ (demo .scalar).regs.k.toNat ∧ (demo .scalar).regs.k.toNat ≤ 131071
    ∧ (demo .scalar).PaddingZero .scalar 0 ∧ (∀ j ∈ ({0, 15} : Finset Nat), j < (demo .scalar).padded) :=
  ⟨by decide, by decide, (witness_ExactUnderZeroPadding .scalar).2.2.2, by decide⟩

def unsafeKState (k : Kernel) : State :=
  (demoWith k { Config.resetParams with accOverflow := .refuseUnsafeK }).withRegs
    ⟨k.code, 1, 131072, 0, 0, 0x100000, 0x200000⟩

theorem witness_RefusingOverflowModesFault_unsafeK : ∀ k : Kernel, (unsafeKState k).TakesGo
    ∧ (unsafeKState k).acceptError k = none ∧ (unsafeKState k).overSideEffects k = false
    ∧ (unsafeKState k).params.accOverflow = .refuseUnsafeK ∧ 131071 < (unsafeKState k).regs.k.toNat :=
  fun k => ⟨.inl rfl, by cases k <;> decide +kernel, by cases k <;> decide +kernel, rfl, by cases k <;> decide +kernel⟩

/-- What a read of a generated range of bytes answers. -/
theorem read_rangeMap (f : Nat → Byte) {n a lo : Nat} (h1 : lo ≤ a) (h2 : a < lo + n) :
    Memory.read ((List.range' lo n).map (fun a => (a, f a))) a = some (f a) := by
  induction n generalizing lo with
  | zero => omega
  | succ n ih =>
    simp only [List.range'_succ, List.map_cons, Memory.read]
    split
    · next h => rw [h]
    · exact ih (by omega) (by omega)

theorem exists_filled (n : Nat) (v : Byte) : ∃ m : Memory, ∀ a, a < n → m.read a = some v :=
  ⟨(List.range' 0 n).map (fun a => (a, v)), fun _ h => read_rangeMap (fun _ => v) (Nat.zero_le _) (by omega)⟩

theorem sumUpTo_const (c : Int) (n : Nat) : sumUpTo (fun _ => c) n = n * c := by
  induction n with
  | zero => simp [sumUpTo]
  | succ n ih => simp only [sumUpTo, ih]; push_cast; ring

/-- `n = 1, k = 131072` (table 2.4's "wrap"), weights and input in the same bytes of the memory `m`. -/
def overflowState (m : Memory) : State :=
  ((demoWith .scalar { Config.resetParams with accOverflow := .refuseOutOfRange }).withRegs
    ⟨0, 1, 131072, 0, 0, 0, 0x100000⟩).withMem m

theorem overflowState_addressFault (m : Memory) {a : Nat} (h : a < 131072) : (overflowState m).addressFault a = none := by
  show (if 2 ^ 64 ≤ a then some _ else if List.any [(⟨0, 2 ^ 64⟩ : Region)] (fun r => r.contains a) then none else some _)
    = none
  rw [if_neg (by omega), if_pos (by simp [Region.contains]; omega)]

/-- With every byte 0x80 the row sum is 2^31. -/
theorem witness_RefusingOverflowModesFault_outOfRange : ∃ m : Memory, (overflowState m).TakesGo
    ∧ (overflowState m).acceptError .scalar = none ∧ (overflowState m).overSideEffects .scalar = false
    ∧ (overflowState m).params.visibleBusy = false ∧ (overflowState m).params.accOverflow = .refuseOutOfRange
    ∧ (∀ a, ((overflowState m).weightRegion .scalar).Has a → (overflowState m).Readable a)
    ∧ (∀ a, (overflowState m).inputRegion.Has a → (overflowState m).Readable a)
    ∧ (∀ a, (overflowState m).outputRegion.Has a → (overflowState m).Writable a)
    ∧ (0 < (overflowState m).rows
        ∧ ¬ (-2 ^ 31 ≤ (overflowState m).rowSum .scalar 0 ∧ (overflowState m).rowSum .scalar 0 ≤ 2 ^ 31 - 1)) := by
  obtain ⟨m, hm⟩ := exists_filled 131072 0x80
  have hpad : (overflowState m).padded = 131072 := by
    show (kpadOf 131072).toNat = 131072
    decide
  have hr : ∀ a, a < 131072 → (overflowState m).Readable a := fun a ha =>
    ⟨overflowState_addressFault m ha, by show m.read a ≠ none; rw [hm a ha]; simp⟩
  have hset : SameSetup (overflowState m) (overflowState []) := ⟨rfl, rfl⟩
  refine ⟨m, .inl rfl, ?_, ?_, rfl, rfl, fun a ha => hr a ?_, fun a ha => hr a ?_, ?_, ?_, ?_⟩
  · rw [hset.acceptError]; decide +kernel
  · rw [hset.overSideEffects]; decide +kernel
  · have h : (overflowState m).weightRegion .scalar = ⟨0, 131072⟩ := by rw [hset.weightRegion]; decide +kernel
    rw [h] at ha; have := ha.2; simp only at this; omega
  · have h : (overflowState m).inputRegion = ⟨0, 131072⟩ := by rw [hset.inputRegion]; decide +kernel
    rw [h] at ha; have := ha.2; simp only at this; omega
  · unfold State.Writable
    rw [hset.outputRegion]
    exact forall_has fun i hi => by rw [hset.addressFault]; revert i; decide +kernel
  · rw [hset.rows]; decide
  · have hsum : (overflowState m).rowSum .scalar 0 = 2147483648 := by
      unfold State.rowSum State.partialSum
      rw [hpad, sumUpTo_congr (g := fun _ => (16384 : Int)) fun j hj => ?_, sumUpTo_const]
      · norm_num
      · have hb : (overflowState m).byteAt j = 0x80 := by
          show (m.read j).getD 0 = 0x80
          rw [hm j hj]; rfl
        have h1 : (overflowState m).weightByte .scalar 0 j = 0x80 := by
          show (overflowState m).byteAt (0 + (0 * (overflowState m).padded + j)) = 0x80
          rw [Nat.zero_mul, Nat.zero_add, Nat.zero_add]; exact hb
        have h2 : (overflowState m).inputByte j = 0x80 := by
          show (overflowState m).byteAt (0 + j) = 0x80
          rw [Nat.zero_add]; exact hb
        rw [h1, h2]; decide
    rw [hsum]; norm_num

/-- A missing weight byte, a missing input byte, an output byte the platform does not provide, under both readings of
R139; and a buffer past the top. -/
theorem witness_UnprovidedByteFaults :
    ((demo .scalar).withMem []).acceptError .scalar = none ∧ ((demo .scalar).withMem []).overSideEffects .scalar = false
      ∧ (((demo .scalar).withMem []).weightRegion .scalar).Has 0 ∧ ((demo .scalar).withMem []).mem.read 0 = none
      ∧ ((demo .scalar).withMem []).inputRegion.Has 64 ∧ ((demo .scalar).withMem []).mem.read 64 = none
      ∧ (demoWith .scalar { visibleParams with memAdmit := [⟨0, 128⟩] }).outputRegion.Has 128
      ∧ (demoWith .scalar { visibleParams with memAdmit := [⟨0, 128⟩] }).params.admits 128 = false
      ∧ (demoWith .scalar { visibleParams with memAdmit := [⟨0, 128⟩] }).acceptError .scalar = none
      ∧ (demoWith .scalar { visibleParams with memAdmit := [⟨0, 128⟩] }).pending = []
      ∧ ((demo .scalar).withRegs { demoRegs .scalar with yBase := 0 }).argBad = false
      ∧ ((demo .scalar).withRegs { demoRegs .scalar with yBase := 0 }).alignBad = false
      ∧ ((demo .scalar).withRegs { demoRegs .scalar with yBase := 0 }).rangeBad .scalar = true :=
  ⟨by decide +kernel, by decide, by decide, rfl, by decide, rfl, by decide, by decide, by decide +kernel, rfl, by decide,
    by decide +kernel, by decide +kernel⟩

theorem demoMem_ok : demoMem.wf ∧ demoMem.inSpace 64 := by
  constructor
  · unfold demoMem Memory.wf
    rw [List.pairwise_map]
    exact List.pairwise_lt_range
  · intro c hc
    unfold demoMem at hc
    obtain ⟨a, ha, rfl⟩ := List.mem_map.mp hc
    have : a < 80 := List.mem_range.mp ha
    show a < 2 ^ 64
    omega

/-- An operation that must fault, and one that must not. -/
theorem witness_BusyStepFaultsExactlyWhere :
    (busyDemo .scalar).Inv ∧ ((busyDemo .scalar).withMem []).Inv
      ∧ (busyDemo .scalar).status = .busy (Engine.start .scalar) ∧ (busyDemo .scalar).pending = []
      ∧ ((busyDemo .scalar).withMem []).OpFaults (Engine.start .scalar)
      ∧ isNext (step (busyDemo .scalar)) = true := by
  have hb : (busyDemo .scalar).BusyInv (Engine.start .scalar) := ⟨by decide +kernel, by decide, by decide, by decide⟩
  refine ⟨⟨by decide, demoMem_ok.1, demoMem_ok.2, ?_⟩, ⟨by decide, List.Pairwise.nil, fun _ h => (List.not_mem_nil h).elim, ?_⟩,
    rfl, rfl, .inl ⟨0, ⟨by decide, 0, 0, rfl, rfl, .inl rfl⟩, fun h => h.2 rfl⟩, by decide +kernel⟩
  · rintro e ⟨⟩; exact hb
  · rintro e ⟨⟩; exact hb

def rawOne : List Byte := [0x05]
def inputOne : List Byte := 0xFD :: List.replicate 15 0

theorem holds_of_check {m : Memory} {base : Nat} {bs : List Byte}
    (h : (List.range bs.length).all (fun i => m.read (base + i) == some (bs.getD i 0)) = true) : m.Holds base bs := by
  intro i hi
  simp only [List.all_eq_true, List.mem_range, beq_iff_eq] at h
  exact h i hi

/-- One matrix in the layouts of any two kernels. -/
theorem witness_CrossKernelEquality : ∀ a b : Kernel, (demo a).Runs a ∧ (demo b).Runs b
    ∧ (demo a).regs.n.toNat = 1 ∧ (demo b).regs.k.toNat = 1 ∧ inputOne.length = ceil16 1
    ∧ (demo a).mem.Holds (demo a).wBase (packFor a rawOne 1 1) ∧ (demo b).mem.Holds (demo b).wBase (packFor b rawOne 1 1)
    ∧ (demo a).mem.Holds (demo a).xBase inputOne ∧ (demo b).mem.Holds (demo b).xBase inputOne
    ∧ (demo a).Completes (after (exec a.toInstr (demo a))) a
    ∧ (demo b).Completes (after (exec b.toInstr (demo b))) b := by
  have hp : ∀ k : Kernel, (demo k).mem.Holds (demo k).wBase (packFor k rawOne 1 1)
      ∧ (demo k).mem.Holds (demo k).xBase inputOne := fun k =>
    ⟨holds_of_check (by cases k <;> decide +kernel), holds_of_check (by cases k <;> decide +kernel)⟩
  exact fun a b => ⟨demo_runs a, demo_runs b, by cases a <;> decide, by cases b <;> decide, by decide, (hp a).1,
    (hp b).1, (hp a).2, (hp b).2, (witness_Completes a).1, (witness_Completes b).1⟩

/-- The same command with another byte in a padding row. -/
def paddedOther (k : Kernel) : State := (demo k).withMem (demoMem.write 20 0x7F)

theorem witness_PaddingRowsNeverReachOutput_NoCarriedState : ∀ k : Kernel, k = .fourRowBlocked ∨ k = .fourRowInterleaved →
    (paddedOther k).params = (demo k).params ∧ (paddedOther k).regs = (demo k).regs ∧ (demo k).Runs k
      ∧ (paddedOther k).Runs k ∧ (∀ a, (demo k).inputRegion.Has a → (paddedOther k).mem.read a = (demo k).mem.read a)
      ∧ (∀ j, j < (demo k).padded →
          (paddedOther k).mem.read ((demo k).wBase + layoutOffset k (demo k).padded 0 j)
            = (demo k).mem.read ((demo k).wBase + layoutOffset k (demo k).padded 0 j))
      ∧ (paddedOther k).Completes (after (exec k.toInstr (paddedOther k))) k := by
  rintro k (rfl | rfl)
  · exact ⟨rfl, rfl, demo_runs _, ⟨.inl rfl, by decide +kernel, prepared_of_check (by decide +kernel) trivial⟩,
      forall_has (by decide +kernel), by decide +kernel, completes_of_exec rfl (by decide +kernel)⟩
  · exact ⟨rfl, rfl, demo_runs _, ⟨.inl rfl, by decide +kernel, prepared_of_check (by decide +kernel) trivial⟩,
      forall_has (by decide +kernel), by decide +kernel, completes_of_exec rfl (by decide +kernel)⟩

theorem witness_InterleavedLayoutBijective : 48 % 16 = 0 ∧ 7 < ceil4 5 ∧ 47 < 48 ∧ 383 < ceil4 5 * 48 := by decide

theorem witness_PackersZeroFillAndRoundTrip : (32 < 48 ∧ 33 ≤ 33 ∧ 33 < ceil16 33) ∧ (5 ≤ 7 ∧ 7 < ceil4 5)
    ∧ (7 < layoutRows .fourRowInterleaved 5 ∧ 5 ≤ 7) ∧ (4 < layoutRows .scalar 5 ∧ 33 ≤ 47 ∧ 47 < ceil16 33) := by decide

theorem witness_DriverErrorsExitWithOne : 1 ≤ 300 ∧ driverPlacement.legal 64 1 1 = true
    ∧ ({ driverPlacement with x := 200 } : Placement).legal 64 1 1 = false
    ∧ ({ driverPlacement with warmup := 2 ^ 64 + 64 } : Placement).legal 64 1 1 = false := by decide

theorem witness_HostWriteThenRead :
    isNext (step ((demo .scalar).withPending [.memWrite 300 7, .memRead 300])) = true := by decide +kernel

theorem witness_BusyBuffersAreProtected :
    (busyDemo .scalar).status = .busy (Engine.start .scalar)
      ∧ (∀ a ∈ [0, 15, 64, 79, 128, 131], (busyDemo .scalar).addressFault a = none
          ∧ (busyDemo .scalar).params.hasSideEffect a = false)
      ∧ ((busyDemo .scalar).weightRegion .scalar).Has 15 ∧ (busyDemo .scalar).inputRegion.Has 79
      ∧ (busyDemo .scalar).outputRegion.Has 131 ∧ ¬ (busyDemo .scalar).outputRegion.Has 132
      ∧ (busyDemo .scalar).isUnsynced 64 = false ∧ (busyDemo .scalar).mem.read 64 = some 0xFD :=
  ⟨rfl, by decide +kernel, by decide, by decide, by decide, by decide, rfl, by decide +kernel⟩

/-- A command whose output partly overlaps two ranges already held back. -/
def heldBack (k : Kernel) : State := (demo k).withUnsynced ⟨some ⟨130, 4⟩, [⟨120, 9⟩]⟩

theorem witness_OutputSeenAfterDone : (∀ k : Kernel, (demo k).Runs k ∧ (demo k).params.visibleBusy = false
      ∧ exec k.toInstr (demo k) = .next (after (exec k.toInstr (demo k))))
    ∧ (after (exec .scalar (heldBack .scalar))).status = .done
    ∧ (after (exec .scalar (heldBack .scalar))).unsynced.latest = some ⟨128, 4⟩ :=
  ⟨fun k => ⟨demo_runs k, rfl, demo_next k⟩, by decide +kernel, by decide +kernel⟩

theorem witness_ResetValues_ResetAndTheDataSpace :
    ((busyDemo .scalar).withPending [.reset]).pending = .reset :: []
      ∧ isNext (step ((busyDemo .scalar).withPending [.reset])) = true
      ∧ (busyDemo .scalar).status.isBusy = true ∧ (demo .scalar).status.isBusy = false
      ∧ (busyDemo .scalar).outputRegion.Has 131 ∧ ¬ (busyDemo .scalar).outputRegion.Has 132 :=
  ⟨rfl, by decide +kernel, rfl, rfl, by decide, by decide⟩

theorem witness_ResetMeetsInvariant : Config.resetParams.legal ∧ ({ Config.resetParams with addrBits := 32 }).legal := by
  decide

/-- A running command that meets both invariants, and a step of it. -/
theorem witness_StepKeepsInvariant_StepKeepsProgress : (busyDemo .scalar).Inv ∧ (busyDemo .scalar).ProgressInv
    ∧ isNext (step (busyDemo .scalar)) = true := by
  refine ⟨⟨by decide, demoMem_ok.1, demoMem_ok.2, ?_⟩, ?_, by decide +kernel⟩
  · rintro e ⟨⟩
    exact ⟨by decide +kernel, rfl, by decide, by decide⟩
  · rintro e ⟨⟩
    exact ⟨rfl, fun r hr => absurd hr (Nat.not_lt_zero r)⟩

/-- The last operation of `demo`'s `scalar`: all 16 columns consumed, the output not yet written. -/
def lastOperation : State := (demo .scalar).withStatus (.busy ⟨.scalar, 0, 16, 0xFFFFFFF1, Accs.zero, [], []⟩)

theorem witness_LastOperationWritesEveryRow : lastOperation.Inv ∧ lastOperation.ProgressInv
    ∧ isNext (step lastOperation) = true ∧ (after (step lastOperation)).status = .done := by
  refine ⟨⟨by decide, demoMem_ok.1, demoMem_ok.2, ?_⟩, ?_, by decide +kernel, by decide +kernel⟩
  · rintro e ⟨⟩
    exact ⟨by decide +kernel, rfl, by decide, by decide⟩
  · rintro e ⟨⟩
    refine ⟨?_, fun r hr => absurd hr (Nat.not_lt_zero r)⟩
    show (0xFFFFFFF1 : Word32) = _
    decide +kernel

/-- A step that takes `GO`; an engine's turn that is the last operation of its command, and one that is not. -/
theorem witness_StatusWrittenByEngineAlone : isNext (step ((demo .scalar).withFetchWord 80 0x10148)) = true
    ∧ lastOperation.Inv ∧ lastOperation.EngineMoves ∧ lastOperation.LastOp ⟨.scalar, 0, 16, 0xFFFFFFF1, Accs.zero, [], []⟩
    ∧ isNext (step lastOperation) = true
    ∧ (busyDemo .scalar).Inv ∧ ¬ (busyDemo .scalar).LastOp (Engine.start .scalar) ∧ isNext (step (busyDemo .scalar)) = true :=
  ⟨by decide +kernel, witness_LastOperationWritesEveryRow.1, .inl rfl, ⟨rfl, rfl⟩, by decide +kernel,
    witness_BusyStepFaultsExactlyWhere.1, fun h => absurd h.1 (by decide), by decide +kernel⟩

/-- A running `dotprod` under each of the three next events: its own turn, a read of `PREFETCH`, a reset. -/
theorem witness_PrefetchHasNoEffect : (busyDemo .singleRow).status.isBusy = true
    ∧ (∀ rest, (busyDemo .singleRow).pending ≠ .reset :: rest)
    ∧ (∀ a rest, (busyDemo .singleRow).pending ≠ .access a :: rest)
    ∧ isNext (step (busyDemo .singleRow)) = true
    ∧ decodeAccess 0 (readAccess 0 0x28) = .ok (.regRd 0x28)
    ∧ (after (step (((busyDemo .singleRow).withPending [.access (readAccess 0 0x28)]).withPrefetch 9))).busData = 9
    ∧ isNext (step ((busyDemo .singleRow).withPending [.reset])) = true :=
  ⟨rfl, nofun, nofun, by decide +kernel, rfl, by decide +kernel, by decide +kernel⟩

/-- Under `refuse_out_of_range`, a row of 131072 products of -128 by -128 does not fit (table 2.4). -/
theorem test_fits32_bounds : fits32 2147467264 = true ∧ fits32 2147483648 = false ∧ fits32 (-2147483648) = true
    ∧ fits32 (-2147498880) = false := by decide

end Sys2Proof.Tests
end

section
/-! PROOFS. Register accesses as the host sees them, the words of `STATUS` and `KPAD`, and what a step keeps of the
parameters and the registers (R24, R27, R31 to R33, R35). -/

namespace Sys2Proof.Machine

/-! ### Which register an access names -/

theorem offsetAligned_iff (o : BitVec 8) : offsetAligned o = true ↔ o.toNat % 8 = 0 := by simp [offsetAligned]

theorem offsetAligned_eq_false_iff (o : BitVec 8) : offsetAligned o = false ↔ o.toNat % 8 ≠ 0 := by
  rw [← Bool.not_eq_true, offsetAligned_iff]

/-- The offsets above `STATUS` are the reserved ones (R32). -/
theorem regAt_reserved {o : BitVec 8} (h : 0x58 ≤ o.toNat) : regAt o = .reserved := by
  unfold regAt
  split
  case h_12 => rfl
  all_goals omega

/-- The decoder rejects whatever is not an aligned 8-byte access inside the block (R32, R101). -/
theorem decodeBus_bad {offset width : Nat} (write : Bool) (data : Word64)
    (h : ¬ (offset < Config.regBlockSize ∧ width = 8 ∧ offset % 8 = 0)) :
    ∃ x, decodeBus offset width write data = .error x := by
  unfold decodeBus
  by_cases ho : Config.regBlockSize ≤ offset
  · exact ⟨_, if_pos ho⟩
  · rw [if_neg ho]
    by_cases hw : width = 8
    · have hm : offset % 8 ≠ 0 := fun hm => h ⟨by omega, hw, hm⟩
      rw [if_neg (not_not_intro hw), if_pos hm]
      exact ⟨_, rfl⟩
    · rw [if_pos hw]
      exact ⟨_, rfl⟩

/-- An address below `REG_BASE` is outside the block too (R23, R32). -/
theorem decodeAccess_bad {base : Nat} {a : BusAccess}
    (h : ¬ (base ≤ a.addr ∧ a.addr - base < Config.regBlockSize ∧ a.width = 8 ∧ (a.addr - base) % 8 = 0)) :
    ∃ x, decodeAccess base a = .error x := by
  unfold decodeAccess
  by_cases hb : a.addr < base
  · exact ⟨_, if_pos hb⟩
  · rw [if_neg hb]
    exact decodeBus_bad _ _ fun hc => h ⟨by omega, hc⟩

/-! ### Reads (R130) -/

theorem exec_regRd_aligned {o : BitVec 8} (h : o.toNat % 8 = 0) (s : State) :
    exec (.regRd o) s = .next (s.busRead (regAt o)) :=
  if_pos ((offsetAligned_iff o).2 h)

theorem exec_regRd_misaligned {o : BitVec 8} (h : o.toNat % 8 ≠ 0) (s : State) :
    exec (.regRd o) s = .refused .badRegisterAccess :=
  if_neg (mt (offsetAligned_iff o).1 h)

/-- Only the read of `STATUS` is an ordering point: any other leaves the record of unread output alone (R79). -/
theorem busRead_of_ne_status {r : Reg} (h : r ≠ .status) (s : State) : s.busRead r = s.withBusData (s.readReg r) := by
  have hs : s.syncOnRead r = s := if_neg fun hc => h hc.1
  unfold State.busRead
  rw [hs]

/-! ### Writes (R131) -/

theorem exec_regWr_misaligned {o : BitVec 8} (h : o.toNat % 8 ≠ 0) (d : Word64) (s : State) :
    exec (.regWr o d) s = .refused .badRegisterAccess :=
  if_neg (mt (offsetAligned_iff o).1 h)

/-- A write of `CTRL` is `GO` or nothing, as bit 0 of the data says (R31). -/
theorem exec_regWr_ctrl (d : Word64) (s : State) :
    exec (.regWr 0x48 d) s = if d.getLsbD 0 then exec .go s else .next s := rfl

/-- A write of any other register. -/
theorem exec_regWr_of_ne_ctrl {o : BitVec 8} (h : o.toNat % 8 = 0) (hc : regAt o ≠ .ctrl) (d : Word64) (s : State) :
    exec (.regWr o d) s = .next (s.writeReg (regAt o) d) := by
  show execRegWr o d s = _
  unfold execRegWr
  rw [if_pos ((offsetAligned_iff o).2 h), if_neg hc]

/-- The registers that hold nothing (R23): storing to one of them leaves the registers as they are. -/
def HoldsNothing (r : Reg) : Prop := ∀ (regs : Regs) (d : Word64), regs.store d r = regs

/-- A write of a register that holds nothing has no effect, whatever the engine does (R23). -/
theorem writeReg_of_holdsNothing {r : Reg} (h : HoldsNothing r) (s : State) (d : Word64) : s.writeReg r d = s := by
  rcases writeReg_cases s r d with ⟨-, hw⟩ | ⟨-, hw⟩
  · exact hw
  · rw [hw, h s.regs d]; rfl

theorem exec_regWr_ignored {o : BitVec 8} (h : o.toNat % 8 = 0) (hc : regAt o ≠ .ctrl) (hn : HoldsNothing (regAt o))
    (d : Word64) (s : State) : exec (.regWr o d) s = .next s := by
  rw [exec_regWr_of_ne_ctrl h hc, writeReg_of_holdsNothing hn]

/-! ### While `BUSY` (R35) -/

/-- `GO` is ignored while `BUSY` (R35, R132). -/
theorem go_busy {s : State} (h : s.status.isBusy = true) : s.go = .next s := by
  refine go_ignored ?_
  cases hs : s.status with
  | busy e => rfl
  | _ => rw [hs] at h; cases h

/-- No write has an effect while `BUSY`, that of `CTRL` included (R35). -/
theorem exec_regWr_busy {s : State} {o : BitVec 8} (hb : s.status.isBusy = true) (h : o.toNat % 8 = 0) (d : Word64) :
    exec (.regWr o d) s = .next s := by
  show execRegWr o d s = _
  rcases execRegWr_cases o d s with ⟨ha, -⟩ | ⟨-, -, -, he⟩ | ⟨-, -, -, he⟩ | ⟨-, -, he⟩
  · exact absurd h ((offsetAligned_eq_false_iff o).1 ha)
  · rw [he, go_busy hb]
  · exact he
  · rcases writeReg_cases s (regAt o) d with ⟨-, hw⟩ | ⟨hn, -⟩
    · rw [he, hw]
    · rw [hb] at hn; cases hn

/-! ### What `GO` and a step keep -/

/-- A command keeps the parameters and the registers, whether it is ignored, refused, started or completed. -/
theorem launch_setup {s t : State} {k : Kernel} (h : s.launch k = .next t) : SameSetup t s := by
  rcases launch_next h with ⟨-, rfl⟩ | ⟨-, c, -, rfl⟩ | ⟨-, -, -, rfl⟩ | ⟨-, -, -, -, hf, -⟩
  · exact .refl t
  · exact .of_withStatus s _
  · exact .of_withStatus s _
  · exact hf.setup

theorem go_setup {s t : State} (h : s.go = .next t) : SameSetup t s := by
  cases hg : s.status.ignoresGo with
  | true => rw [go_ignored hg] at h; cases h; exact .refl s
  | false =>
    rcases decodeCommand_cases s.regs.cmd with ⟨-, x, hx⟩ | ⟨k, -, hk⟩
    · rw [go_illegal hg hx] at h; cases h; exact .of_withStatus s _
    · rw [go_eq_launch hk] at h; exact launch_setup h

/-- Every step keeps the parameters and the registers, but for a register stored while not `BUSY` and for a reset, and
those keep the parameters. -/
theorem step_setup {s t : State} (h : step s = .next t) :
    SameSetup t s ∨ (t.params = s.params ∧ (s.status.isBusy = false ∨ ∃ rest, s.pending = .reset :: rest)) := by
  rcases step_cases h with hsame | ⟨u, hu, -, hturn⟩ | ⟨-, rest, -, -, hgo⟩ | ⟨rest, r, hb, rfl⟩
    | ⟨rest, a, b, -, rfl, -⟩ | ⟨rest, hr, rfl⟩
  · exact .inl hsame.setup
  · exact .inl ((engineTurn_ok hturn).setup.trans hu.setup)
  · exact .inl ((go_setup hgo).trans (.of_withPending s rest))
  · exact .inr ⟨rfl, .inl hb⟩
  · exact .inl ⟨rfl, rfl⟩
  · exact .inr ⟨rfl, .inr ⟨rest, hr⟩⟩

theorem step_params {s t : State} (h : step s = .next t) : t.params = s.params := by
  rcases step_setup h with ⟨hp, -⟩ | ⟨hp, -⟩ <;> exact hp

/-- The configuration of a running command outlives every step but a reset (R35). -/
theorem step_regs_of_busy {s t : State} (h : step s = .next t) (hb : s.status.isBusy = true)
    (hr : ∀ rest, s.pending ≠ .reset :: rest) : t.regs = s.regs := by
  rcases step_setup h with ⟨-, hregs⟩ | ⟨-, hn | ⟨rest, hp⟩⟩
  · exact hregs
  · rw [hb] at hn; cases hn
  · exact absurd hp (hr rest)

/-! ### The word of `STATUS` (R33) -/

theorem Status.stateField_lt (x : Status) : x.stateField < 4 := by cases x <;> simp [Status.stateField]

theorem ErrorCode.code_le (c : ErrorCode) : c.code ≤ 4 := by cases c <;> simp [ErrorCode.code]

theorem Status.errField_le (x : Status) : x.errField ≤ 4 := by
  cases x with
  | error c => exact c.code_le
  | _ => exact Nat.zero_le 4

/-- The fields stand in the word without overlap. -/
theorem Status.word_toNat (x : Status) : x.word.toNat = x.errField * 16 + x.stateField := by
  have hs := x.stateField_lt
  have he := x.errField_le
  unfold Status.word
  rw [BitVec.toNat_ofNat]
  omega

theorem Status.word_state (x : Status) : x.word.toNat % 4 = x.stateField := by
  have := x.stateField_lt
  rw [Status.word_toNat]; omega

theorem Status.word_err (x : Status) : x.word.toNat / 16 = x.errField := by
  have := x.stateField_lt
  rw [Status.word_toNat]; omega

theorem Status.word_reserved (x : Status) : x.word.toNat / 4 % 4 = 0 ∧ x.word.toNat / 256 = 0 := by
  have hs := x.stateField_lt
  have he := x.errField_le
  rw [Status.word_toNat]; omega

theorem Status.stateField_idle (x : Status) : x.stateField = 0 ↔ x = .idle := by cases x <;> simp [Status.stateField]

theorem Status.stateField_busy (x : Status) : x.stateField = 1 ↔ ∃ e, x = .busy e := by
  cases x <;> simp [Status.stateField]

theorem Status.stateField_done (x : Status) : x.stateField = 2 ↔ x = .done := by cases x <;> simp [Status.stateField]

theorem Status.stateField_error (x : Status) : x.stateField = 3 ↔ ∃ c, x = .error c := by
  cases x <;> simp [Status.stateField]

/-- `ERR` is `NONE` outside `ERROR` (R33). -/
theorem Status.errField_of_ne_error {x : Status} (h : ∀ c, x ≠ .error c) : x.errField = 0 := by
  cases x with
  | error c => exact absurd rfl (h c)
  | _ => rfl

/-! ### Rounding up to 16 (R14) -/

theorem le_ceil16 (v : Nat) : v ≤ ceil16 v := by unfold ceil16; omega

theorem ceil16_mod16 (v : Nat) : ceil16 v % 16 = 0 := Nat.mul_mod_left _ _

theorem ceil16_le {v m : Nat} (h : v ≤ m) (hm : m % 16 = 0) : ceil16 v ≤ m := by unfold ceil16; omega

/-! ### The obligations -/

/-- Settles O5. -/
theorem reservedOffsetsAndBadAccesses : Obligations.ReservedOffsetsAndBadAccesses := by
  refine ⟨fun s o ho ha => ?_, fun s a rest hp hbad => ?_,
    fun s o d ha => ⟨exec_regRd_misaligned ha s, exec_regWr_misaligned ha d s⟩⟩
  · have hr := regAt_reserved ho
    have hread : exec (.regRd o) s = .next (s.withBusData 0) := by
      rw [exec_regRd_aligned ha, hr, busRead_of_ne_status (by decide)]; rfl
    exact ⟨⟨_, hread, rfl, rfl⟩,
      fun d => exec_regWr_ignored ha (by rw [hr]; decide) (by rw [hr]; exact fun _ _ => rfl) d s⟩
  · obtain ⟨x, hx⟩ := decodeAccess_bad hbad
    exact step_bad_access hp hx

/-- Settles O8: its last clause is `step_regs_of_busy`, by the cases of a step. -/
theorem busyKeepsConfiguration : Obligations.BusyKeepsConfiguration :=
  ⟨fun _ _ d hb ha => ⟨exec_regWr_busy hb ha d, go_busy hb⟩,
    fun s _ ha => ⟨_, exec_regRd_aligned ha s⟩,
    fun _ _ hb h hr => step_regs_of_busy h hb hr⟩

/-- Settles O9, through the value of `kpadOf` as a number. -/
theorem kpadFollowsK : Obligations.KpadFollowsK := by
  refine ⟨fun s => kpadOf_toNat s.regs.k, fun s d hb => ?_, fun s _ hk => ?_,
    fun s d => exec_regWr_ignored (by decide) (by decide) (fun _ _ => rfl) d s, by decide⟩
  · have hw : exec (.regWr 0x18 d) s = .next (s.withRegs { s.regs with k := d }) := by
      rcases writeReg_cases s .k d with ⟨hn, -⟩ | ⟨-, hw⟩
      · rw [hb] at hn; cases hn
      · exact (exec_regWr_of_ne_ctrl (by decide) (by decide) d s).trans (congrArg _ hw)
    exact ⟨_, _, hw, exec_regRd_aligned (by decide) _, kpadOf_toNat d⟩
  · have hc : (s.readReg .kpad).toNat = ceil16 s.regs.k.toNat := kpadOf_legal s.regs.k hk
    rw [hc]
    exact ⟨le_ceil16 _, ceil16_mod16 _, fun m => ceil16_le⟩

/-- Settles O11: the parameters survive every step, by the cases of a step. -/
theorem capabilityHardwired : Obligations.CapabilityHardwired :=
  ⟨fun _ => rfl,
    fun s d => exec_regWr_ignored (by decide) (by decide) (fun _ _ => rfl) d s,
    fun _ _ => step_params⟩

/-- Settles O10, field by field of the word. -/
theorem statusWordFields : Obligations.StatusWordFields := by
  refine ⟨fun s => ?_, by decide⟩
  have hword : s.statusWord = s.status.word := rfl
  obtain ⟨hlow, hhigh⟩ := s.status.word_reserved
  rw [hword, Status.word_state, Status.word_err]
  refine ⟨s.status.stateField_idle, s.status.stateField_busy, s.status.stateField_done, s.status.stateField_error,
    hlow, hhigh, fun c hc => ?_, Status.errField_of_ne_error,
    fun d => exec_regWr_ignored (by decide) (by decide) (fun _ _ => rfl) d s⟩
  rw [hc]; rfl

/-- Settles O12. -/
theorem controlRegister : Obligations.ControlRegister := by
  refine ⟨fun s d hd => ?_, fun s d hd => ?_, fun s => ⟨_, exec_regRd_aligned (by decide) s, rfl⟩⟩
  · rw [exec_regWr_ctrl, if_pos hd]
  · rw [exec_regWr_ctrl, hd]; rfl

end Sys2Proof.Machine
end

section
/-! PROOFS. Host accesses while `BUSY` (R86), what an operation of the engine that answers must have found in memory (R71,
R78), and what a completed command's output depends on (R85). -/

namespace Sys2Proof.Machine

/-! ### Host accesses while `BUSY` (R86) -/

theorem inBusyBuffers_iff {s : State} {e : Engine} (h : s.status = .busy e) (a : Nat) :
    s.inBusyBuffers a = true
      ↔ (s.weightRegion e.kernel).Has a ∨ s.inputRegion.Has a ∨ s.outputRegion.Has a := by
  unfold State.inBusyBuffers
  simp only [h, Bool.or_eq_true, Region.contains_iff, or_assoc]

theorem inBusyOutput_iff {s : State} {e : Engine} (h : s.status = .busy e) (a : Nat) :
    s.inBusyOutput a = true ↔ s.outputRegion.Has a := by
  unfold State.inBusyOutput
  simp only [h, Status.isBusy, Bool.true_and, Region.contains_iff]

/-- A host write into a running command's buffers faults. -/
theorem hostMemWrite_busyBuffer {s : State} {a : Nat} (hf : s.addressFault a = none)
    (hs : s.params.hasSideEffect a = false) (hb : s.inBusyBuffers a = true) (b : Byte) :
    hostMemWrite a b s = .fault (.busyBuffer a) := by
  unfold hostMemWrite; simp [hf, hs, hb]

/-- A host read of a running command's output faults. -/
theorem hostMemRead_busyOutput {s : State} {a : Nat} (hf : s.addressFault a = none)
    (hs : s.params.hasSideEffect a = false) (hb : s.inBusyOutput a = true) :
    hostMemRead a s = .fault (.busyBuffer a) := by
  unfold hostMemRead; simp [hf, hs, hb]

/-- Any other host read of a byte that has a value is answered, unless the byte is held back. -/
theorem hostMemRead_answered {s : State} {a : Nat} {v : Byte} (hf : s.addressFault a = none)
    (hs : s.params.hasSideEffect a = false) (hb : s.inBusyOutput a = false) (hu : s.isUnsynced a = false)
    (hv : s.mem.read a = some v) : hostMemRead a s = .next (s.withMemData v) := by
  unfold hostMemRead; simp [hf, hs, hb, hu, hv]

/-! ### What an access that answers found (R71, R78) -/

theorem readByte_readable {s : State} {a : Nat} {b : Byte} (h : s.readByte a = .ok b) : s.Readable a := by
  obtain ⟨hf, hr⟩ := readByte_ok.mp h
  exact ⟨hf, by rw [hr]; simp⟩

theorem readBytes_readable {s : State} {n : Nat} : ∀ {a : Nat} {bs : List Byte}, s.readBytes a n = .ok bs →
    ∀ i, i < n → s.Readable (a + i) := by
  induction n with
  | zero => intro a bs _ i hi; omega
  | succ n ih =>
    intro a bs h i hi
    simp only [State.readBytes] at h
    split at h
    · cases h
    · next b hb =>
      split at h
      · cases h
      · next bs' hbs =>
        cases i with
        | zero => exact readByte_readable hb
        | succ i =>
          rw [show a + (i + 1) = a + 1 + i by omega]
          exact ih hbs i (by omega)

theorem load16_readable {s : State} {a : Nat} {bs : List Byte} (h : s.load16 a = .ok bs) {t : Nat} (ht : t < 16) :
    s.Readable (a + t) := readBytes_readable h t ht

theorem writeBytes_writable {bs : List Byte} : ∀ {s t : State} {a : Nat}, s.writeBytes a bs = .ok t →
    ∀ i, i < bs.length → s.Writable (a + i) := by
  induction bs with
  | nil => intro s t a _ i hi; simp at hi
  | cons b bs ih =>
    intro s t a h i hi
    simp only [State.writeBytes] at h
    split at h
    · cases h
    · next hf =>
      cases i with
      | zero => exact hf
      | succ i =>
        rw [show a + (i + 1) = a + 1 + i by omega]
        exact ih h i (by simpa using hi)

/-- The bytes of an output element that is written are writable. -/
theorem emitRow_writable {s t : State} {k : Kernel} {r : Nat} {y : Word32} (h : s.emitRow k r y = .ok t) {i : Nat}
    (hi : i < 4) : s.Writable (s.yBase + 4 * r + i) := by
  unfold State.emitRow at h
  split at h
  · cases h
  · exact writeBytes_writable h i hi

/-- The loop over the first `m` rows of a block keeps the setup, and wrote only where it could. -/
theorem blockEmitRows_writable {k : Kernel} {e : Engine} {s : State} {m : Nat} : ∀ {t : State},
    blockEmitRows k e s m = .ok t →
    SameSetup t s ∧ ∀ q i, q < m → 4 * e.row + q < s.rows → i < 4 → s.Writable (s.yBase + 4 * (4 * e.row + q) + i) := by
  induction m with
  | zero => intro t h; cases h; exact ⟨.refl s, fun q i hq => absurd hq (by omega)⟩
  | succ m ih =>
    intro t h
    simp only [blockEmitRows] at h
    split at h
    · cases h
    · next s1 h1 =>
      obtain ⟨hset, hwr⟩ := ih h1
      split at h
      · obtain ⟨mem, rfl, -⟩ := emitRow_ok h
        refine ⟨(SameSetup.of_withMem s1 mem).trans hset, fun q i hq hlt hi => ?_⟩
        by_cases hqm : q < m
        · exact hwr q i hqm hlt hi
        · obtain rfl : q = m := by omega
          have hw : s1.Writable (s1.yBase + 4 * (4 * e.row + q) + i) := emitRow_writable h hi
          unfold State.Writable at hw ⊢
          rwa [hset.addressFault, hset.yBase] at hw
      · next hge =>
        cases h
        refine ⟨hset, fun q i hq hlt hi => hwr q i ?_ hlt hi⟩
        by_contra hqm
        obtain rfl : q = m := by omega
        exact hge hlt

/-! ### What an operation that answers found -/

/-- A pass of the inner loop that answers has loaded the input chunk and the weight chunk of each of its four rows. -/
theorem blockChunk_loads {addr : Nat → Nat} {e e' : Engine} {s : State} (h : blockChunk addr e s = .ok e') :
    (∃ xv, s.load16 (s.xBase + 16 * e.col) = .ok xv) ∧ ∀ i, i < 4 → ∃ wv, s.load16 (addr i) = .ok wv := by
  unfold blockChunk at h
  split at h
  · cases h
  · next xv hxv =>
    obtain ⟨-, -, -, -, hloads, -⟩ := blockRows_ok (le_refl 4) h
    exact ⟨⟨xv, hxv⟩, fun i hi => (hloads i hi).imp fun _ hwv => hwv.1⟩

/-- Column `j` of a padded row from `base` on is readable where its chunk was loaded. -/
theorem column_readable {s : State} {base c j : Nat} {bs : List Byte} (h : s.load16 (base + 16 * c) = .ok bs)
    (hj : j / 16 = c) : s.Readable (base + j) := by
  have := load16_readable h (Nat.mod_lt j (by decide : 0 < 16))
  rwa [show base + 16 * c + j % 16 = base + j by omega] at this

/-- A pass of a four-row kernel, wherever its layout puts the chunks. -/
theorem blockChunk_readable {k : Kernel} {addr : Nat → Nat} {e e' : Engine} {s : State}
    (h : blockChunk addr e s = .ok e')
    (haddr : ∀ i t, i < 4 → t < 16 →
      addr i + t = s.wBase + layoutOffset k s.padded (4 * e.row + i) (16 * e.col + t))
    {r j : Nat} (hr : r / 4 = e.row) (hj : j / 16 = e.col) :
    s.Readable (s.wBase + layoutOffset k s.padded r j) ∧ s.Readable (s.xBase + j) := by
  obtain ⟨⟨xv, hxv⟩, hloads⟩ := blockChunk_loads h
  have hi : r % 4 < 4 := Nat.mod_lt r (by decide)
  have ht : j % 16 < 16 := Nat.mod_lt j (by decide)
  obtain ⟨wv, hwv⟩ := hloads (r % 4) hi
  have hw := load16_readable hwv ht
  rw [haddr _ _ hi ht, show 4 * e.row + r % 4 = r by omega, show 16 * e.col + j % 16 = j by omega] at hw
  exact ⟨hw, column_readable hxv hj⟩

/-- A pass of the inner loop that answers found every byte it reads readable (R61, R71, R78). -/
theorem consume_readable {s : State} {e e' : Engine} (h : e.consume s = .ok e') {r j : Nat} (hr : e.PassRow r)
    (hj : e.PassCol j) :
    s.Readable (s.wBase + layoutOffset e.kernel s.padded r j) ∧ s.Readable (s.xBase + j) := by
  unfold Engine.consume at h
  unfold Engine.PassRow at hr
  unfold Engine.PassCol at hj
  cases hk : e.kernel <;> simp only [hk] at h hr hj
  case scalar =>
    subst hr hj
    unfold scalarMac at h
    split at h
    · cases h
    · next w hw =>
      split at h
      · cases h
      · next x hx =>
        have hwr := readByte_readable hw
        rw [Nat.add_assoc] at hwr
        exact ⟨hwr, readByte_readable hx⟩
  case singleRow =>
    subst hr
    unfold singleRowChunk singleRowDot at h
    rw [singleRowPrefetch_eq] at h
    split at h
    · cases h
    · next wv hwv =>
      split at h
      · cases h
      · next xv hxv =>
        have hw := column_readable hwv hj
        rw [Nat.add_assoc] at hw
        exact ⟨hw, column_readable hxv hj⟩
  case fourRowBlocked => exact blockChunk_readable h (fun i t _ _ => blockedAddr_layout e s i t) hr hj
  case fourRowInterleaved => exact blockChunk_readable h (fun _ _ => interleavedAddr_layout e s) hr hj

/-- The output writes that end a pass of the outer loop, where they answer, found every byte writable (R69, R78). -/
theorem emit_writable {s t : State} {e : Engine} (h : e.emit s = .ok t) {r i : Nat} (hr : e.PassRow r)
    (hrow : r < s.rows) (hi : i < 4) : s.Writable (s.yBase + 4 * r + i) := by
  have block : ∀ k, r / 4 = e.row → blockEmitRows k e s 4 = .ok t → s.Writable (s.yBase + 4 * r + i) := by
    intro k hq hb
    have := (blockEmitRows_writable hb).2 (r % 4) i (by omega) (by omega) hi
    rwa [show 4 * e.row + r % 4 = r by omega] at this
  unfold Engine.emit at h
  unfold Engine.PassRow at hr
  cases hk : e.kernel <;> simp only [hk] at h hr
  case scalar => subst hr; exact emitRow_writable h hi
  case singleRow => subst hr; exact emitRow_writable h hi
  case fourRowBlocked => exact block _ hr h
  case fourRowInterleaved => exact block _ hr h

/-- An operation that answers found every byte it reads readable. -/
theorem engineOp_readable {s t : State} {e : Engine} (h : engineOp e s = .ok t) (hrow : e.row < s.outer e.kernel)
    {a : Nat} (ha : s.OpReads e a) : s.Readable a := by
  obtain ⟨hcol, r, j, hr, hj, haddr⟩ := ha
  unfold engineOp at h
  rw [if_pos hrow, if_pos hcol] at h
  split at h
  · cases h
  · next e' he' =>
    obtain ⟨hw, hx⟩ := consume_readable he' hr hj
    rcases haddr with rfl | rfl
    · exact hw
    · exact hx

/-- An operation that answers found every byte it writes writable. -/
theorem engineOp_writable {s t : State} {e : Engine} (h : engineOp e s = .ok t) (hrow : e.row < s.outer e.kernel)
    {r i : Nat} (hr : s.OpWritesRow e r) (hi : i < 4) : s.Writable (s.yBase + 4 * r + i) := by
  obtain ⟨hcol, hpass, hlt⟩ := hr
  unfold engineOp at h
  rw [if_pos hrow, if_neg (by omega)] at h
  split at h
  · cases h
  · next s' hs' => exact emit_writable hs' hpass hlt hi

/-! ### The operation that works on an element

Which pass of the outer loop works on row `r`, and which pass of the inner loop on column `j` (R161, R171, R181, R185). -/

def outerPass : Kernel → Nat → Nat
  | .scalar, r => r
  | .singleRow, r => r
  | .fourRowBlocked, r => r / 4
  | .fourRowInterleaved, r => r / 4

def innerPass : Kernel → Nat → Nat
  | .scalar, j => j
  | .singleRow, j => j / 16
  | .fourRowBlocked, j => j / 16
  | .fourRowInterleaved, j => j / 16

theorem passRow_iff (e : Engine) (r : Nat) : e.PassRow r ↔ e.row = outerPass e.kernel r := by
  unfold Engine.PassRow outerPass
  cases e.kernel <;> exact eq_comm

theorem passCol_iff (e : Engine) (j : Nat) : e.PassCol j ↔ e.col = innerPass e.kernel j := by
  unfold Engine.PassCol innerPass
  cases e.kernel <;> exact eq_comm

theorem outerPass_lt {s : State} {k : Kernel} {r : Nat} (h : r < s.weightRows k) : outerPass k r < s.outer k := by
  have := s.blocks_mul
  cases k <;> simp only [State.weightRows, layoutRows, outerPass, State.outer] at h ⊢ <;> omega

theorem innerPass_lt {s : State} {k : Kernel} {j : Nat} (h : j < s.padded) : innerPass k j < s.inner k := by
  have := s.padded_eq
  cases k <;> simp only [innerPass, State.inner] <;> omega

/-! ### Every byte of a buffer belongs to an element -/

theorem rpOffset_surjective {kpad rows p : Nat} (h : p < rows * kpad) :
    ∃ r j, r < rows ∧ j < kpad ∧ rpOffset kpad r j = p := by
  have hpos : 0 < kpad := Nat.pos_of_ne_zero fun h0 => by simp [h0] at h
  exact ⟨p / kpad, p % kpad, (Nat.div_lt_iff_lt_mul hpos).mpr h, Nat.mod_lt p hpos, Nat.div_add_mod' p kpad⟩

/-- R66: block, chunk, row of the block and lane of a position of the interleaved buffer. -/
theorem i4Offset_surjective {kpad rows p : Nat} (h16 : kpad % 16 = 0) (h4 : rows % 4 = 0) (h : p < rows * kpad) :
    ∃ r j, r < rows ∧ j < kpad ∧ i4Offset kpad r j = p := by
  have hsplit : rows * kpad = rows / 4 * (4 * kpad) := by
    rw [← Nat.mul_assoc, Nat.div_mul_cancel (Nat.dvd_of_mod_eq_zero h4)]
  obtain ⟨b, q, hb, hq, hp⟩ := rpOffset_surjective (hsplit ▸ h)
  refine ⟨4 * b + q % 64 / 16, 16 * (q / 64) + q % 16, by omega, by omega, ?_⟩
  rw [i4Offset_chunk _ _ _ (by omega) (by omega), ← hp]
  unfold rpOffset
  rw [Nat.mul_assoc]
  omega

/-- Every offset inside the weight buffer is some padded element's (R64 to R66). -/
theorem layoutOffset_surjective {s : State} {k : Kernel} {p : Nat} (h : p < s.weightRows k * s.padded) :
    ∃ r j, r < s.weightRows k ∧ j < s.padded ∧ layoutOffset k s.padded r j = p := by
  cases k with
  | scalar => exact rpOffset_surjective h
  | singleRow => exact rpOffset_surjective h
  | fourRowBlocked =>
    obtain ⟨r, j, hr, hj, hp⟩ := rpOffset_surjective h
    exact ⟨r, j, hr, hj, (b4Offset_eq_rpOffset _ _ _).trans hp⟩
  | fourRowInterleaved => exact i4Offset_surjective (kpadOf_mod16 _) (ceil4_mod4 _) h

/-! ### A run of the engine, and the host's view of it -/

theorem runEngine_succ_ok {s u : State} (h : s.engineTurn = .ok u) (n : Nat) : s.runEngine (n + 1) = u.runEngine n := by
  simp only [State.runEngine, h]

theorem runEngine_succ_error {s : State} {f : Fault} (h : s.engineTurn = .error f) (n : Nat) :
    s.runEngine (n + 1) = .error f := by
  simp only [State.runEngine, h]

theorem runEngine_not_busy {s : State} (h : s.status.isBusy = false) (n : Nat) : s.runEngine n = .ok s := by
  induction n with
  | zero => rfl
  | succ n ih => rw [runEngine_succ_ok (engineTurn_not_busy h), ih]

theorem coreRun_succ_next {M : Host.Core} {s t : M.State} (h : M.step s = .next t) (n : Nat) :
    M.run (n + 1) s = M.run n t := by
  simp only [Host.Core.run, h]

theorem coreRun_succ_fault {M : Host.Core} {s : M.State} {f : M.Fault} (h : M.step s = .fault f) (n : Nat) :
    M.run (n + 1) s = .fault f := by
  simp only [Host.Core.run, h]

theorem runs_succ_next {s t : State} (h : step s = .next t) (n : Nat) : runs (n + 1) s = runs n t :=
  coreRun_succ_next (M := Sys2Proof.core) h n

theorem runs_succ_fault {s : State} {f : Fault} (h : step s = .fault f) (n : Nat) : runs (n + 1) s = .fault f :=
  coreRun_succ_fault (M := Sys2Proof.core) h n

/-- With nothing pending every step is an engine turn (log 2). -/
theorem runs_eq_runEngine {n : Nat} : ∀ {s : State}, s.pending = [] → runs n s = toOutcome (s.runEngine n) := by
  induction n with
  | zero => intro s _; rfl
  | succ n ih =>
    intro s hp
    have hstep : step s = toOutcome s.engineTurn := step_nil hp
    cases hturn : s.engineTurn with
    | error f => rw [runEngine_succ_error hturn]; exact runs_succ_fault (by rw [hstep, hturn]; rfl) n
    | ok u =>
      rw [runEngine_succ_ok hturn, runs_succ_next (t := u) (by rw [hstep, hturn]; rfl) n]
      exact ih ((engineTurn_ok hturn).pending.trans hp)

theorem toOutcome_next {x : Except Fault State} {t : State} (h : toOutcome x = .next t) : x = .ok t := by
  cases x with
  | error f => cases h
  | ok s => cases h; rfl

/-! ### What a completed command leaves, in either reading of R139 -/

/-- A run that has reached `DONE` has written every row, with its row value. -/
theorem runDone_of_runEngine {s t : State} {n : Nat} : ∀ {e : Engine} {m : Memory}, s.RunAt e m →
    (s.at e m).runEngine n = .ok t → t.status = .done → s.RunDone e.kernel t.mem := by
  induction n with
  | zero => intro e m _ ht hd; cases ht; cases hd
  | succ n ih =>
    intro e m h ht hd
    cases hop : engineOp e (s.at e m) with
    | error f => rw [runEngine_succ_error (s := s.at e m) hop] at ht; cases ht
    | ok u =>
      rw [runEngine_succ_ok (s := s.at e m) hop] at ht
      rcases engineOp_at h hop with ⟨e', m', rfl, hk, h', -⟩ | ⟨m', rfl, hdone, -⟩
      · rw [← hk]; exact ih h' ht hd
      · rw [runEngine_not_busy rfl] at ht
        cases ht
        exact hdone

/-- A completed command has come from its start to `DONE` by engine operations. -/
theorem runEngine_of_completes {s t : State} {k : Kernel} (hgo : s.TakesGo) (ha : s.acceptError k = none)
    (h : s.Completes t k) : ∃ n, (s.accept k).runEngine n = .ok t ∧ t.status = .done := by
  unfold State.Completes at h
  split at h
  · obtain ⟨hp, -, n, hruns, hd⟩ := h
    rw [runs_eq_runEngine (s := s.accept k) hp] at hruns
    exact ⟨n, toOutcome_next hruns, hd⟩
  · next hv =>
    rw [exec_kernel] at h
    rcases launch_next h with ⟨hg, -⟩ | ⟨-, c, hc, -⟩ | ⟨-, -, hvis, -⟩ | ⟨-, -, -, hrun, -, hd⟩
    · rw [(takesGo_iff s).mp hgo] at hg; cases hg
    · rw [ha] at hc; cases hc
    · exact absurd hvis hv
    · exact ⟨_, hrun, hd⟩

/-- What a completed command leaves in memory (R69, R144), in either reading of R139. -/
theorem runDone_of_completes {s t : State} {k : Kernel} (hgo : s.TakesGo) (ha : s.acceptError k = none)
    (h : s.Completes t k) : s.RunDone k t.mem := by
  obtain ⟨n, hrun, hd⟩ := runEngine_of_completes hgo ha h
  exact runDone_of_runEngine (runAt_start ha) hrun hd

/-- The row values are functions of the setup and of the weight and input bytes (R85). -/
theorem rowValue_congr {s t : State} {k : Kernel} (hset : SameSetup t s)
    (hm : ∀ a, (s.weightRegion k).Has a ∨ s.inputRegion.Has a → t.mem.read a = s.mem.read a) {r : Nat}
    (hr : r < s.rows) : t.rowValue k r = s.rowValue k r := by
  unfold State.rowValue State.rowSum
  rw [hset.padded, partialSum_congr hset
    (fun j hj => hm _ (.inl (layout_in_weights (lt_of_lt_of_le hr (rows_le_weightRows s k)) hj)))
    (fun j hj => hm _ (.inr (input_in_region hj)))]

/-- Every output byte belongs to a row. -/
theorem output_byte_row {s : State} {a : Nat} (h : s.outputRegion.Has a) :
    ∃ r i, r < s.rows ∧ i < 4 ∧ a = s.yBase + 4 * r + i := by
  obtain ⟨hlo, hhi⟩ := h
  simp only [State.outputRegion] at hlo hhi
  exact ⟨(a - s.yBase) / 4, (a - s.yBase) % 4, by omega, by omega, by omega⟩

/-! ### A run that answers has performed every operation -/

/-- The operations of a run, counted by how many remain. -/
theorem runEngine_performs {s t : State} {n : Nat} : ∀ {e : Engine} {m : Memory}, s.RunAt e m → s.remaining e = n →
    (s.at e m).runEngine n = .ok t → ∀ p, 1 ≤ p → p ≤ n →
    ∃ e' m' u, e'.kernel = e.kernel ∧ s.RunAt e' m' ∧ s.remaining e' = p ∧ engineOp e' (s.at e' m') = .ok u := by
  induction n with
  | zero => intro e m _ _ _ p h1 h2; omega
  | succ n ih =>
    intro e m h hn ht p h1 h2
    cases hop : engineOp e (s.at e m) with
    | error f => rw [runEngine_succ_error (s := s.at e m) hop] at ht; cases ht
    | ok u =>
      rw [runEngine_succ_ok (s := s.at e m) hop] at ht
      by_cases hp : p = n + 1
      · exact ⟨e, m, u, rfl, h, by omega, hop⟩
      · rcases engineOp_at h hop with ⟨e', m', rfl, hk, h', hrem⟩ | ⟨m', rfl, -, hrem⟩
        · rw [← hk]; exact ih h' (by omega) ht p h1 (by omega)
        · omega

/-- How many operations remain from pass `row` of the outer loop and pass `col` of the inner one. -/
def State.remainingFrom (s : State) (k : Kernel) (row col : Nat) : Nat := (s.outer k - row) * (s.inner k + 1) - col

theorem remaining_eq (s : State) (e : Engine) : s.remaining e = s.remainingFrom e.kernel e.row e.col := rfl

/-- A pass further on, at least one operation fewer remains. -/
theorem remainingFrom_lt {s : State} {k : Kernel} {row col row' col' : Nat} (hrow : row < row')
    (hrow' : row' < s.outer k) (hcol : col ≤ s.inner k) : s.remainingFrom k row' col' < s.remainingFrom k row col := by
  have hmul : (s.outer k - row' + 1) * (s.inner k + 1) ≤ (s.outer k - row) * (s.inner k + 1) :=
    Nat.mul_le_mul_right _ (by omega)
  rw [Nat.add_mul] at hmul
  unfold State.remainingFrom
  omega

/-- What remains of the current pass of the outer loop is not more than what remains altogether. -/
theorem pass_le_remaining {s : State} {k : Kernel} {row : Nat} (h : row < s.outer k) :
    s.inner k + 1 ≤ (s.outer k - row) * (s.inner k + 1) := Nat.le_mul_of_pos_left _ (by omega)

theorem remainingFrom_pos {s : State} {k : Kernel} {row col : Nat} (hrow : row < s.outer k) (hcol : col ≤ s.inner k) :
    1 ≤ s.remainingFrom k row col := by
  have := pass_le_remaining hrow
  unfold State.remainingFrom
  omega

theorem remainingFrom_le_opCount (s : State) (k : Kernel) (row col : Nat) : s.remainingFrom k row col ≤ s.opCount k :=
  (Nat.sub_le _ _).trans (Nat.mul_le_mul_right _ (Nat.sub_le _ _))

/-- The number that remain tells where the run stands. -/
theorem remainingFrom_inj {s : State} {k : Kernel} {row col row' col' : Nat} (hrow : row < s.outer k)
    (hcol : col ≤ s.inner k) (hrow' : row' < s.outer k) (hcol' : col' ≤ s.inner k)
    (h : s.remainingFrom k row col = s.remainingFrom k row' col') : row = row' ∧ col = col' := by
  rcases Nat.lt_trichotomy row row' with hlt | rfl | hlt
  · have := remainingFrom_lt (col' := col') hlt hrow' hcol
    omega
  · have := pass_le_remaining hrow
    unfold State.remainingFrom at h
    omega
  · have := remainingFrom_lt (col' := col) hlt hrow hcol'
    omega

/-- A command that runs to its end performs its operation at every pass of both loops. -/
theorem command_performs {s t : State} {k : Kernel} (ha : s.acceptError k = none)
    (ht : (s.accept k).runEngine (s.opCount k) = .ok t) {row col : Nat} (hrow : row < s.outer k)
    (hcol : col ≤ s.inner k) :
    ∃ e m u, e.kernel = k ∧ e.row = row ∧ e.col = col ∧ s.RunAt e m ∧ engineOp e (s.at e m) = .ok u := by
  obtain ⟨e, m, u, hk, h, hrem, hop⟩ := runEngine_performs (runAt_start ha) (remaining_start s k) ht
    (s.remainingFrom k row col) (remainingFrom_pos hrow hcol) (remainingFrom_le_opCount s k row col)
  obtain rfl : e.kernel = k := hk
  obtain ⟨hr, hc⟩ := remainingFrom_inj h.row h.col hrow hcol ((remaining_eq s e).symm.trans hrem)
  exact ⟨e, m, u, rfl, hr, hc, h, hop⟩

/-- A source byte readable at a point of a run was readable at its start. -/
theorem State.RunAt.readable {s : State} {e : Engine} {m : Memory} (h : s.RunAt e m) {a : Nat}
    (hr : (s.at e m).Readable a) (ho : ¬ s.outputRegion.Has a) : s.Readable a := by
  obtain ⟨hf, hv⟩ := hr
  exact ⟨(s.at_setup e m).addressFault a ▸ hf, h.frame a ho ▸ hv⟩

/-- A command that runs to its end found both bytes of every padded element readable. -/
theorem command_element_readable {s t : State} {k : Kernel} (ha : s.acceptError k = none)
    (ht : (s.accept k).runEngine (s.opCount k) = .ok t) {r j : Nat} (hr : r < s.weightRows k) (hj : j < s.padded) :
    s.Readable (s.wBase + layoutOffset k s.padded r j) ∧ s.Readable (s.xBase + j) := by
  obtain ⟨-, -, -, -, how, hox⟩ := acceptError_none ha
  obtain ⟨e, m, u, rfl, her, hec, h, hop⟩ := command_performs ha ht (outerPass_lt hr) (innerPass_lt (k := k) hj).le
  have hset := s.at_setup e m
  have reads : ∀ a, a = s.wBase + layoutOffset e.kernel s.padded r j ∨ a = s.xBase + j → (s.at e m).Readable a := by
    intro a hadr
    refine engineOp_readable hop (by rw [hset.outer]; exact h.row) ⟨?_, r, j, (passRow_iff e r).mpr her,
      (passCol_iff e j).mpr hec, by rw [hset.wBase, hset.padded, hset.xBase]; exact hadr⟩
    rw [hset.inner, hec]
    exact innerPass_lt hj
  exact ⟨h.readable (reads _ (.inl rfl)) fun ho => how _ ho (layout_in_weights hr hj),
    h.readable (reads _ (.inr rfl)) fun ho => hox _ ho (input_in_region hj)⟩

/-- A command that runs to its end found every byte of its sources readable (R71, R78). -/
theorem command_sources_readable {s t : State} {k : Kernel} (ha : s.acceptError k = none)
    (ht : (s.accept k).runEngine (s.opCount k) = .ok t) {a : Nat}
    (h : (s.weightRegion k).Has a ∨ s.inputRegion.Has a) : s.Readable a := by
  rcases h with ⟨hlo, hhi⟩ | ⟨hlo, hhi⟩
  · simp only [State.weightRegion] at hlo hhi
    obtain ⟨r, j, hr, hj, hoff⟩ := layoutOffset_surjective (s := s) (k := k) (p := a - s.wBase) (by omega)
    have := (command_element_readable ha ht hr hj).1
    rwa [hoff, Nat.add_sub_cancel' hlo] at this
  · simp only [State.inputRegion] at hlo hhi
    have hrow : 0 < s.weightRows k := lt_of_lt_of_le (acceptError_none ha).1 (rows_le_weightRows s k)
    have := (command_element_readable ha ht hrow (j := a - s.xBase) (by omega)).2
    rwa [Nat.add_sub_cancel' hlo] at this

/-- A command that runs to its end found every byte of its output writable (R78). -/
theorem command_output_writable {s t : State} {k : Kernel} (ha : s.acceptError k = none)
    (ht : (s.accept k).runEngine (s.opCount k) = .ok t) {a : Nat} (h : s.outputRegion.Has a) : s.Writable a := by
  obtain ⟨r, i, hr, hi, rfl⟩ := output_byte_row h
  obtain ⟨e, m, u, rfl, her, hec, hrun, hop⟩ := command_performs ha ht
    (outerPass_lt (lt_of_lt_of_le hr (rows_le_weightRows s k))) (le_refl _)
  have hset := s.at_setup e m
  have hw := engineOp_writable hop (by rw [hset.outer]; exact hrun.row)
    ⟨by rw [hset.inner]; exact hec, (passRow_iff e r).mpr her, by rw [hset.rows]; exact hr⟩ hi
  unfold State.Writable at hw ⊢
  rwa [hset.addressFault, hset.yBase] at hw

/-- A command whose engine faults ends in a fault, in either reading of R139. -/
theorem endsInFault_of_runEngine {s : State} {k : Kernel} {f : Fault} (hgo : s.TakesGo) (ha : s.acceptError k = none)
    (hse : s.overSideEffects k = false) (hp : s.params.visibleBusy = true → s.pending = [])
    (hf : (s.accept k).runEngine (s.opCount k) = .error f) : s.EndsInFault k := by
  unfold State.EndsInFault
  rw [exec_kernel]
  rcases launch_cases s k with ⟨hg, -⟩ | ⟨-, c, hc, -⟩ | ⟨-, -, ho, -⟩ | ⟨-, -, -, -, hl⟩ | ⟨-, -, -, -, hl⟩
  · rw [(takesGo_iff s).mp hgo] at hg; cases hg
  · rw [ha] at hc; cases hc
  · rw [hse] at ho; cases ho
  · exact .inl ⟨_, hl⟩
  · unfold State.runCommand at hl
    split at hl
    · next hv =>
      refine .inr ⟨hv, hl, s.opCount k, f, ?_⟩
      rw [runs_eq_runEngine (s := s.accept k) (hp hv), hf]; rfl
    · exact .inl ⟨f, by rw [hl, hf]; rfl⟩

/-- A byte that can be accessed is one the platform provides (R78). -/
theorem admits_of_addressFault_none {s : State} {a : Nat} (h : s.addressFault a = none) : s.params.admits a = true := by
  unfold State.addressFault at h
  split at h
  · cases h
  · split at h
    · next hadm => exact hadm
    · cases h

theorem acceptError_range {s : State} {k : Kernel} (harg : s.argBad = false) (hcap : s.capBad k = false)
    (halign : s.alignBad = false) (hrange : s.rangeBad k = true) : s.acceptError k = some .range := by
  unfold State.acceptError
  simp [harg, hcap, halign, hrange]

/-! ### The obligations -/

/-- Settles O28: a command that does not fault has performed every operation, so every byte it needs was provided. -/
theorem unprovidedByteFaults : Obligations.UnprovidedByteFaults := by
  refine ⟨fun k s hgo ha hse hp hbad => ?_, fun k s hgo harg hcap halign hrange => ?_⟩
  · cases hrun : (s.accept k).runEngine (s.opCount k) with
    | error f => exact endsInFault_of_runEngine hgo ha hse hp hrun
    | ok t =>
      exfalso
      rcases hbad with ⟨a, hsrc, hmiss⟩ | ⟨a, hout, hadm⟩
      · obtain ⟨hf, hv⟩ := command_sources_readable ha hrun hsrc
        rcases hmiss with hnone | hadm
        · exact hv hnone
        · rw [admits_of_addressFault_none hf] at hadm; cases hadm
      · rw [admits_of_addressFault_none (command_output_writable ha hrun hout)] at hadm; cases hadm
  · rw [exec_kernel]
    exact launch_refused ((takesGo_iff s).mp hgo) (acceptError_range harg hcap halign hrange)

/-- Settles O33: each output byte is a byte of a row value, and the row values agree. -/
theorem noCarriedState : Obligations.NoCarriedState := by
  rintro k s t s' t' hparams hregs ⟨hsgo, hsa, -⟩ ⟨htgo, hta, -⟩ hm hs ht a hout
  have hset : SameSetup t s := ⟨hparams, hregs⟩
  obtain ⟨r, i, hr, hi, rfl⟩ := output_byte_row hout
  have hs' := (runDone_of_completes hsgo hsa hs).outputs r hr i hi
  have ht' := (runDone_of_completes htgo hta ht).outputs r (by rw [hset.rows]; exact hr) i hi
  rw [hset.yBase, rowValue_congr hset hm hr] at ht'
  rw [hs', ht']

/-- Settles O43, by the three rules for host accesses while `BUSY`. -/
theorem busyBuffersAreProtected : Obligations.BusyBuffersAreProtected := by
  intro s e hbusy
  refine ⟨fun a b rest hp hf hs hbuf => ?_, fun a rest hp hf hs hout => ?_, fun a v rest hp hf hs hout hu hv => ?_⟩
  · rw [step_memWrite hp]
    exact hostMemWrite_busyBuffer (s := s.withPending rest) hf hs
      ((inBusyBuffers_iff (s := s.withPending rest) hbusy a).mpr hbuf) b
  · rw [step_memRead hp]
    exact hostMemRead_busyOutput hf hs ((inBusyOutput_iff (s := s.withPending rest) hbusy a).mpr hout)
  · rw [step_memRead hp]
    refine hostMemRead_answered hf hs ?_ hu hv
    rw [← Bool.not_eq_true, inBusyOutput_iff (s := s.withPending rest) hbusy]
    exact hout

end Sys2Proof.Machine
end

section
/-! PROOFS. The decode function on every command word, and the register `CMD` that holds one (R104). -/

namespace Sys2Proof.Machine

/-! ### The decode function (R104) -/

theorem kernelCode_toNat_le (k : Kernel) : k.code.toNat ≤ 3 := by cases k <;> decide

/-- A word with the value of a kernel's word decodes to that kernel (R103). -/
theorem decodeCommand_of_toNat {c : Word64} {k : Kernel} (h : c.toNat = k.code.toNat) : decodeCommand c = .ok k := by
  rw [BitVec.eq_of_toNat_eq h]
  cases k <;> rfl

/-- The illegal words are those above the last kernel's. -/
theorem decodeCommand_illegal_iff (c : Word64) : (∃ x, decodeCommand c = .error x) ↔ 3 < c.toNat := by
  rcases decodeCommand_cases c with ⟨hlt, hx⟩ | ⟨k, rfl, hk⟩
  · exact iff_of_true hx hlt
  · refine iff_of_false (fun ⟨x, hx⟩ => ?_) (kernelCode_toNat_le k).not_gt
    rw [hk] at hx
    cases hx

/-! ### A write that is not ignored (R131) -/

/-- A write while not `BUSY` of any register but `CTRL` stores the data and changes nothing else. -/
theorem exec_regWr_stores {s : State} {o : BitVec 8} (hb : s.status.isBusy = false) (h : o.toNat % 8 = 0)
    (hc : regAt o ≠ .ctrl) (d : Word64) : exec (.regWr o d) s = .next (s.withRegs (s.regs.store d (regAt o))) := by
  rw [exec_regWr_of_ne_ctrl h hc]
  rcases writeReg_cases s (regAt o) d with ⟨hn, -⟩ | ⟨-, hw⟩
  · rw [hb] at hn; cases hn
  · rw [hw]

/-! ### The obligation -/

/-- Settles O2: the two fields give the word's value, and a word is legal exactly when that value is at most 3. -/
theorem commandWordDecode : Obligations.CommandWordDecode := by
  refine ⟨fun c => ⟨fun hres => ?_, fun hres hker => ?_, fun hres hker => ?_, fun hres hker => ?_,
    fun hres hker => ?_, fun hres hker => ?_⟩, fun s hgo ⟨x, hx⟩ => ?_, fun s d hb => ?_⟩
  · exact (decodeCommand_illegal_iff c).mpr (by omega)
  · exact decodeCommand_of_toNat (show c.toNat = 0 by omega)
  · exact decodeCommand_of_toNat (show c.toNat = 1 by omega)
  · exact decodeCommand_of_toNat (show c.toNat = 2 by omega)
  · exact decodeCommand_of_toNat (show c.toNat = 3 by omega)
  · exact (decodeCommand_illegal_iff c).mpr (by omega)
  · exact (exec_go s).trans (go_illegal ((takesGo_iff s).mp hgo) hx)
  · exact ⟨_, exec_regWr_stores hb (by decide) (by decide) d, rfl, _, exec_regRd_aligned (by decide) _, rfl⟩

end Sys2Proof.Machine
end

section
/-! PROOFS. Register accesses at every offset (R130, R131), the checks of `GO` with their priority and what a refusal
writes (R134 to R138, R222, R224), and the arithmetic primitives (R140 to R143). -/

namespace Sys2Proof.Machine

/-! ### The offset of a register (R23) -/

@[simp] theorem regAt_offset (r : Reg) : regAt r.offset = r := by cases r <;> rfl

theorem offset_mod8 (r : Reg) : r.offset.toNat % 8 = 0 := by cases r <;> rfl

/-- The aligned offsets from `STATUS` on name no register that a write stores to. -/
theorem regAt_from_status {o : BitVec 8} (h : 0x50 ≤ o.toNat) (ha : o.toNat % 8 = 0) :
    regAt o = .status ∨ regAt o = .reserved := by
  by_cases hs : o.toNat = 0x50
  · rw [show o = Reg.status.offset from BitVec.eq_of_toNat_eq hs]
    exact .inl (regAt_offset _)
  · exact .inr (regAt_reserved (by omega))

/-- A register that is no reserved offset is named by its own offset alone. -/
theorem eq_offset_of_regAt {o : BitVec 8} {r : Reg} (h : regAt o = r) (hr : r ≠ .reserved) : o = r.offset := by
  unfold regAt at h
  split at h
  case h_12 => exact absurd h.symm hr
  all_goals
    next ho =>
      subst h
      exact BitVec.eq_of_toNat_eq ho

/-! ### Reads (R130) -/

/-- A read of a register's own offset returns the register. -/
theorem busRead_at_offset {o : BitVec 8} {r : Reg} (h : o = r.offset) (s : State) :
    (s.busRead (regAt o)).busData = s.readReg r := by
  rw [h, regAt_offset, busRead_busData]

/-- A read that is no ordering point leaves the record of unread output alone: one of another register, or one of
`STATUS` that does not return `DONE` (R79). -/
theorem busRead_unsynced {s : State} {r : Reg} (h : ¬ (r = .status ∧ s.status = .done)) :
    (s.busRead r).unsynced = s.unsynced := by
  have hs : s.syncOnRead r = s := if_neg h
  unfold State.busRead
  rw [hs, State.withBusData_unsynced]

theorem Status.word_of_busy {x : Status} (h : x.isBusy = true) : x.word = 0x01 := by
  cases x with
  | busy e => rfl
  | _ => cases h

/-! ### Writes (R131) -/

/-- A write at the offset of a register other than `CTRL`, while not `BUSY`. -/
theorem exec_regWr_at_offset {s : State} {o : BitVec 8} {r : Reg} (hb : s.status.isBusy = false) (hc : r ≠ .ctrl)
    (h : o = r.offset) (d : Word64) : exec (.regWr o d) s = .next (s.withRegs (s.regs.store d r)) := by
  subst h
  rw [exec_regWr_stores hb (offset_mod8 r) (by rwa [regAt_offset]), regAt_offset]

/-- A write at an offset that holds nothing and is not `CTRL`'s. -/
theorem exec_regWr_read_only {o : BitVec 8} (ha : o.toNat % 8 = 0) (h : o = 0x00 ∨ o = 0x20 ∨ 0x50 ≤ o.toNat)
    (d : Word64) (s : State) : exec (.regWr o d) s = .next s := by
  have hr : regAt o = .cap ∨ regAt o = .kpad ∨ regAt o = .status ∨ regAt o = .reserved := by
    rcases h with rfl | rfl | h
    · exact .inl rfl
    · exact .inr (.inl rfl)
    · exact .inr (.inr (regAt_from_status h ha))
  rcases hr with hr | hr | hr | hr <;>
    exact exec_regWr_ignored ha (by rw [hr]; decide) (by rw [hr]; exact fun _ _ => rfl) d s

/-! ### The checks of `GO`, as the spec writes them (R134 to R137) -/

theorem argBad_iff (s : State) : s.argBad = true
    ↔ s.regs.n.toNat = 0 ∨ 2 ^ 31 - 1 < s.regs.n.toNat ∨ s.regs.k.toNat = 0 ∨ 2 ^ 31 - 1 < s.regs.k.toNat := by
  rw [← Bool.not_eq_false, argBad_false_iff]
  omega

/-- The rows of weights, by whether the kernel's layout pads them to blocks of four (R64 to R67). -/
theorem weightRows_eq (s : State) (k : Kernel) :
    s.weightRows k = if k = .scalar ∨ k = .singleRow then s.regs.n.toNat else (s.regs.n.toNat + 3) / 4 * 4 := by
  cases k <;> rfl

theorem acceptError_arg {s : State} (k : Kernel) (harg : s.argBad = true) : s.acceptError k = some .arg := if_pos harg

theorem acceptError_cap {s : State} {k : Kernel} (harg : s.argBad = false) (hcap : s.capBad k = true) :
    s.acceptError k = some .cap := by
  unfold State.acceptError
  simp [harg, hcap]

theorem acceptError_align {s : State} {k : Kernel} (harg : s.argBad = false) (hcap : s.capBad k = false)
    (halign : s.alignBad = true) : s.acceptError k = some .align := by
  unfold State.acceptError
  simp [harg, hcap, halign]

theorem acceptError_none_of_checks {s : State} {k : Kernel} (harg : s.argBad = false) (hcap : s.capBad k = false)
    (halign : s.alignBad = false) (hrange : s.rangeBad k = false) : s.acceptError k = none := by
  unfold State.acceptError
  simp [harg, hcap, halign, hrange]

/-! ### Refusals (R138, R224) -/

/-- `GO` with a kernel's word in `CMD` is refused with the code of the first check that fails. -/
theorem exec_go_refused {s : State} {k : Kernel} {c : ErrorCode} (hgo : s.TakesGo) (hcmd : s.regs.cmd = k.code)
    (he : s.acceptError k = some c) : exec .go s = .next (s.withStatus (.error c)) := by
  have hk : decodeCommand s.regs.cmd = .ok k := decodeCommand_of_toNat (congrArg BitVec.toNat hcmd)
  rw [exec_go, go_eq_launch hk]
  exact launch_refused ((takesGo_iff s).mp hgo) he

/-- `GO` is refused with `ERR_ARG` for an illegal word and for an illegal dimension, whichever the kernel (R134). -/
theorem exec_go_arg {s : State} (hgo : s.TakesGo) (h : 3 < s.regs.cmd.toNat ∨ s.argBad = true) :
    exec .go s = .next (s.withStatus (.error .arg)) := by
  rcases decodeCommand_cases s.regs.cmd with ⟨-, x, hx⟩ | ⟨k, hcmd, -⟩
  · exact go_illegal ((takesGo_iff s).mp hgo) hx
  · have hle := kernelCode_toNat_le k
    rw [← hcmd] at hle
    exact exec_go_refused hgo hcmd (acceptError_arg k (h.resolve_left (by omega)))

/-- A command that answers `ERROR` has failed a check, and is refused with its code. -/
theorem launch_error {s t : State} {k : Kernel} {c : ErrorCode} (hgo : s.TakesGo) (h : s.launch k = .next t)
    (hc : t.status = .error c) : s.acceptError k = some c ∧ t = s.refuse c := by
  rcases launch_next h with ⟨hi, -⟩ | ⟨-, c', he, rfl⟩ | ⟨-, -, -, rfl⟩ | ⟨-, -, -, -, -, hd⟩
  · rw [(takesGo_iff s).mp hgo] at hi; cases hi
  · cases hc; exact ⟨he, rfl⟩
  · cases hc
  · rw [hd] at hc; cases hc

/-- The checks read the parameters and the registers alone, so a state with the same refuses the same command with the
same code (R138). -/
theorem launch_refused_congr {s t u : State} {k : Kernel} {c : ErrorCode} (hgo : s.TakesGo) (h : s.launch k = .next t)
    (hc : t.status = .error c) (hu : SameSetup u s) (hug : u.TakesGo) : u.launch k = .next (u.refuse c) := by
  obtain ⟨he, -⟩ := launch_error hgo h hc
  exact launch_refused ((takesGo_iff u).mp hug) ((hu.acceptError k).trans he)

/-- `GO` answers `ERROR` by a refusal alone, and it too refuses in the same way from a state with the same parameters
and registers: the word is one of them, and the rest is the launch of the kernel it decodes to. -/
theorem go_error {s t u : State} {c : ErrorCode} (hgo : s.TakesGo) (h : s.go = .next t) (hc : t.status = .error c)
    (hu : SameSetup u s) (hug : u.TakesGo) : t = s.refuse c ∧ u.go = .next (u.refuse c) := by
  have hregs : u.regs = s.regs := hu.2
  cases hd : decodeCommand s.regs.cmd with
  | error x =>
    rw [go_illegal ((takesGo_iff s).mp hgo) hd] at h
    cases h
    cases hc
    exact ⟨rfl, go_illegal ((takesGo_iff u).mp hug) (by rw [hregs]; exact hd)⟩
  | ok k =>
    rw [go_eq_launch hd] at h
    rw [go_eq_launch (k := k) (by rw [hregs]; exact hd)]
    exact ⟨(launch_error hgo h hc).2, launch_refused_congr hgo h hc hu hug⟩

/-! ### The arithmetic primitives (R140 to R143) -/

/-- The product of two integers of the signed byte range, bounded by its values at the corners of that range. -/
theorem signedByte_mul_bounds {a b : Int} (ha : -128 ≤ a ∧ a ≤ 127) (hb : -128 ≤ b ∧ b ≤ 127) :
    -16256 ≤ a * b ∧ a * b ≤ 16384 := by
  obtain ⟨ha0, ha1⟩ := ha
  obtain ⟨hb0, hb1⟩ := hb
  have hll : 0 ≤ (a + 128) * (b + 128) := mul_nonneg (by omega) (by omega)
  have huu : 0 ≤ (127 - a) * (127 - b) := mul_nonneg (by omega) (by omega)
  have hlu : 0 ≤ (a + 128) * (127 - b) := mul_nonneg (by omega) (by omega)
  have hul : 0 ≤ (127 - a) * (b + 128) := mul_nonneg (by omega) (by omega)
  constructor <;> nlinarith only [hll, huu, hlu, hul, ha0, hb0]

theorem s8_bounds (b : Byte) : -128 ≤ s8 b ∧ s8 b ≤ 127 :=
  ⟨BitVec.le_toInt b, Int.le_of_lt_add_one BitVec.toInt_lt⟩

theorem wrap32_bounds (v : Int) : -2 ^ 31 ≤ wrap32 v ∧ wrap32 v ≤ 2 ^ 31 - 1 :=
  ⟨BitVec.le_toInt _, Int.le_sub_one_of_lt BitVec.toInt_lt⟩

/-- `wrap32` keeps the residue modulo 2^32 (R15). -/
theorem wrap32_congr (v : Int) : (wrap32 v - v) % 2 ^ 32 = 0 := by
  unfold wrap32
  rw [BitVec.toInt_ofInt]
  exact Int.emod_eq_emod_iff_emod_sub_eq_zero.mp Int.bmod_emod

theorem accumulate_toInt (a : Word32) (v : Int) : (accumulate a v).toInt = wrap32 (a.toInt + v) := rfl

/-! ### The obligations -/

/-- Settles O34, by the bounds of a signed byte. -/
theorem productExactAndBounded : Obligations.ProductExactAndBounded :=
  ⟨fun w x => ⟨rfl, signedByte_mul_bounds (s8_bounds w) (s8_bounds x)⟩, by decide, by decide⟩

/-- Settles O35: each lane of `dot16` is one accumulation of the sum of its group of four products. -/
theorem accumulatorPrimitives : Obligations.AccumulatorPrimitives := by
  refine ⟨fun v => ?_, accumulate_toInt, fun a wv xv => ?_, fun a => rfl⟩
  · obtain ⟨hlow, hhigh⟩ := wrap32_bounds v
    exact ⟨hlow, hhigh, wrap32_congr v⟩
  · exact ⟨accumulate_toInt a.l0 _, accumulate_toInt a.l1 _, accumulate_toInt a.l2 _, accumulate_toInt a.l3 _⟩

/-- Settles O6, register by register. -/
theorem registerReads : Obligations.RegisterReads := by
  intro s o ha
  have hread : ∀ r : Reg, o = r.offset → (s.busRead (regAt o)).busData = s.readReg r := fun r h =>
    busRead_at_offset h s
  refine ⟨_, exec_regRd_aligned ha s, hread .cap, hread .cmd, hread .n, hread .k, fun h => ?kpad, hread .prefetch,
    hread .wBase, hread .xBase, hread .yBase, hread .ctrl, fun h => ?status, fun h => ?reserved, busRead_params s _,
    busRead_regs s _, busRead_status s _, busRead_mem s _, busRead_memData s _, busRead_pending s _, fun h => ?unsynced⟩
  case kpad =>
    rw [hread .kpad h]
    exact kpadOf_toNat s.regs.k
  case status =>
    have hw : (s.busRead (regAt o)).busData = s.status.word := hread .status h
    rw [hw]
    exact ⟨congrArg Status.word, Status.word_of_busy, congrArg Status.word, congrArg Status.word, congrArg Status.word,
      congrArg Status.word, congrArg Status.word⟩
  case reserved =>
    rw [busRead_busData, regAt_reserved h]
    rfl
  case unsynced => exact busRead_unsynced fun ⟨hr, hd⟩ => h ⟨eq_offset_of_regAt hr (by decide), hd⟩

/-- Settles O7, register by register. -/
theorem registerWrites : Obligations.RegisterWrites := by
  refine fun s o d ha => ⟨fun h => ?_, fun _ hb => exec_regWr_busy hb ha d, fun hb => ?_⟩
  · rw [h]
    exact exec_regWr_ctrl d s
  · have hstore : ∀ r : Reg, r ≠ .ctrl → o = r.offset → exec (.regWr o d) s = .next (s.withRegs (s.regs.store d r)) :=
      fun r hc h => exec_regWr_at_offset hb hc h d
    exact ⟨hstore .cmd (by decide), hstore .n (by decide), hstore .k (by decide), hstore .prefetch (by decide),
      hstore .wBase (by decide), hstore .xBase (by decide), hstore .yBase (by decide),
      fun h => exec_regWr_read_only ha h d s⟩

/-- Settles O13: each check as the spec writes it, then the first of them that fails. -/
theorem goRefusalPriority : Obligations.GoRefusalPriority := by
  intro s hgo dimBad misaligned n kp w x y top
  have harg : s.argBad = true ↔ dimBad := argBad_iff s
  have halign : s.alignBad = true ↔ misaligned := alignBad_iff s
  refine ⟨fun h => exec_go_arg hgo (h.imp_right harg.mpr), fun k hcmd hdim => ?_⟩
  intro wsize rangeBad
  have hcap : s.capBad k = true ↔ k ≠ .scalar ∧ s.params.hasDotprod = false := capBad_iff s k
  have hrange : s.rangeBad k = true ↔ rangeBad := by
    rw [rangeBad_iff, weightRows_eq]
    exact Iff.rfl
  rw [← hcap, ← halign, ← hrange]
  rw [← harg, Bool.not_eq_true] at hdim
  simp only [Bool.not_eq_true]
  exact ⟨fun hc => exec_go_refused hgo hcmd (acceptError_cap hdim hc), fun hc =>
    ⟨fun hm => exec_go_refused hgo hcmd (acceptError_align hdim hc hm),
      fun hm hr => exec_go_refused hgo hcmd (acceptError_range hdim hc hm hr),
      fun hm hr => acceptError_none_of_checks hdim hc hm hr⟩⟩

/-- Settles O15: a refusal is decided by the parameters and the registers, which a state with another memory shares. -/
theorem refusalTouchesStatusAlone : Obligations.RefusalTouchesStatusAlone := by
  intro i s t c hi hgo h hc
  have hcommand : i = .go ∨ ∃ k : Kernel, i = k.toInstr := by
    rcases hi with hi | hi | hi | hi | hi
    · exact .inl hi
    · exact .inr ⟨.scalar, hi⟩
    · exact .inr ⟨.singleRow, hi⟩
    · exact .inr ⟨.fourRowBlocked, hi⟩
    · exact .inr ⟨.fourRowInterleaved, hi⟩
  rcases hcommand with rfl | ⟨k, rfl⟩
  · exact ⟨(go_error hgo h hc (.refl s) hgo).1, fun m => (go_error hgo h hc (.of_withMem s m) hgo).2⟩
  · rw [exec_kernel] at h
    refine ⟨(launch_error hgo h hc).2, fun m => ?_⟩
    rw [exec_kernel]
    exact launch_refused_congr hgo h hc (.of_withMem s m) hgo

end Sys2Proof.Machine
end

section
/-! PROOFS. What looks at the capability and what does not (R135, R160, R170, R180), and the output of a row under zero
padding (R70, R163). -/

namespace Sys2Proof.Machine

/-! ### The capability changes no register, no status and no byte -/

@[simp] theorem withCapability_status (s : State) (b : Bool) : (s.withCapability b).status = s.status := rfl
@[simp] theorem withCapability_visibleBusy (s : State) (b : Bool) :
    (s.withCapability b).params.visibleBusy = s.params.visibleBusy := rfl
@[simp] theorem withCapability_rows (s : State) (b : Bool) : (s.withCapability b).rows = s.rows := rfl
@[simp] theorem withCapability_padded (s : State) (b : Bool) : (s.withCapability b).padded = s.padded := rfl
@[simp] theorem withCapability_wBase (s : State) (b : Bool) : (s.withCapability b).wBase = s.wBase := rfl
@[simp] theorem withCapability_xBase (s : State) (b : Bool) : (s.withCapability b).xBase = s.xBase := rfl
@[simp] theorem withCapability_outer (s : State) (b : Bool) (k : Kernel) :
    (s.withCapability b).outer k = s.outer k := rfl
@[simp] theorem withCapability_inner (s : State) (b : Bool) (k : Kernel) :
    (s.withCapability b).inner k = s.inner k := rfl
@[simp] theorem withCapability_addressFault (s : State) (b : Bool) (a : Nat) :
    (s.withCapability b).addressFault a = s.addressFault a := rfl
@[simp] theorem withCapability_readByte (s : State) (b : Bool) (a : Nat) :
    (s.withCapability b).readByte a = s.readByte a := rfl
@[simp] theorem withCapability_rowFault (s : State) (b : Bool) (k : Kernel) (r : Nat) :
    (s.withCapability b).rowFault k r = s.rowFault k r := rfl
@[simp] theorem withCapability_overSideEffects (s : State) (b : Bool) (k : Kernel) :
    (s.withCapability b).overSideEffects k = s.overSideEffects k := rfl
@[simp] theorem withCapability_unsafeK (s : State) (b : Bool) : (s.withCapability b).unsafeK = s.unsafeK := rfl

/-- A result of the engine with the capability changed in its next state, and its fault kept. -/
def okWithCapability (b : Bool) (x : Except Fault State) : Except Fault State := x.map (·.withCapability b)

@[simp] theorem okWithCapability_ok (b : Bool) (s : State) :
    okWithCapability b (.ok s) = .ok (s.withCapability b) := rfl
@[simp] theorem okWithCapability_error (b : Bool) (f : Fault) : okWithCapability b (.error f) = .error f := rfl

@[simp] theorem toOutcome_okWithCapability (b : Bool) (x : Except Fault State) :
    toOutcome (okWithCapability b x) = mapNext (·.withCapability b) (toOutcome x) := by
  cases x <;> rfl

/-! ### The engine's reads and writes do not look at the capability -/

theorem withCapability_readBytes (b : Bool) (s : State) (n : Nat) : ∀ a : Nat,
    (s.withCapability b).readBytes a n = s.readBytes a n := by
  induction n with
  | zero => exact fun _ => rfl
  | succ n ih => intro a; simp only [State.readBytes, withCapability_readByte, ih]

@[simp] theorem withCapability_load16 (s : State) (b : Bool) (a : Nat) : (s.withCapability b).load16 a = s.load16 a :=
  withCapability_readBytes b s 16 a

theorem writeBytes_withCapability (b : Bool) (bs : List Byte) : ∀ (s : State) (a : Nat),
    (s.withCapability b).writeBytes a bs = okWithCapability b (s.writeBytes a bs) := by
  induction bs with
  | nil => exact fun _ _ => rfl
  | cons v bs ih =>
    intro s a
    simp only [State.writeBytes, withCapability_addressFault]
    cases s.addressFault a with
    | some f => rfl
    | none => exact ih (s.withMem (s.mem.write a v)) (a + 1)

theorem emitRow_withCapability (b : Bool) (s : State) (k : Kernel) (r : Nat) (y : Word32) :
    (s.withCapability b).emitRow k r y = okWithCapability b (s.emitRow k r y) := by
  simp only [State.emitRow, withCapability_rowFault]
  cases s.rowFault k r with
  | some f => rfl
  | none => exact writeBytes_withCapability b _ s _

theorem blockEmitRows_withCapability (b : Bool) (k : Kernel) (e : Engine) (s : State) (m : Nat) :
    blockEmitRows k e (s.withCapability b) m = okWithCapability b (blockEmitRows k e s m) := by
  induction m with
  | zero => rfl
  | succ m ih =>
    simp only [blockEmitRows, ih, withCapability_rows]
    cases blockEmitRows k e s m with
    | error f => rfl
    | ok u =>
      simp only [okWithCapability_ok, emitRow_withCapability]
      split <;> rfl

theorem blockRows_withCapability (b : Bool) (addr : Nat → Nat) (s : State) (m : Nat) (e : Engine) :
    blockRows addr (s.withCapability b) m e = blockRows addr s m e := by
  induction m with
  | zero => rfl
  | succ m ih => simp only [blockRows, blockRowDot, ih, withCapability_load16]

theorem blockChunk_withCapability (b : Bool) (addr : Nat → Nat) (e : Engine) (s : State) :
    blockChunk addr e (s.withCapability b) = blockChunk addr e s := by
  simp only [blockChunk, blockRows_withCapability, withCapability_load16, withCapability_xBase]

theorem consume_withCapability (b : Bool) (e : Engine) (s : State) : e.consume (s.withCapability b) = e.consume s := by
  unfold Engine.consume
  cases e.kernel with
  | scalar => rfl
  | singleRow => simp only [singleRowChunk, singleRowPrefetch_eq, singleRowDot, withCapability_load16,
      withCapability_wBase, withCapability_padded, withCapability_xBase]
  | fourRowBlocked => exact blockChunk_withCapability b (blockedAddr e s) e s
  | fourRowInterleaved => exact blockChunk_withCapability b (interleavedAddr e s) e s

theorem emit_withCapability (b : Bool) (e : Engine) (s : State) :
    e.emit (s.withCapability b) = okWithCapability b (e.emit s) := by
  unfold Engine.emit
  cases e.kernel with
  | scalar => exact emitRow_withCapability b s _ _ _
  | singleRow => exact emitRow_withCapability b s _ _ _
  | fourRowBlocked => exact blockEmitRows_withCapability b _ e s 4
  | fourRowInterleaved => exact blockEmitRows_withCapability b _ e s 4

/-! ### A run of the engine does not look at the capability (R3) -/

theorem endRow_withCapability (b : Bool) (e : Engine) (s : State) :
    (s.withCapability b).endRow e = (s.endRow e).withCapability b := by
  unfold State.endRow
  rw [withCapability_outer]
  split <;> rfl

theorem engineOp_withCapability (b : Bool) (e : Engine) (s : State) :
    engineOp e (s.withCapability b) = okWithCapability b (engineOp e s) := by
  simp only [engineOp, withCapability_outer, withCapability_inner, consume_withCapability, emit_withCapability]
  split
  · split
    · cases e.consume s <;> rfl
    · cases e.emit s with
      | error f => rfl
      | ok u => exact congrArg Except.ok (endRow_withCapability b e u)
  · rfl

theorem engineTurn_withCapability (b : Bool) (s : State) :
    (s.withCapability b).engineTurn = okWithCapability b s.engineTurn := by
  simp only [State.engineTurn, withCapability_status]
  cases s.status with
  | busy e => exact engineOp_withCapability b e s
  | _ => rfl

theorem runEngine_withCapability (b : Bool) (n : Nat) : ∀ s : State,
    (s.withCapability b).runEngine n = okWithCapability b (s.runEngine n) := by
  induction n with
  | zero => exact fun _ => rfl
  | succ n ih =>
    intro s
    have hturn := engineTurn_withCapability b s
    cases hs : s.engineTurn with
    | error f =>
      rw [hs] at hturn
      rw [runEngine_succ_error hs, runEngine_succ_error hturn, okWithCapability_error]
    | ok u =>
      rw [hs] at hturn
      rw [runEngine_succ_ok hs, runEngine_succ_ok hturn, ih]

theorem runCommand_withCapability (b : Bool) (k : Kernel) (s : State) :
    (s.withCapability b).runCommand k = okWithCapability b (s.runCommand k) := by
  have hops : (s.withCapability b).opCount k = s.opCount k := by
    simp only [State.opCount, withCapability_outer, withCapability_inner]
  unfold State.runCommand
  rw [withCapability_visibleBusy, hops]
  split
  · rfl
  · exact runEngine_withCapability b _ (s.accept k)

/-! ### The checks of `scalar` do not look at the capability (R160) -/

theorem acceptError_scalar_withCapability (b : Bool) (s : State) :
    (s.withCapability b).acceptError .scalar = s.acceptError .scalar := rfl

/-- The whole of `scalar`'s launch commutes with a change of the capability (R160). -/
theorem launch_scalar_withCapability (b : Bool) (s : State) :
    (s.withCapability b).launch .scalar = mapNext (·.withCapability b) (s.launch .scalar) := by
  simp only [State.launch, withCapability_status, acceptError_scalar_withCapability, withCapability_overSideEffects,
    withCapability_unsafeK, runCommand_withCapability, toOutcome_okWithCapability]
  cases s.status.ignoresGo with
  | true => rfl
  | false =>
    cases s.acceptError .scalar with
    | some c => rfl
    | none =>
      cases s.overSideEffects .scalar with
      | true => rfl
      | false => cases s.unsafeK <;> rfl

/-! ### A kernel that needs the capability (R135, R170, R180) -/

/-- With legal dimensions the capability check is the first to fail (R135, R222). -/
theorem launch_without_capability {s : State} {k : Kernel} (hgo : s.TakesGo) (harg : s.argBad = false)
    (hk : k ≠ .scalar) (hcap : s.params.hasDotprod = false) : s.launch k = .next (s.withStatus (.error .cap)) :=
  launch_refused ((takesGo_iff s).mp hgo) (acceptError_cap harg ((capBad_iff s k).mpr ⟨hk, hcap⟩))

/-- Settles O18: neither the checks of `scalar` nor the engine look at the capability, and without it the check of R135
is the first to fail for every other kernel. -/
theorem capabilityGatesSimdOnly : Obligations.CapabilityGatesSimdOnly := by
  refine ⟨fun s b => launch_scalar_withCapability b s, fun s hgo hcap hn hn' hk hk' => ?_⟩
  have harg : s.argBad = false := (argBad_false_iff s).mpr ⟨⟨hn, hn'⟩, hk, hk'⟩
  exact ⟨launch_without_capability (k := .singleRow) hgo harg (by decide) hcap,
    launch_without_capability (k := .fourRowBlocked) hgo harg (by decide) hcap,
    launch_without_capability (k := .fourRowInterleaved) hgo harg (by decide) hcap⟩

/-! ### The sum of a row under zero padding (R70, R144, R163) -/

theorem sumUpTo_eq_zero {f : Nat → Int} {n : Nat} (h : ∀ i, i < n → f i = 0) : sumUpTo f n = 0 := by
  induction n with
  | zero => rfl
  | succ n ih => rw [sumUpTo, ih fun i hi => h i (by omega), h n (by omega), Int.add_zero]

theorem prod_eq_zero {w x : Byte} (h : w = 0 ∨ x = 0) : prod w x = 0 := by
  rcases h with rfl | rfl
  · exact Int.zero_mul _
  · exact Int.mul_zero _

/-- The padded columns of a legal `K` start at `K` (R27). -/
theorem k_le_padded {s : State} (h : s.regs.k.toNat ≤ Config.maxDim) : s.regs.k.toNat ≤ s.padded := by
  have hp : s.padded = ceil16 s.regs.k.toNat := kpadOf_legal s.regs.k h
  rw [hp]
  exact le_ceil16 _

/-- The padded columns add nothing to the sum of their row (R163). -/
theorem rowSum_of_paddingZero {s : State} {k : Kernel} {r : Nat} (hk : s.regs.k.toNat ≤ Config.maxDim)
    (hz : s.PaddingZero k r) : s.rowSum k r = s.partialSum k r s.regs.k.toNat := by
  obtain ⟨d, hd⟩ := Nat.exists_eq_add_of_le (k_le_padded hk)
  unfold State.rowSum State.partialSum
  rw [hd, sumUpTo_add, add_eq_left]
  exact sumUpTo_eq_zero fun i hi => prod_eq_zero (hz _ (Nat.le_add_right _ _) (by omega))

/-- A value in the signed 32-bit range is its own residue (R15, R145). -/
theorem wrap32_of_fits {v : Int} (hlo : -2 ^ 31 ≤ v) (hhi : v ≤ 2 ^ 31 - 1) : wrap32 v = v :=
  BitVec.toInt_ofInt_eq_self (by decide) hlo (by omega)

/-! ### The output of a completed command, in either reading of R139 -/

theorem output_of_completes {s t : State} {k : Kernel} {r : Nat} (hgo : s.TakesGo) (ha : s.acceptError k = none)
    (h : s.Completes t k) (hr : r < s.rows) : t.OutputIs r (s.rowValue k r) := by
  obtain ⟨n, hrun, -⟩ := runEngine_of_completes hgo ha h
  have hset : SameSetup t s := (runEngine_ok hrun).setup
  unfold State.OutputIs
  rw [hset.yBase]
  exact (runDone_of_completes hgo ha h).outputs r hr

/-- Settles O25: the output is the row value, and the padded columns add nothing to the row sum. -/
theorem exactUnderZeroPadding : Obligations.ExactUnderZeroPadding := by
  rintro k s t ⟨hgo, ha, -⟩ hdone r hr hz
  obtain ⟨-, -, -, hk, -⟩ := acceptError_none ha
  have hvalue : s.rowValue k r = BitVec.ofInt 32 (s.partialSum k r s.regs.k.toNat) :=
    congrArg (BitVec.ofInt 32) (rowSum_of_paddingZero hk hz)
  rw [hvalue]
  exact ⟨hvalue ▸ output_of_completes hgo ha hdone hr, wrap32_of_fits⟩

end Sys2Proof.Machine
end

section
/-! PROOFS. What the engine looks at, and that the prefetch distance is no part of it (R171 to R173). -/

namespace Sys2Proof.Machine

/-! ### A change of the state the engine does not see -/

/-- `f` changes nothing the engine looks at: the operands `n`, `KPAD` and the bases (R102, R133), the accesses the data
space answers and its bytes (R60, R71, R78), the reading of R145, the engine's own state, and the record of unread
output. And it commutes with what the engine writes. -/
structure EngineBlind (f : State → State) : Prop where
  rows (s : State) : (f s).rows = s.rows
  padded (s : State) : (f s).padded = s.padded
  wBase (s : State) : (f s).wBase = s.wBase
  xBase (s : State) : (f s).xBase = s.xBase
  yBase (s : State) : (f s).yBase = s.yBase
  addressFault (s : State) (a : Nat) : (f s).addressFault a = s.addressFault a
  accOverflow (s : State) : (f s).params.accOverflow = s.params.accOverflow
  status (s : State) : (f s).status = s.status
  mem (s : State) : (f s).mem = s.mem
  unsynced (s : State) : (f s).unsynced = s.unsynced
  withStatus (s : State) (x : Status) : (f s).withStatus x = f (s.withStatus x)
  withMem (s : State) (m : Memory) : (f s).withMem m = f (s.withMem m)
  withUnsynced (s : State) (u : Unsynced) : (f s).withUnsynced u = f (s.withUnsynced u)

namespace EngineBlind

variable {f : State → State}

/-! ### The engine's reads -/

theorem outer (h : EngineBlind f) (s : State) (k : Kernel) : (f s).outer k = s.outer k := by
  cases k <;> simp only [State.outer, State.blocks, h.rows]

theorem inner (h : EngineBlind f) (s : State) (k : Kernel) : (f s).inner k = s.inner k := by
  cases k <;> simp only [State.inner, State.chunks, h.padded]

theorem readByte (h : EngineBlind f) (s : State) (a : Nat) : (f s).readByte a = s.readByte a := by
  simp only [State.readByte, h.addressFault, h.mem]

theorem readBytes (h : EngineBlind f) (s : State) (n : Nat) : ∀ a, (f s).readBytes a n = s.readBytes a n := by
  induction n with
  | zero => exact fun _ => rfl
  | succ n ih => intro a; simp only [State.readBytes, h.readByte, ih]

theorem load16 (h : EngineBlind f) (s : State) (a : Nat) : (f s).load16 a = s.load16 a := h.readBytes s 16 a

theorem blockRows (h : EngineBlind f) (addr : Nat → Nat) (s : State) (m : Nat) (e : Engine) :
    Machine.blockRows addr (f s) m e = Machine.blockRows addr s m e := by
  induction m with
  | zero => rfl
  | succ m ih => simp only [Machine.blockRows, blockRowDot, ih, h.load16]

theorem blockChunk (h : EngineBlind f) (addr : Nat → Nat) (e : Engine) (s : State) :
    Machine.blockChunk addr e (f s) = Machine.blockChunk addr e s := by
  simp only [Machine.blockChunk, h.blockRows, h.load16, h.xBase]

/-- A pass of the inner loop is the same; for `dotprod` because its hint does nothing (R172). -/
theorem consume (h : EngineBlind f) (e : Engine) (s : State) : e.consume (f s) = e.consume s := by
  unfold Engine.consume
  cases e.kernel with
  | scalar => simp only [scalarMac, h.readByte, h.wBase, h.padded, h.xBase]
  | singleRow => simp only [singleRowChunk, singleRowPrefetch_eq, singleRowDot, h.load16, h.wBase, h.padded, h.xBase]
  | fourRowBlocked =>
    have haddr : blockedAddr e (f s) = blockedAddr e s := by
      funext i
      simp only [blockedAddr, h.wBase, h.padded]
    simp only [blockedChunk, haddr, h.blockChunk]
  | fourRowInterleaved =>
    have haddr : interleavedAddr e (f s) = interleavedAddr e s := by
      funext i
      simp only [interleavedAddr, h.wBase, h.padded]
    simp only [interleavedChunk, haddr, h.blockChunk]

/-! ### The engine's writes -/

/-- The check of R145 looks at the bytes of the row and at the reading of `ACC_OVERFLOW`. -/
theorem rowFault (h : EngineBlind f) (s : State) (k : Kernel) (r : Nat) : (f s).rowFault k r = s.rowFault k r := by
  have hsum : (f s).rowSum k r = s.rowSum k r := by
    simp only [State.rowSum, State.partialSum, State.weightByte, State.inputByte, State.byteAt, h.mem, h.wBase,
      h.xBase, h.padded]
  simp only [State.rowFault, hsum, h.accOverflow]

theorem writeBytes (h : EngineBlind f) (bs : List Byte) : ∀ (s : State) (a : Nat),
    (f s).writeBytes a bs = (s.writeBytes a bs).map f := by
  induction bs with
  | nil => exact fun _ _ => rfl
  | cons v bs ih =>
    intro s a
    simp only [State.writeBytes, h.addressFault, h.mem, h.withMem]
    cases s.addressFault a with
    | some x => rfl
    | none => exact ih (s.withMem (s.mem.write a v)) (a + 1)

theorem emitRow (h : EngineBlind f) (s : State) (k : Kernel) (r : Nat) (y : Word32) :
    (f s).emitRow k r y = (s.emitRow k r y).map f := by
  simp only [State.emitRow, State.writeOutput, h.rowFault, h.yBase, h.writeBytes]
  cases s.rowFault k r <;> rfl

theorem blockEmitRows (h : EngineBlind f) (k : Kernel) (e : Engine) (s : State) (m : Nat) :
    Machine.blockEmitRows k e (f s) m = (Machine.blockEmitRows k e s m).map f := by
  induction m with
  | zero => rfl
  | succ m ih =>
    simp only [Machine.blockEmitRows, ih, h.rows]
    cases Machine.blockEmitRows k e s m with
    | error x => rfl
    | ok u =>
      simp only [Except.map, h.emitRow]
      split <;> rfl

theorem emit (h : EngineBlind f) (e : Engine) (s : State) : e.emit (f s) = (e.emit s).map f := by
  unfold Engine.emit
  cases e.kernel with
  | scalar => exact h.emitRow s _ _ _
  | singleRow => exact h.emitRow s _ _ _
  | fourRowBlocked => exact h.blockEmitRows _ e s 4
  | fourRowInterleaved => exact h.blockEmitRows _ e s 4

/-! ### A turn and a run -/

theorem complete (h : EngineBlind f) (s : State) : (f s).complete = f s.complete := by
  simp only [State.complete, State.outputRegion, h.unsynced, h.yBase, h.rows, h.withUnsynced, h.withStatus]

theorem endRow (h : EngineBlind f) (e : Engine) (s : State) : (f s).endRow e = f (s.endRow e) := by
  simp only [State.endRow, h.outer, h.withStatus, h.complete, apply_ite f]

theorem engineOp (h : EngineBlind f) (e : Engine) (s : State) :
    Machine.engineOp e (f s) = (Machine.engineOp e s).map f := by
  simp only [Machine.engineOp, h.outer, h.inner, h.consume, h.emit, h.withStatus, h.complete]
  split
  · split
    · cases e.consume s <;> rfl
    · cases e.emit s with
      | error x => rfl
      | ok u => exact congrArg Except.ok (h.endRow e u)
  · rfl

theorem engineTurn (h : EngineBlind f) (s : State) : (f s).engineTurn = s.engineTurn.map f := by
  simp only [State.engineTurn, h.status]
  cases s.status with
  | busy e => exact h.engineOp e s
  | _ => rfl

theorem runEngine (h : EngineBlind f) (n : Nat) : ∀ s : State, (f s).runEngine n = (s.runEngine n).map f := by
  induction n with
  | zero => exact fun _ => rfl
  | succ n ih =>
    intro s
    simp only [State.runEngine, h.engineTurn]
    cases s.engineTurn with
    | error x => rfl
    | ok u => exact ih u

theorem engineStep (h : EngineBlind f) (s : State) :
    Machine.engineStep (f s) = mapNext f (Machine.engineStep s) := by
  simp only [Machine.engineStep, h.engineTurn]
  cases s.engineTurn <;> rfl

end EngineBlind

/-! ### The prefetch distance is such a change (R172) -/

theorem withPrefetch_engineBlind (p : Word64) : EngineBlind (·.withPrefetch p) where
  rows _ := rfl
  padded _ := rfl
  wBase _ := rfl
  xBase _ := rfl
  yBase _ := rfl
  addressFault _ _ := rfl
  accOverflow _ := rfl
  status _ := rfl
  mem _ := rfl
  unsynced _ := rfl
  withStatus _ _ := rfl
  withMem _ _ := rfl
  withUnsynced _ _ := rfl

/-! ### Starting a command -/

theorem runCommand_withPrefetch (p : Word64) (k : Kernel) (s : State) :
    (s.withPrefetch p).runCommand k = (s.runCommand k).map (·.withPrefetch p) := by
  have hvisible : (s.withPrefetch p).params.visibleBusy = s.params.visibleBusy := rfl
  have haccept : (s.withPrefetch p).accept k = (s.accept k).withPrefetch p := rfl
  have hops : (s.withPrefetch p).opCount k = s.opCount k := rfl
  unfold State.runCommand
  rw [hvisible, haccept, hops, (withPrefetch_engineBlind p).runEngine]
  split <;> rfl

theorem launch_overSideEffects {s : State} {k : Kernel} (hgo : s.status.ignoresGo = false)
    (ha : s.acceptError k = none) (hside : s.overSideEffects k = true) : s.launch k = .refused .sideEffectBuffer := by
  unfold State.launch
  rw [hgo, ha, hside]
  rfl

theorem launch_unsafeK {s : State} {k : Kernel} (hgo : s.status.ignoresGo = false) (ha : s.acceptError k = none)
    (hside : s.overSideEffects k = false) (hunsafe : s.unsafeK = true) : s.launch k = .fault .unsafeK := by
  unfold State.launch
  rw [hgo, ha, hside, hunsafe]
  rfl

/-- No check of `GO` looks at the prefetch distance (R134 to R137), so each outcome of a command is the same (R172). -/
theorem launch_withPrefetch (p : Word64) (k : Kernel) (s : State) :
    (s.withPrefetch p).launch k = mapNext (·.withPrefetch p) (s.launch k) := by
  rcases launch_cases s k with ⟨hgo, hl⟩ | ⟨hgo, c, ha, hl⟩ | ⟨hgo, ha, hside, hl⟩
    | ⟨hgo, ha, hside, hunsafe, hl⟩ | ⟨hgo, ha, hside, hunsafe, hl⟩
  all_goals rw [hl]
  · exact launch_ignored (s := s.withPrefetch p) hgo k
  · exact launch_refused (s := s.withPrefetch p) hgo ha
  · exact launch_overSideEffects (s := s.withPrefetch p) hgo ha hside
  · exact launch_unsafeK (s := s.withPrefetch p) hgo ha hside hunsafe
  · rw [launch_accepted (s := s.withPrefetch p) hgo ha hside hunsafe, runCommand_withPrefetch]
    cases s.runCommand k <;> rfl

/-! ### The host's accesses while a command runs -/

/-- A read of any register but `PREFETCH` answers the same (R130). -/
theorem busRead_withPrefetch {r : Reg} (hr : r ≠ .prefetch) (p : Word64) (s : State) :
    (s.withPrefetch p).busRead r = (s.busRead r).withPrefetch p := by
  have hread : (s.withPrefetch p).readReg r = s.readReg r := by
    cases r with
    | prefetch => exact absurd rfl hr
    | _ => rfl
  have hsync : (s.withPrefetch p).syncOnRead r = (s.syncOnRead r).withPrefetch p := by
    unfold State.syncOnRead
    rw [apply_ite (State.withPrefetch · p)]
    rfl
  unfold State.busRead
  rw [hread, hsync]
  rfl

theorem hostMemRead_withPrefetch (p : Word64) (a : Nat) (s : State) :
    hostMemRead a (s.withPrefetch p) = mapNext (·.withPrefetch p) (hostMemRead a s) := by
  have hfault : (s.withPrefetch p).addressFault a = s.addressFault a := rfl
  have hside : (s.withPrefetch p).params.hasSideEffect a = s.params.hasSideEffect a := rfl
  have hbusy : (s.withPrefetch p).inBusyOutput a = s.inBusyOutput a := rfl
  have hunsynced : (s.withPrefetch p).isUnsynced a = s.isUnsynced a := rfl
  have hmem : (s.withPrefetch p).mem = s.mem := rfl
  simp only [hostMemRead, hfault, hside, hbusy, hunsynced, hmem]
  cases s.addressFault a with
  | some x => rfl
  | none =>
    simp only [apply_ite (mapNext _)]
    cases s.mem.read a <;> rfl

theorem hostMemWrite_withPrefetch (p : Word64) (a : Nat) (b : Byte) (s : State) :
    hostMemWrite a b (s.withPrefetch p) = mapNext (·.withPrefetch p) (hostMemWrite a b s) := by
  have hfault : (s.withPrefetch p).addressFault a = s.addressFault a := rfl
  have hside : (s.withPrefetch p).params.hasSideEffect a = s.params.hasSideEffect a := rfl
  have hbusy : (s.withPrefetch p).inBusyBuffers a = s.inBusyBuffers a := rfl
  have hlatest : (s.withPrefetch p).inLatestOutput a = s.inLatestOutput a := rfl
  simp only [hostMemWrite, hfault, hside, hbusy, hlatest]
  cases s.addressFault a with
  | some x => rfl
  | none =>
    simp only [apply_ite (mapNext _)]
    rfl

/-- While `BUSY`, each access but a read of `PREFETCH` has the same outcome: `GO` and the writes are ignored (R35). -/
theorem exec_access_withPrefetch {s : State} {i : Instr} {a : BusAccess} (p : Word64) (hb : s.status.isBusy = true)
    (hd : decodeAccess s.params.regBase a = .ok i) (hi : i ≠ .regRd 0x28) :
    exec i (s.withPrefetch p) = mapNext (·.withPrefetch p) (exec i s) := by
  have hb' : (s.withPrefetch p).status.isBusy = true := hb
  rcases decodeAccess_ok hd with rfl | ⟨o, rfl, hal⟩ | ⟨o, d, rfl, hal, -⟩
  · rw [exec_go, exec_go, go_busy hb, go_busy hb']
    rfl
  · have hr : regAt o ≠ .prefetch := fun hr => hi (congrArg Instr.regRd (eq_offset_of_regAt hr (by decide)))
    have hal' := (offsetAligned_iff o).mp hal
    rw [exec_regRd_aligned hal', exec_regRd_aligned hal', busRead_withPrefetch hr]
    rfl
  · have hal' := (offsetAligned_iff o).mp hal
    rw [exec_regWr_busy hb hal', exec_regWr_busy hb' hal']
    rfl

theorem waitStep_withPrefetch {s : State} (p : Word64) (hb : s.status.isBusy = true) (rest : List HostEvent) :
    waitStep rest (s.withPrefetch p) = mapNext (·.withPrefetch p) (waitStep rest s) := by
  have hb' : (s.withPrefetch p).status.isBusy = true := hb
  unfold waitStep
  rw [if_pos hb, if_pos hb', busRead_withPrefetch (by decide)]
  exact (withPrefetch_engineBlind p).engineStep _

/-! ### One step of a running command -/

/-- Each step of a running command but a read of `PREFETCH` and a reset has the same outcome (R173). -/
theorem step_withPrefetch {s : State} (p : Word64) (hb : s.status.isBusy = true)
    (hreset : ∀ rest, s.pending ≠ .reset :: rest)
    (hread : ∀ a rest, s.pending = .access a :: rest → decodeAccess s.params.regBase a ≠ .ok (.regRd 0x28)) :
    step (s.withPrefetch p) = mapNext (·.withPrefetch p) (step s) := by
  have hblind := withPrefetch_engineBlind p
  cases hp : s.pending with
  | nil =>
    rw [step_nil hp, step_nil (s := s.withPrefetch p) hp]
    exact hblind.engineStep s
  | cons ev rest =>
    cases ev with
    | access a =>
      cases hd : decodeAccess s.params.regBase a with
      | error x =>
        rw [step_bad_access hp hd, step_bad_access (s := s.withPrefetch p) hp hd]
        rfl
      | ok i =>
        have hi : i ≠ .regRd 0x28 := fun hi => hread a rest hp (hi ▸ hd)
        rw [step_access hp hd, step_access (s := s.withPrefetch p) hp hd]
        exact exec_access_withPrefetch (s := s.withPending rest) p hb hd hi
    | wait =>
      rw [step_wait hp, step_wait (s := s.withPrefetch p) hp]
      exact waitStep_withPrefetch p hb rest
    | engine =>
      rw [step_engine hp, step_engine (s := s.withPrefetch p) hp]
      exact hblind.engineStep (s.withPending rest)
    | memRead a =>
      rw [step_memRead hp, step_memRead (s := s.withPrefetch p) hp]
      exact hostMemRead_withPrefetch p a (s.withPending rest)
    | memWrite a b =>
      rw [step_memWrite hp, step_memWrite (s := s.withPrefetch p) hp]
      exact hostMemWrite_withPrefetch p a b (s.withPending rest)
    | reset => exact absurd hp (hreset rest)

/-- A read of `PREFETCH` returns the distance, and nothing else depends on it (R130). -/
theorem step_read_withPrefetch {s : State} {a : BusAccess} {rest : List HostEvent} (p : Word64)
    (hp : s.pending = .access a :: rest) (hd : decodeAccess s.params.regBase a = .ok (.regRd 0x28)) :
    step (s.withPrefetch p) = mapNext (fun t => (t.withPrefetch p).withBusData p) (step s) := by
  have hreg : regAt 0x28 = .prefetch := rfl
  rw [step_access hp hd, step_access (s := s.withPrefetch p) hp hd, exec_regRd_aligned (by decide),
    exec_regRd_aligned (by decide), hreg, busRead_of_ne_status (by decide), busRead_of_ne_status (by decide)]
  rfl

/-- A reset gives `PREFETCH` its reset value, whatever it held (R250). -/
theorem step_reset_withPrefetch {s : State} {rest : List HostEvent} (p : Word64) (hp : s.pending = .reset :: rest) :
    step (s.withPrefetch p) = step s := by
  rw [step_reset hp, step_reset (s := s.withPrefetch p) hp]
  rfl

/-! ### The obligation -/

/-- Settles O31: neither the checks of `GO` nor the engine look at the prefetch distance, and of the host's events on a
running command only the read of `PREFETCH` returns it. -/
theorem prefetchHasNoEffect : Obligations.PrefetchHasNoEffect := by
  refine ⟨fun k s p => ?_, fun s p hb => ⟨step_withPrefetch p hb, fun a rest => step_read_withPrefetch p,
    fun rest => step_reset_withPrefetch p⟩⟩
  rw [exec_kernel, exec_kernel]
  exact launch_withPrefetch p k s

end Sys2Proof.Machine
end

section
/-! PROOFS. One matrix in the layouts of the four kernels, and the padding rows of the four-row layouts (R182, R186,
R187). -/

namespace Sys2Proof.Machine

/-! ### Element and position of a layout are inverse to each other (R64 to R66) -/

theorem rpOffset_div {kpad r j : Nat} (hj : j < kpad) : rpOffset kpad r j / kpad = r := by
  unfold rpOffset
  rw [Nat.mul_comm, Nat.mul_add_div (by omega), Nat.div_eq_of_lt hj, Nat.add_zero]

theorem rpOffset_mod {kpad r j : Nat} (hj : j < kpad) : rpOffset kpad r j % kpad = j :=
  Nat.mul_add_mod_of_lt hj

/-- An interleaved offset is the offset `q` inside its block of four rows, after the blocks before it (R66). -/
theorem i4Offset_eq_rpOffset (kpad r j : Nat) :
    i4Offset kpad r j = rpOffset (4 * kpad) (r / 4) (j / 16 * 64 + r % 4 * 16 + j % 16) := by
  unfold i4Offset rpOffset
  rw [Nat.mul_assoc (r / 4)]
  omega

/-- The offset of an element inside its block of four rows stays below the block's size (R66). -/
theorem blockOffset_lt {kpad j : Nat} (r : Nat) (h16 : kpad % 16 = 0) (hj : j < kpad) :
    j / 16 * 64 + r % 4 * 16 + j % 16 < 4 * kpad := by omega

theorem i4Row_i4Offset {kpad r j : Nat} (h16 : kpad % 16 = 0) (hj : j < kpad) : i4Row kpad (i4Offset kpad r j) = r := by
  have hq := blockOffset_lt r h16 hj
  unfold i4Row
  rw [i4Offset_eq_rpOffset, rpOffset_div hq, rpOffset_mod hq]
  omega

theorem i4Col_i4Offset {kpad r j : Nat} (h16 : kpad % 16 = 0) (hj : j < kpad) : i4Col kpad (i4Offset kpad r j) = j := by
  have hq := blockOffset_lt r h16 hj
  have hlane (p : Nat) : p % 16 = p % (4 * kpad) % 16 := (Nat.mod_mod_of_dvd p (by omega)).symm
  unfold i4Col
  rw [hlane, i4Offset_eq_rpOffset, rpOffset_mod hq]
  omega

/-! ### What the packers store (R203 to R205) -/

theorem packFor_length (a : Kernel) (raw : List Byte) (n k : Nat) :
    (packFor a raw n k).length = layoutRows a n * ceil16 k := by
  cases a <;> simp [packFor, packRP, packB4, packI4, layoutRows]

/-- The offset of a padded element lies inside the packed buffer (R64 to R67). -/
theorem layoutOffset_lt_packFor (a : Kernel) (raw : List Byte) {n k r j : Nat} (hr : r < layoutRows a n)
    (hj : j < ceil16 k) : layoutOffset a (ceil16 k) r j < (packFor a raw n k).length := by
  rw [packFor_length]
  exact layoutOffset_lt a (ceil16_mod16 k) hr hj fun ha => by rw [ha]; exact ceil4_mod4 n

/-- Every packer stores element `(r, j)` at the element's offset in its layout, padding included. -/
theorem packFor_at_layoutOffset (a : Kernel) (raw : List Byte) {n k r j : Nat} (hr : r < layoutRows a n)
    (hj : j < ceil16 k) : (packFor a raw n k)[layoutOffset a (ceil16 k) r j]? = some (rawByte raw n k r j) := by
  have hlt := layoutOffset_lt_packFor a raw hr hj
  rw [List.getElem?_eq_getElem hlt, Option.some_inj]
  cases a with
  | scalar => simp [packFor, packRP, layoutOffset, rpOffset_div hj, rpOffset_mod hj]
  | singleRow => simp [packFor, packRP, layoutOffset, rpOffset_div hj, rpOffset_mod hj]
  | fourRowBlocked =>
    simp [packFor, packB4, layoutOffset, b4Offset_eq_rpOffset, rpOffset_div hj, rpOffset_mod hj]
  | fourRowInterleaved =>
    have h16 := ceil16_mod16 k
    simp [packFor, packI4, layoutOffset, i4Row_i4Offset h16 hj, i4Col_i4Offset h16 hj]

/-! ### A command on a packed matrix (R187) -/

/-- The output element of row `r` of a raw matrix and a padded input vector, with no layout in it: the sum over the
padded columns modulo 2^32 (R144). -/
def matrixRowValue (raw x : List Byte) (n k r : Nat) : Word32 :=
  BitVec.ofInt 32 (sumUpTo (fun j => prod (rawByte raw n k r j) (x.getD j 0)) (ceil16 k))

theorem byteAt_of_holds {s : State} {base i : Nat} {bytes : List Byte} (h : s.mem.Holds base bytes)
    (hi : i < bytes.length) : s.byteAt (base + i) = bytes.getD i 0 := by
  unfold State.byteAt
  rw [h i hi, Option.getD_some]

theorem weightByte_of_packed {s : State} {a : Kernel} {raw : List Byte} {n k r j : Nat} (hpad : s.padded = ceil16 k)
    (hw : s.mem.Holds s.wBase (packFor a raw n k)) (hr : r < layoutRows a n) (hj : j < ceil16 k) :
    s.weightByte a r j = rawByte raw n k r j := by
  unfold State.weightByte
  rw [hpad, byteAt_of_holds hw (layoutOffset_lt_packFor a raw hr hj), List.getD_eq_getElem?_getD,
    packFor_at_layoutOffset a raw hr hj, Option.getD_some]

/-- The row values of a packed matrix are those of the matrix, whichever kernel's layout it is in. -/
theorem rowValue_of_packed {s : State} {a : Kernel} {raw x : List Byte} {n k r : Nat} (hpad : s.padded = ceil16 k)
    (hx : x.length = ceil16 k) (hw : s.mem.Holds s.wBase (packFor a raw n k)) (hin : s.mem.Holds s.xBase x)
    (hr : r < layoutRows a n) : s.rowValue a r = matrixRowValue raw x n k r := by
  unfold State.rowValue State.rowSum State.partialSum matrixRowValue
  rw [hpad, sumUpTo_congr fun j hj => ?_]
  have hweight := weightByte_of_packed hpad hw hr hj
  have hinput : s.inputByte j = x.getD j 0 := byteAt_of_holds hin (by omega)
  rw [hweight, hinput]

/-- The output bytes of a completed command on a packed matrix: a function of the matrix and the input vector alone. -/
theorem output_of_packed {s t : State} {a : Kernel} {raw x : List Byte} {n k r i : Nat} (hrun : s.Runs a)
    (hn : s.regs.n.toNat = n) (hk : s.regs.k.toNat = k) (hx : x.length = ceil16 k)
    (hw : s.mem.Holds s.wBase (packFor a raw n k)) (hin : s.mem.Holds s.xBase x) (hdone : s.Completes t a)
    (hr : r < n) (hi : i < 4) :
    t.mem.read (s.yBase + 4 * r + i) = some ((matrixRowValue raw x n k r).extractLsb' (8 * i) 8) := by
  subst hn hk
  obtain ⟨hgo, ha, -⟩ := hrun
  obtain ⟨-, -, -, hdim, -⟩ := acceptError_none ha
  rw [← rowValue_of_packed (kpadOf_legal _ hdim) hx hw hin (lt_of_lt_of_le hr (rows_le_weightRows s a))]
  exact (runDone_of_completes hgo ha hdone).outputs r hr i hi

/-- Settles O30: both commands write the row values of the matrix, which no layout enters. -/
theorem crossKernelEquality : Obligations.CrossKernelEquality := by
  intro raw x n k a b s t s' t' hs ht hsn htn hsk htk hx hsw htw hsx htx hs' ht' r i hr hi
  exact ⟨_, output_of_packed hs hsn hsk hx hsw hsx hs' hr hi, output_of_packed ht htn htk hx htw htx ht' hr hi⟩

/-! ### Padding rows (R182, R186) -/

/-- A row value depends on the setup, the row's own weight bytes and the input bytes: on no other row's bytes. -/
theorem rowValue_congr_of_row {s t : State} {k : Kernel} {r : Nat} (hset : SameSetup t s)
    (hw : ∀ j, j < s.padded → t.mem.read (s.wBase + layoutOffset k s.padded r j)
      = s.mem.read (s.wBase + layoutOffset k s.padded r j))
    (hx : ∀ a, s.inputRegion.Has a → t.mem.read a = s.mem.read a) : t.rowValue k r = s.rowValue k r := by
  unfold State.rowValue State.rowSum
  rw [hset.padded, partialSum_congr hset hw fun j hj => hx _ (input_in_region hj)]

/-- Settles O32: an output byte belongs to a row below `n`, and that row's value is made of its own weight bytes and the
input; the bytes past the `n` output elements lie outside the output region. -/
theorem paddingRowsNeverReachOutput : Obligations.PaddingRowsNeverReachOutput := by
  rintro k s t s' t' - hparams hregs ⟨hsgo, hsa, -⟩ ⟨htgo, hta, -⟩ hx hw hs ht
  have hset : SameSetup t s := ⟨hparams, hregs⟩
  have hsdone := runDone_of_completes hsgo hsa hs
  have htdone := runDone_of_completes htgo hta ht
  refine ⟨fun a hlo hhi => ?_, fun a ha => hsdone.frame a fun hout => absurd hout.2 (not_lt.mpr ha)⟩
  obtain ⟨r, i, hr, hi, rfl⟩ := output_byte_row (s := s) ⟨hlo, hhi⟩
  have hs' := hsdone.outputs r hr i hi
  have ht' := htdone.outputs r (by rw [hset.rows]; exact hr) i hi
  rw [hset.yBase, rowValue_congr_of_row hset (hw r · hr) hx] at ht'
  rw [hs', ht']

end Sys2Proof.Machine
end

section
/-! PROOFS. The host-side companions: the packers' padding and round trip (R203 to R206), the generator's output bytes
(R201) and the validator's report (R208). -/

namespace Sys2Proof.Machine

/-! ### The packers (R203 to R206) -/

theorem rawByte_inside (raw : List Byte) {n k r j : Nat} (hr : r < n) (hj : j < k) :
    rawByte raw n k r j = raw.getD (r * k + j) 0 := if_pos ⟨hr, hj⟩

theorem rawByte_padding (raw : List Byte) {n k r j : Nat} (h : n ≤ r ∨ k ≤ j) : rawByte raw n k r j = 0 :=
  if_neg fun ⟨hr, hj⟩ => by omega

theorem le_layoutRows (a : Kernel) (n : Nat) : n ≤ layoutRows a n := by
  cases a <;> simp only [layoutRows, ceil4] <;> omega

theorem packFor_raw (a : Kernel) (raw : List Byte) {n k r j : Nat} (hr : r < n) (hj : j < k) :
    (packFor a raw n k)[layoutOffset a (ceil16 k) r j]? = some (raw.getD (r * k + j) 0) := by
  rw [packFor_at_layoutOffset a raw (hr.trans_le (le_layoutRows a n)) (hj.trans_le (le_ceil16 k)),
    rawByte_inside raw hr hj]

theorem packFor_padding (a : Kernel) (raw : List Byte) {n k r j : Nat} (hr : r < layoutRows a n) (hj : j < ceil16 k)
    (h : n ≤ r ∨ k ≤ j) : (packFor a raw n k)[layoutOffset a (ceil16 k) r j]? = some 0 := by
  rw [packFor_at_layoutOffset a raw hr hj, rawByte_padding raw h]

/-- Settles O38: a packed buffer holds `rawByte` at every padded element, and the Row-Padded and Four-Row-Blocked clauses
are the general padding clause at the offsets of those two layouts. -/
theorem packersZeroFillAndRoundTrip : Obligations.PackersZeroFillAndRoundTrip := by
  intro raw n k
  refine ⟨packFor_length .scalar raw n k, packFor_length .fourRowBlocked raw n k,
    packFor_length .fourRowInterleaved raw n k,
    fun r j hr hk hj => packFor_padding .scalar raw hr hj (.inr hk), fun r j hn hr hj => ?_,
    fun a r j hr hj => packFor_raw a raw hr hj, fun a r j hr hj h => packFor_padding a raw hr hj h⟩
  have hpad := packFor_padding .fourRowBlocked raw hr hj (.inl hn)
  rwa [layoutOffset, b4Offset_eq_rpOffset] at hpad

/-! ### The generator's output (R201) -/

/-- The magnitude field `s[30:24]`. -/
theorem magnitude_toNat (s : Word64) : (s.extractLsb' 24 7).toNat = s.toNat / 2 ^ 24 % 2 ^ 7 := by
  rw [BitVec.extractLsb'_toNat, Nat.shiftRight_eq_div_pow]

theorem genOutput_eq (s : Word64) :
    genOutput s = if s.toNat % 2 = 1 then -((s.toNat / 2 ^ 24 % 2 ^ 7 : Nat) : Int)
      else ((s.toNat / 2 ^ 24 % 2 ^ 7 : Nat) : Int) := by
  have hsign : s.getLsbD 0 = true ↔ s.toNat % 2 = 1 := by
    rw [BitVec.getLsbD, Nat.testBit_zero, decide_eq_true_iff]
  simp only [genOutput, magnitude_toNat, hsign]

theorem genOutput_range (s : Word64) : -127 ≤ genOutput s ∧ genOutput s ≤ 127 := by
  have hmag : s.toNat / 2 ^ 24 % 2 ^ 7 < 128 := Nat.mod_lt _ (by decide)
  rw [genOutput_eq]
  split <;> omega

/-- The output fits a signed byte, so storing it loses nothing. -/
theorem genByte_toInt (s : Word64) : (genByte s).toInt = genOutput s := by
  obtain ⟨hlo, hhi⟩ := genOutput_range s
  exact BitVec.toInt_ofInt_eq_self (by decide) (by omega) (by omega)

/-- Settles O39: the byte is its output exactly, and the output is at most the 7-bit magnitude from 0. -/
theorem generatorBytesInRange : Obligations.GeneratorBytesInRange := by
  refine ⟨fun s => ?_, fun seed len => rfl⟩
  obtain ⟨hlo, hhi⟩ := genOutput_range s
  rw [← genOutput_eq, genByte_toInt]
  refine ⟨rfl, hlo, hhi, fun h80 => ?_, fun hmag => ?_⟩
  · have hmin : (genByte s).toInt = -128 := by rw [h80]; decide
    rw [genByte_toInt] at hmin
    omega
  · have hzero : genOutput s = 0 := by rw [genOutput_eq, hmag]; simp
    rw [genByte, hzero]
    rfl

/-! ### The validator's list of mismatches (R208) -/

theorem mem_mismatchList {obs ref : Nat → Int} {n : Nat} {t : Nat × Int × Int} :
    t ∈ mismatchList obs ref n ↔ t.1 < n ∧ obs t.1 ≠ ref t.1 ∧ t.2 = (obs t.1, ref t.1) := by
  simp only [mismatchList, List.mem_map, List.mem_filter, List.mem_range, bne_iff_ne]
  constructor
  · rintro ⟨i, ⟨hi, hne⟩, rfl⟩
    exact ⟨hi, hne, rfl⟩
  · rintro ⟨hi, hne, hval⟩
    exact ⟨t.1, ⟨hi, hne⟩, by rw [← hval]⟩

theorem length_mismatchList (obs ref : Nat → Int) (n : Nat) :
    (mismatchList obs ref n).length = ((Finset.range n).filter fun i => obs i ≠ ref i).card := by
  rw [mismatchList, List.length_map, ← List.countP_eq_length_filter, ← Nat.count_eq_card_filter_range, Nat.count]
  simp only [bne, ne_eq, decide_not, beq_eq_decide]

/-- The mismatches are listed in ascending order of their index. -/
theorem mismatchList_ascending (obs ref : Nat → Int) (n : Nat) :
    (mismatchList obs ref n).Pairwise fun d e => d.1 < e.1 :=
  List.pairwise_map.mpr (List.pairwise_lt_range.filter _)

/-- In a list in ascending order, what a prefix leaves out comes after all it has. -/
theorem take_lt_of_notMem {l : List (Nat × Int × Int)} (hl : l.Pairwise fun d e => d.1 < e.1) {m : Nat}
    {t : Nat × Int × Int} (ht : t ∈ l) (hout : t ∉ l.take m) : ∀ e ∈ l.take m, e.1 < t.1 := by
  rw [← List.take_append_drop m l] at hl ht
  have hdrop : t ∈ l.drop m := (List.mem_append.mp ht).resolve_left hout
  obtain ⟨-, -, hcross⟩ := List.pairwise_append.mp hl
  exact fun e he => hcross e he t hdrop

/-- A mismatch is listed with its values. -/
theorem triple_mem_mismatchList {obs ref : Nat → Int} {n i : Nat} (hi : i < n) (hne : obs i ≠ ref i) :
    (i, obs i, ref i) ∈ mismatchList obs ref n := mem_mismatchList.mpr ⟨hi, hne, rfl⟩

/-! ### The largest difference (R208) -/

/-- The exact difference of a listed triple. -/
def absDiff (t : Nat × Int × Int) : Nat := (t.2.1 - t.2.2).natAbs

/-- The largest difference of a list of triples, 0 for the empty list. -/
def largestDiff (l : List (Nat × Int × Int)) : Nat := (l.map absDiff).foldl max 0

/-- The largest difference is 0 or one of the list's own, and none of those exceeds it. -/
theorem largestDiff_spec (l : List (Nat × Int × Int)) :
    largestDiff l ∈ 0 :: l.map absDiff ∧ ∀ d ∈ 0 :: l.map absDiff, d ≤ largestDiff l :=
  List.max?_eq_some_iff.mp List.max?_cons'

theorem absDiff_le_largestDiff {l : List (Nat × Int × Int)} {t : Nat × Int × Int} (h : t ∈ l) :
    absDiff t ≤ largestDiff l := (largestDiff_spec l).2 _ (List.mem_cons_of_mem _ (List.mem_map_of_mem h))

/-- A list with a triple takes its largest difference at one of them, also where that difference is 0. -/
theorem exists_largestDiff {l : List (Nat × Int × Int)} (h : 0 < l.length) : ∃ t ∈ l, largestDiff l = absDiff t := by
  obtain ⟨u, hu⟩ := List.exists_mem_of_length_pos h
  rcases List.mem_cons.mp (largestDiff_spec l).1 with hzero | hmem
  · have hle := absDiff_le_largestDiff hu
    exact ⟨u, hu, by omega⟩
  · obtain ⟨t, ht, hval⟩ := List.mem_map.mp hmem
    exact ⟨t, ht, hval.symm⟩

/-! ### The report (R208) -/

/-- The validator reads its largest difference off the list of mismatches. -/
theorem validate_maxAbsDiff (obs ref : List Word32) (n : Nat) : (validate obs ref n).maxAbsDiff
    = largestDiff (mismatchList (fun i => (obs.getD i 0).toInt) (fun i => (ref.getD i 0).toInt) n) :=
  List.foldl_map.symm

/-- Settles O40: the report is the length of the ascending list of all mismatches, its largest difference and its first
five triples. -/
theorem validatorReport : Obligations.ValidatorReport := by
  intro obs ref n o r v
  have hmax : v.maxAbsDiff = largestDiff (mismatchList o r n) := validate_maxAbsDiff obs ref n
  have hfirst : v.first = (mismatchList o r n).take 5 := rfl
  have hsub {e : Nat × Int × Int} (he : e ∈ v.first) : e ∈ mismatchList o r n := List.mem_of_mem_take he
  refine ⟨length_mismatchList o r n, fun i hi hne => ?_, fun hall => ?_, fun hpos => ?_, List.length_take,
    fun e he => mem_mismatchList.mp (hsub he), (mismatchList_ascending o r n).sublist (List.take_sublist 5 _),
    fun i hi hne hout => ?_⟩
  · exact hmax ▸ absDiff_le_largestDiff (triple_mem_mismatchList hi hne)
  · have hnone : mismatchList o r n = [] := List.eq_nil_iff_forall_not_mem.mpr fun t ht => by
      obtain ⟨hi, hne, -⟩ := mem_mismatchList.mp ht
      exact hne (hall t.1 hi)
    rw [hmax, hnone]
    rfl
  · obtain ⟨t, ht, hval⟩ := exists_largestDiff hpos
    obtain ⟨hi, hne, hvals⟩ := mem_mismatchList.mp ht
    exact ⟨t.1, hi, hne, by rw [hmax, hval, absDiff, hvals]⟩
  · rw [hfirst] at hout ⊢
    exact take_lt_of_notMem (mismatchList_ascending o r n) (triple_mem_mismatchList hi hne) fun h => hout _ h rfl

end Sys2Proof.Machine
end

section
/-! PROOFS. The `ERROR` state: what is ignored there, what a host may still store, and how it ends (R226, R227). -/

namespace Sys2Proof.Machine

/-! ### `ERROR` among the states of the engine (R33, R132) -/

theorem ignoresGo_of_error {s : State} {c : ErrorCode} (h : s.status = .error c) : s.status.ignoresGo = true := by
  rw [h]; rfl

theorem not_busy_of_error {s : State} {c : ErrorCode} (h : s.status = .error c) : s.status.isBusy = false := by
  rw [h]; rfl

/-! ### The configuration registers (R23, R227) -/

/-- The registers a host configures a command with: the ones that hold what is written to them (R23, the `RW` rows). -/
def IsConfiguration (r : Reg) : Prop :=
  r = .cmd ∨ r = .n ∨ r = .k ∨ r = .prefetch ∨ r = .wBase ∨ r = .xBase ∨ r = .yBase

/-- The offsets of the configuration registers, written out (R23). -/
theorem configuration_offset_iff (o : BitVec 8) : (∃ r, IsConfiguration r ∧ o = r.offset)
    ↔ o = 0x08 ∨ o = 0x10 ∨ o = 0x18 ∨ o = 0x28 ∨ o = 0x30 ∨ o = 0x38 ∨ o = 0x40 := by
  simp only [IsConfiguration, or_and_right, exists_or, exists_eq_left, Reg.offset]

/-- A configuration register reads as what was stored to it. -/
theorem readReg_store_same {r : Reg} (hr : IsConfiguration r) (s : State) (d : Word64) :
    (s.withRegs (s.regs.store d r)).readReg r = d := by
  rcases hr with rfl | rfl | rfl | rfl | rfl | rfl | rfl <;> rfl

/-- A write of a configuration register while not `BUSY` keeps the status, and the next read of the register returns the
data written (R130, R131). -/
theorem exec_regWr_reads_back {s : State} {r : Reg} (hb : s.status.isBusy = false) (hr : IsConfiguration r) (d : Word64) :
    ∃ t u, exec (.regWr r.offset d) s = .next t ∧ t.status = s.status ∧ exec (.regRd r.offset) t = .next u
      ∧ u.busData = d := by
  have hctrl : r ≠ .ctrl := by rintro rfl; simp [IsConfiguration] at hr
  refine ⟨_, _, exec_regWr_at_offset hb hctrl rfl d, rfl, exec_regRd_aligned (offset_mod8 r) _, ?_⟩
  rw [busRead_at_offset rfl, readReg_store_same hr]

/-! ### Steps from `ERROR` (R226) -/

/-- Every step but a reset keeps `ERROR` and its code: the engine has no command to run, a `GO` is ignored, and no other
event writes the status. -/
theorem step_keeps_error {s t : State} {c : ErrorCode} (hc : s.status = .error c) (h : step s = .next t)
    (hr : ∀ rest, s.pending ≠ .reset :: rest) : t.status = .error c := by
  rcases step_cases h with hsame | ⟨u, hu, -, hturn⟩ | ⟨a, rest, -, -, hgo⟩ | ⟨rest, r, -, rfl⟩
    | ⟨rest, a, b, -, rfl, -⟩ | ⟨rest, hp, -⟩
  · exact hsame.status.trans hc
  · have huc : u.status = .error c := hu.status.trans hc
    rw [engineTurn_not_busy (not_busy_of_error huc)] at hturn
    cases hturn
    exact huc
  · rw [go_ignored (ignoresGo_of_error (s := s.withPending rest) hc)] at hgo
    cases hgo
    exact hc
  · exact hc
  · exact hc
  · exact absurd hp (hr rest)

/-- A reset leaves the engine `IDLE`, whatever it was doing (R250). -/
theorem step_reset_status {s t : State} {rest : List HostEvent} (hp : s.pending = .reset :: rest)
    (h : step s = .next t) : t.status = .idle := by
  rw [step_reset hp] at h
  cases h
  exact platformReset_status _

/-! ### The obligation -/

/-- Settles O16: commands are ignored, writes are stored as in every state that is not `BUSY`, and a step leaves `ERROR`
by a reset alone. -/
theorem errorTerminalUntilReset : Obligations.ErrorTerminalUntilReset := by
  intro s c hc
  have hignored := ignoresGo_of_error hc
  refine ⟨go_ignored hignored, fun k => ?_, fun o d ho => ?_, fun t h hr => step_keeps_error hc h hr,
    fun t rest hp h => step_reset_status hp h⟩
  · rw [exec_kernel]
    exact launch_ignored hignored k
  · obtain ⟨r, hr, rfl⟩ := (configuration_offset_iff o).mpr ho
    rw [← hc]
    exact exec_regWr_reads_back (not_busy_of_error hc) hr d

end Sys2Proof.Machine
end

section
/-! PROOFS. Reset: the value every register reads as after it (R250), and which bytes of the data space it leaves (R251,
R252). -/

namespace Sys2Proof.Machine

/-! ### The registers after a reset (R250) -/

/-- The reset column of the register map (R23). -/
def resetValue (p : Params) : Reg → Word64
  | .cap => if p.hasDotprod then 1 else 0
  | .cmd => 2
  | .n => 1024
  | .k => 1024
  | .kpad => 1024
  | .prefetch => 2
  | .wBase => 0
  | .xBase => 0
  | .yBase => 0
  | .ctrl => 0
  | .status => 0
  | .reserved => 0

/-- Every register of the map reads as its reset value: the stored ones, and the computed ones (`CAP` from the parameters,
`KPAD` from `K`, `STATUS` from the engine's state). -/
theorem platformReset_readReg (s : State) (r : Reg) : s.platformReset.readReg r = resetValue s.params r := by
  cases r with
  | kpad => exact (by decide : kpadOf 1024 = 1024)
  | _ => rfl

/-- Settles O45: the step of a pending reset is `platformReset`, and it reads as the register map says. -/
theorem resetValues : Obligations.ResetValues := by
  refine ⟨fun s rest hp => ?_, rfl, rfl⟩
  have hread := platformReset_readReg (s.withPending rest)
  exact ⟨_, step_reset hp, rfl, rfl, rfl, hread .cap, hread .cmd, hread .n, hread .k, hread .kpad, hread .prefetch,
    hread .wBase, hread .xBase, hread .yBase, hread .status, hread .ctrl⟩

/-! ### No register write resets the block (R251) -/

/-- A command leaves the engine `IDLE` only where it was ignored: refused, started and completed are other states. -/
theorem launch_idle {s t : State} {k : Kernel} (h : s.launch k = .next t) (ht : t.status = .idle) :
    s.status = .idle := by
  rcases launch_next h with ⟨-, rfl⟩ | ⟨-, c, -, rfl⟩ | ⟨-, -, -, rfl⟩ | ⟨-, -, -, -, -, hdone⟩
  · exact ht
  · cases ht
  · cases ht
  · rw [hdone] at ht; cases ht

theorem go_idle {s t : State} (h : s.go = .next t) (ht : t.status = .idle) : s.status = .idle := by
  cases hg : s.status.ignoresGo with
  | true => rw [go_ignored hg] at h; cases h; exact ht
  | false =>
    cases hd : decodeCommand s.regs.cmd with
    | error x => rw [go_illegal hg hd] at h; cases h; cases ht
    | ok k => rw [go_eq_launch hd] at h; exact launch_idle h ht

theorem writeReg_status (s : State) (r : Reg) (d : Word64) : (s.writeReg r d).status = s.status := by
  rcases writeReg_cases s r d with ⟨-, hw⟩ | ⟨-, hw⟩ <;> rw [hw]
  rfl

/-- A register write leads to `IDLE` from `IDLE` alone, the write that is `GO` included. -/
theorem exec_regWr_idle {s t : State} {o : BitVec 8} {d : Word64} (h : exec (.regWr o d) s = .next t)
    (ht : t.status = .idle) : s.status = .idle := by
  change execRegWr o d s = .next t at h
  rcases execRegWr_cases o d s with ⟨-, he⟩ | ⟨-, -, -, he⟩ | ⟨-, -, -, he⟩ | ⟨-, -, he⟩ <;> rw [he] at h
  · cases h
  · exact go_idle h ht
  · cases h; exact ht
  · cases h; exact (writeReg_status s _ d).symm.trans ht

/-! ### The data space after a reset (R251, R252) -/

/-- What a reset leaves open: the output range of a running command, and nothing where none runs (R252). -/
theorem openAtReset_any_iff (s : State) (a : Nat) :
    s.openAtReset.any (fun r => r.contains a) = true ↔ s.status.isBusy = true ∧ s.outputRegion.Has a := by
  unfold State.openAtReset
  cases s.status.isBusy <;> simp

theorem platformReset_read_open {s : State} {a : Nat} (hb : s.status.isBusy = true) (ha : s.outputRegion.Has a) :
    s.platformReset.mem.read a = none := by
  rw [platformReset_read, if_pos ((openAtReset_any_iff s a).mpr ⟨hb, ha⟩)]

theorem platformReset_read_kept {s : State} {a : Nat} (h : ¬ (s.status.isBusy = true ∧ s.outputRegion.Has a)) :
    s.platformReset.mem.read a = s.mem.read a := by
  rw [platformReset_read, if_neg (mt (openAtReset_any_iff s a).mp h)]

/-- A command cannot read a byte that has no value (R71). -/
theorem not_readable_of_read_none {s : State} {a : Nat} (h : s.mem.read a = none) : ¬ s.Readable a :=
  fun ⟨_, hv⟩ => hv h

/-- Nor is a host read of it answered (R71). -/
theorem hostMemRead_ne_next_of_read_none {s : State} {a : Nat} (h : s.mem.read a = none) (u : State) :
    hostMemRead a s ≠ .next u := by
  intro hu
  obtain ⟨b, hv, -⟩ := hostMemRead_next hu
  rw [h] at hv
  cases hv

/-- Settles O46: a register write is no way to `IDLE`, and a reset takes the value of exactly the bytes of a running
command's output range. -/
theorem resetAndTheDataSpace : Obligations.ResetAndTheDataSpace := by
  refine ⟨fun _ _ _ _ => exec_regWr_idle, fun s t rest hp h => ?_⟩
  rw [step_reset hp] at h
  cases h
  refine ⟨platformReset_status _, platformReset_regs _, fun hb a ha => ?_, fun a ha => ?_⟩
  · have hnone := platformReset_read_open (s := s.withPending rest) hb ha
    exact ⟨hnone, not_readable_of_read_none hnone, hostMemRead_ne_next_of_read_none hnone⟩
  · exact platformReset_read_kept (s := s.withPending rest) ha

end Sys2Proof.Machine
end

section
/-! PROOFS. The decoder on what the encoder writes, and the instruction a step finds (R100 to R107). -/

namespace Sys2Proof

/-! ### A register access decoded from an aligned offset (R101) -/

/-- An aligned 8-byte access inside the block is `GO`, `REG.WR` or `REG.RD`, as its direction and data say. -/
theorem decodeBus_aligned {o : BitVec 8} (h : offsetAligned o = true) (write : Bool) (d : Word64) :
    decodeBus o.toNat 8 write d
      = .ok (if write then if isGoWrite o d then .go else .regWr o d else .regRd o) := by
  have hlt : ¬ Config.regBlockSize ≤ o.toNat := not_le.mpr o.isLt
  have hal : ¬ o.toNat % 8 ≠ 0 := not_not.mpr ((Machine.offsetAligned_iff o).mp h)
  unfold decodeBus
  rw [if_neg hlt, if_neg (not_not.mpr rfl), if_neg hal, BitVec.ofNat_toNat, BitVec.setWidth_eq]
  cases write with
  | false => rfl
  | true => cases isGoWrite o d <;> rfl

/-! ### The bytes of an instruction (R100, R101; log 3) -/

/-- Reading back the eight bytes of a 64-bit word. -/
theorem ofNat_ofLeBytes_leBytes {w : Nat} (h : w < 2 ^ 64) :
    BitVec.ofNat 64 (ofLeBytes (leBytes 8 w)) = BitVec.ofNat 64 w := by
  rw [ofLeBytes_leBytes, Nat.mod_eq_of_lt (by omega)]

/-- The eight bytes of a command word decode as the word does (R100). -/
theorem decodeBytes_cmd {w : Nat} (h : w < 2 ^ 64) :
    decodeBytes .cmd (leBytes 8 w) = decodeCommandWord (BitVec.ofNat 64 w) := by
  unfold decodeBytes
  rw [if_neg (by rw [leBytes_length]; exact not_not.mpr rfl)]
  exact congrArg decodeCommandWord (ofNat_ofLeBytes_leBytes h)

/-- A triple with direction `W` decodes as the write it names. -/
theorem decodeBytes_bus_write {data : List Byte} (h : data.length = 8) (o : BitVec 8) :
    decodeBytes .bus (o :: 1#8 :: data) = decodeBus o.toNat 8 true (BitVec.ofNat 64 (ofLeBytes data)) := by
  unfold decodeBytes
  rw [if_neg (by simp [h, formatBytes])]
  rfl

/-- A triple with direction `R` decodes as the read it names, whatever its data. -/
theorem decodeBytes_bus_read {data : List Byte} (h : data.length = 8) (o : BitVec 8) :
    decodeBytes .bus (o :: 0#8 :: data) = decodeBus o.toNat 8 false 0 := by
  unfold decodeBytes
  rw [if_neg (by simp [h, formatBytes])]
  rfl

/-- The word of a kernel decodes to its instruction (R103). -/
theorem decodeCommandWord_code (k : Kernel) : decodeCommandWord k.code = .ok k.toInstr := by cases k <;> rfl

theorem decodeBytes_kernel (k : Kernel) : decodeBytes .cmd (leBytes 8 k.code.toNat) = .ok k.toInstr := by
  rw [decodeBytes_cmd k.code.isLt, BitVec.ofNat_toNat, BitVec.setWidth_eq]
  exact decodeCommandWord_code k

/-- Settles O1, format by format: a kernel's word, and the triple of a read, of a write and of `GO`. -/
theorem decodeEncodeAgree : Obligations.DecodeEncodeAgree := by
  intro i hwf
  cases i with
  | scalar => exact decodeBytes_kernel .scalar
  | dotprod => exact decodeBytes_kernel .singleRow
  | dotprod4 => exact decodeBytes_kernel .fourRowBlocked
  | dotprod4i => exact decodeBytes_kernel .fourRowInterleaved
  | go =>
    refine (decodeBytes_bus_write (leBytes_length 8 1) 0x48#8).trans ?_
    rw [ofNat_ofLeBytes_leBytes (by decide), decodeBus_aligned (by decide)]
    rfl
  | regRd o =>
    refine (decodeBytes_bus_read (leBytes_length 8 0) o).trans ?_
    rw [decodeBus_aligned hwf]
    rfl
  | regWr o d =>
    simp only [Instr.wf, Bool.and_eq_true, Bool.not_eq_true'] at hwf
    obtain ⟨hal, hgo⟩ := hwf
    refine (decodeBytes_bus_write (leBytes_length 8 d.toNat) o).trans ?_
    rw [ofNat_ofLeBytes_leBytes d.isLt, BitVec.ofNat_toNat, BitVec.setWidth_eq, decodeBus_aligned hal, hgo]
    rfl

end Sys2Proof

namespace Sys2Proof.Machine

/-- Settles O3. -/
theorem tableWordsDecode : Obligations.TableWordsDecode := by
  unfold Obligations.TableWordsDecode
  decide

/-! ### A kernel command and `GO` (R103, R132) -/

theorem decodeCommand_code (k : Kernel) : decodeCommand k.code = .ok k := decodeCommand_of_toNat rfl

theorem exec_go_eq_kernel {s : State} {k : Kernel} (h : decodeCommand s.regs.cmd = .ok k) :
    exec .go s = exec k.toInstr s := by
  rw [exec_go, go_eq_launch h, exec_kernel]

/-- Settles O14: both are the launch of the kernel the word decodes to. -/
theorem kernelCommandIsGoWithItsWord : Obligations.KernelCommandIsGoWithItsWord :=
  fun k s h => exec_go_eq_kernel (by rw [h]; exact decodeCommand_code k)

/-! ### The instruction a step finds (log 2) -/

/-- A command word that decodes names a kernel (R103, R104). -/
theorem decodeCommandWord_ok {c : Word64} {i : Instr} (h : decodeCommandWord c = .ok i) :
    ∃ k : Kernel, i = k.toInstr ∧ decodeCommand c = .ok k := by
  unfold decodeCommandWord at h
  split at h
  · next k hk => cases h; exact ⟨k, rfl, hk⟩
  · cases h

/-- A table word that decodes fits its format, and its bytes decode. -/
theorem decodeTableWord_some {nbits w : Nat} {i : Instr} (h : decodeTableWord nbits w = some i) :
    w < 2 ^ (8 * formatBytes (rowFormat nbits))
      ∧ decodeBytes (rowFormat nbits) (leBytes (formatBytes (rowFormat nbits)) w) = .ok i := by
  unfold decodeTableWord at h
  split at h
  · cases h
  · next hlt =>
    split at h
    · next j hj => cases h; exact ⟨not_le.mp hlt, hj⟩
    · cases h

/-- An access of the block at an offset from `REG_BASE` decodes as the offset does (R23). -/
theorem decodeAccess_at_offset (base : Nat) (o : BitVec 8) (write : Bool) (d : Word64) :
    decodeAccess base ⟨base + o.toNat, 8, write, d⟩ = decodeBus o.toNat 8 write d := by
  unfold decodeAccess
  rw [if_neg (not_lt.mpr (Nat.le_add_right _ _)), Nat.add_sub_cancel_left]

/-- The access placed for a triple of the right length, by its direction (log 3). -/
theorem accessOfBytes_triple {data : List Byte} (h : data.length = 8) (base : Nat) (o dir : Byte) :
    accessOfBytes base (o :: dir :: data)
      = if dir = 1 then writeAccess base o (BitVec.ofNat 64 (ofLeBytes data))
        else if dir = 0 then readAccess base o else noAccess base := if_neg (not_not.mpr h)

/-- The access placed for the bytes of a triple decodes as the bytes do (log 3). -/
theorem decodeAccess_accessOfBytes {bytes : List Byte} {i : Instr} (base : Nat)
    (h : decodeBytes .bus bytes = .ok i) : decodeAccess base (accessOfBytes base bytes) = .ok i := by
  unfold decodeBytes at h
  split at h
  · cases h
  · next hlen =>
    simp only at h
    split at h
    · next o dir data =>
      have h8 : data.length = 8 := by simpa [formatBytes] using hlen
      rw [accessOfBytes_triple h8]
      split at h
      · next hw => rw [if_pos hw]; exact (decodeAccess_at_offset base o true _).trans h
      · next hw =>
        split at h
        · next hr => rw [if_neg hw, if_pos hr]; exact (decodeAccess_at_offset base o false _).trans h
        · cases h
    · cases h

theorem placeWord_cmd {w : Nat} (h : w < 2 ^ 64) (s : State) :
    s.placeWord 64 w = (s.withRegs { s.regs with cmd := BitVec.ofNat 64 w }).withPending
      (.access (writeAccess s.params.regBase 0x48 1) :: s.pending) := if_neg (not_le.mpr h)

theorem placeWord_bus {w : Nat} (h : w < 2 ^ 80) (s : State) :
    s.placeWord 80 w = s.withPending (.access (accessOfBytes s.params.regBase (leBytes 10 w)) :: s.pending) :=
  if_neg (not_le.mpr h)

/-- The host's write of 1 to `CTRL.GO` is the instruction `GO` (R107). -/
theorem step_go_access {s : State} {rest : List HostEvent}
    (h : s.pending = .access (writeAccess s.params.regBase 0x48 1) :: rest) :
    step s = exec .go (s.withPending rest) :=
  step_access h ((decodeAccess_at_offset _ 0x48 true 1).trans (decodeBus_aligned (by decide) true 1))

theorem step_withFetchWord_cmd {s : State} {w : Nat} {i : Instr} (h : decodeTableWord 64 w = some i) :
    step (s.withFetchWord 64 w) = exec i (s.withRegs { s.regs with cmd := BitVec.ofNat 64 w }) := by
  obtain ⟨hlt, hbytes⟩ := decodeTableWord_some h
  obtain ⟨k, rfl, hk⟩ := decodeCommandWord_ok ((decodeBytes_cmd hlt).symm.trans hbytes)
  refine (congrArg step (placeWord_cmd hlt s)).trans ?_
  refine (step_go_access rfl).trans ?_
  exact exec_go_eq_kernel (s := s.withRegs { s.regs with cmd := BitVec.ofNat 64 w }) hk

theorem step_withFetchWord_bus {s : State} {w : Nat} {i : Instr} (h : decodeTableWord 80 w = some i) :
    step (s.withFetchWord 80 w) = exec i s := by
  obtain ⟨hlt, hbytes⟩ := decodeTableWord_some h
  refine (congrArg step (placeWord_bus hlt s)).trans ?_
  exact step_access rfl (decodeAccess_accessOfBytes s.params.regBase hbytes)

/-- Settles O4: the event of an access, and the access that a placed word of each format stands for. -/
theorem stepRunsDecodedInstruction : Obligations.StepRunsDecodedInstruction :=
  ⟨fun _ _ _ _ => step_access, fun _ _ _ => step_withFetchWord_cmd, fun _ _ _ => step_withFetchWord_bus⟩

/-! ### A command over memory with read side effects (R75) -/

/-- Settles O19. -/
theorem sideEffectBufferRefused : Obligations.SideEffectBufferRefused := by
  intro k s hgo ha hside
  rw [exec_kernel]
  exact launch_overSideEffects ((takesGo_iff s).mp hgo) ha hside

end Sys2Proof.Machine
end

section
/-! PROOFS. The machine's invariant and the running command's, kept by every step; where a step changes `STATUS`; and
the step that completes a command (R34, R132, R139, R144). -/

namespace Sys2Proof.Machine

/-! ### What depends on the block alone -/

/-- A state with the fields that are no part of the block left blank. -/
def State.block (p : Params) (r : Regs) (x : Status) (m : Memory) : State := ⟨p, r, x, m, 0, 0, ⟨none, []⟩, []⟩

/-- What is computed from the parameters, the registers, the status and the memory is the same in both states. -/
theorem SameBlock.view {α : Sort _} {u s : State} (h : SameBlock u s) (f : Params → Regs → Status → Memory → α) :
    f u.params u.regs u.status u.mem = f s.params s.regs s.status s.mem := by
  obtain ⟨⟨hparams, hregs⟩, hstatus, hmem⟩ := h
  rw [hparams, hregs, hstatus, hmem]

theorem SameBlock.inv {u s : State} (h : SameBlock u s) : u.Inv = s.Inv :=
  h.view fun p r x m => (State.block p r x m).Inv

theorem SameBlock.progressInv {u s : State} (h : SameBlock u s) : u.ProgressInv = s.ProgressInv :=
  h.view fun p r x m => (State.block p r x m).ProgressInv

theorem SameBlock.rowValue {u s : State} (h : SameBlock u s) (k : Kernel) (r : Nat) :
    u.rowValue k r = s.rowValue k r :=
  h.view fun p q x m => (State.block p q x m).rowValue k r

theorem SameSetup.busyInv {t s : State} (h : SameSetup t s) (e : Engine) : t.BusyInv e = s.BusyInv e :=
  h.view fun p r => (State.setup p r).BusyInv e

theorem SameSetup.lastOp {t s : State} (h : SameSetup t s) (e : Engine) : t.LastOp e = s.LastOp e :=
  h.view fun p r => (State.setup p r).LastOp e

theorem State.Inv.busy {s : State} {e : Engine} (h : s.Inv) (hb : s.status = .busy e) : s.BusyInv e :=
  have ⟨_, _, _, hbusy⟩ := h
  hbusy e hb

/-! ### `GO` and the engine's turn, by what they can answer -/

/-- Everything `GO` can answer (R132): ignored; refused for its word or by a check; accepted, to a visible `BUSY` or in
one transition to `DONE`. -/
theorem go_next {s t : State} (h : s.go = .next t) :
    (s.status.ignoresGo = true ∧ t = s)
      ∨ (s.TakesGo ∧ (∃ x, decodeCommand s.regs.cmd = .error x) ∧ t = s.refuse .arg)
      ∨ (s.TakesGo ∧ ∃ k c, decodeCommand s.regs.cmd = .ok k ∧ s.acceptError k = some c ∧ t = s.refuse c)
      ∨ (s.TakesGo ∧ ∃ k, decodeCommand s.regs.cmd = .ok k ∧ s.acceptError k = none ∧ s.params.visibleBusy = true
          ∧ t = s.accept k)
      ∨ (s.TakesGo ∧ ∃ k, decodeCommand s.regs.cmd = .ok k ∧ s.acceptError k = none ∧ s.params.visibleBusy = false
          ∧ EngineFrame s t ∧ t.status = .done) := by
  cases hg : s.status.ignoresGo with
  | true => rw [go_ignored hg] at h; cases h; exact .inl ⟨rfl, rfl⟩
  | false =>
    have hgo : s.TakesGo := (takesGo_iff s).mpr hg
    cases hd : decodeCommand s.regs.cmd with
    | error x => rw [go_illegal hg hd] at h; cases h; exact .inr (.inl ⟨hgo, ⟨x, rfl⟩, rfl⟩)
    | ok k =>
      rw [go_eq_launch hd] at h
      rcases launch_next h with ⟨hi, -⟩ | ⟨-, c, hc, rfl⟩ | ⟨-, ha, hv, rfl⟩ | ⟨-, ha, hv, -, hf, hdone⟩
      · rw [hg] at hi; cases hi
      · exact .inr (.inr (.inl ⟨hgo, k, c, rfl, hc, rfl⟩))
      · exact .inr (.inr (.inr (.inl ⟨hgo, k, rfl, ha, hv, rfl⟩)))
      · exact .inr (.inr (.inr (.inr ⟨hgo, k, rfl, ha, hv, hf, hdone⟩)))

/-- The engine's operation ends in `DONE` exactly where it is the command's last (R34; log 6). -/
theorem engineOp_done_iff {s t : State} {e : Engine} (h : engineOp e s = .ok t) (hrow : e.row < s.outer e.kernel)
    (hcol : e.col ≤ s.inner e.kernel) : t.status = .done ↔ s.LastOp e := by
  unfold engineOp at h
  rw [if_pos hrow] at h
  split at h
  · next hlt =>
    split at h
    · cases h
    · cases h
      exact iff_of_false Status.noConfusion fun ⟨hlast, _⟩ => absurd hlast hlt.ne
  · next hge =>
    split at h
    · cases h
    · next s1 hs1 =>
      cases h
      obtain ⟨m, y, rfl, -⟩ := emit_frame hs1
      unfold State.endRow
      rw [SameSetup.outer (SameSetup.of_withMem s m)]
      split
      · next hmore => exact iff_of_false Status.noConfusion fun ⟨_, hlast⟩ => absurd hlast hmore.ne
      · exact iff_of_true rfl ⟨by omega, by omega⟩

/-! ### The step of a running command -/

theorem isBusy_of_busy {s : State} {e : Engine} (h : s.status = .busy e) : s.status.isBusy = true := by rw [h]; rfl

/-- Where the next event gives the engine its turn, the step is the engine's operation on the same block. -/
theorem step_of_engineMoves {s : State} {e : Engine} (hb : s.status = .busy e) (h : s.EngineMoves) :
    ∃ u, SameBlock u s ∧ step s = toOutcome (engineOp e u) := by
  have turn : ∀ u, SameBlock u s → engineStep u = toOutcome (engineOp e u) := fun u hu =>
    congrArg toOutcome (engineTurn_busy (hu.status.trans hb))
  rcases h with hp | ⟨rest, hp⟩ | ⟨rest, hp⟩
  · exact ⟨s, ⟨.refl s, rfl, rfl⟩, (step_nil hp).trans (turn s ⟨.refl s, rfl, rfl⟩)⟩
  · exact ⟨_, .withPending s rest, (step_engine hp).trans (turn _ (.withPending s rest))⟩
  · refine ⟨_, .busRead s .status, (step_wait hp).trans ?_⟩
    unfold waitStep
    rw [if_pos (isBusy_of_busy hb)]
    exact turn _ (.busRead s .status)

/-- A step takes a running command to `DONE` by an operation of its engine alone (R34). -/
theorem step_done_of_busy {s t : State} {e : Engine} (hb : s.status = .busy e) (h : step s = .next t)
    (hd : t.status = .done) : ∃ u, SameBlock u s ∧ s.EngineMoves ∧ engineOp e u = .ok t := by
  rcases step_cases h with hsame | ⟨u, hu, hmoves, hturn⟩ | ⟨a, rest, -, -, hgo⟩ | ⟨rest, r, hn, -⟩
    | ⟨rest, a, b, -, rfl, -⟩ | ⟨rest, -, rfl⟩
  · rw [hsame.status, hb] at hd; cases hd
  · exact ⟨u, hu, hmoves, (engineTurn_busy (hu.status.trans hb)).symm.trans hturn⟩
  · rw [go_busy (s := s.withPending rest) (isBusy_of_busy hb)] at hgo
    cases hgo
    exact absurd (hb.symm.trans hd) (by simp)
  · rw [isBusy_of_busy hb] at hn; cases hn
  · exact absurd (hb.symm.trans hd) (by simp)
  · cases hd

/-! ### The machine's invariant -/

/-- Where no command runs, the invariant speaks of the parameters and the memory alone. -/
theorem inv_of_not_busy {s : State} (hlegal : s.params.legal) (hwf : s.mem.wf)
    (hspace : s.mem.inSpace s.params.addrBits) (hb : s.status.isBusy = false) : s.Inv :=
  ⟨hlegal, hwf, hspace, fun e he => by rw [isBusy_of_busy he] at hb; cases hb⟩

/-- What the engine leaves meets the invariant, where a command it leaves running does. -/
theorem EngineFrame.inv {s t : State} (hf : EngineFrame s t) (hs : s.Inv)
    (hbusy : ∀ e, t.status = .busy e → s.BusyInv e) : t.Inv := by
  obtain ⟨hlegal, hwf, hspace, -⟩ := hs
  have hparams : t.params = s.params := hf.setup.1
  refine ⟨by rw [hparams]; exact hlegal, hf.wf hwf, by rw [hparams]; exact hf.inSpace hspace, fun e he => ?_⟩
  rw [hf.setup.busyInv]
  exact hbusy e he

theorem engineTurn_inv {s t : State} (hs : s.Inv) (h : s.engineTurn = .ok t) : t.Inv := by
  cases hb : s.status with
  | busy e =>
    rw [engineTurn_busy hb] at h
    obtain ⟨haccept, hcmd, -, -⟩ := hs.busy hb
    obtain ⟨hf, ⟨e', he', hk, -, hrow, hcol⟩ | ⟨hd, -⟩⟩ := engineOp_ok h
    · refine hf.inv hs fun e'' he'' => ?_
      obtain rfl : e' = e'' := Status.busy.inj (he'.symm.trans he'')
      unfold State.BusyInv
      rw [hk]
      exact ⟨haccept, hcmd, hrow, hcol⟩
    · exact hf.inv hs fun e'' he'' => by rw [hd] at he''; cases he''
  | _ => rw [engineTurn_not_busy (by rw [hb]; rfl)] at h; cases h; exact hs

/-- An accepted command stands at its start. -/
theorem busyInv_start {s : State} {k : Kernel} (hk : decodeCommand s.regs.cmd = .ok k) (ha : s.acceptError k = none) :
    s.BusyInv (Engine.start k) :=
  have hstart := runAt_start ha
  ⟨ha, hk, hstart.row, hstart.col⟩

theorem go_inv {s t : State} (hs : s.Inv) (h : s.go = .next t) : t.Inv := by
  rcases go_next h with ⟨-, rfl⟩ | ⟨-, -, rfl⟩ | ⟨-, k, c, -, -, rfl⟩ | ⟨-, k, hk, ha, -, rfl⟩
    | ⟨-, k, -, -, -, hf, hd⟩
  · exact hs
  · exact (EngineFrame.withStatus s _).inv hs fun e he => by cases he
  · exact (EngineFrame.withStatus s _).inv hs fun e he => by cases he
  · exact (EngineFrame.withStatus s _).inv hs fun e he => by cases he; exact busyInv_start hk ha
  · exact hf.inv hs fun e he => by rw [hd] at he; cases he

theorem lt_of_addressFault_none {s : State} {a : Nat} (h : s.addressFault a = none) : a < 2 ^ s.params.addrBits := by
  unfold State.addressFault at h
  split at h
  · cases h
  · next hlt => exact not_le.mp hlt

/-- Settles O48, by the cases of a step. -/
theorem stepKeepsInvariant : Obligations.StepKeepsInvariant := by
  intro s t hs h
  rcases step_cases h with hsame | ⟨u, hu, -, hturn⟩ | ⟨a, rest, -, -, hgo⟩ | ⟨rest, r, hb, rfl⟩
    | ⟨rest, a, b, -, rfl, hf, -⟩ | ⟨rest, -, rfl⟩
  · rw [hsame.inv]; exact hs
  · exact engineTurn_inv (hu.inv ▸ hs) hturn
  · exact go_inv (s := s.withPending rest) hs hgo
  all_goals obtain ⟨hlegal, hwf, hspace, hbusy⟩ := hs
  · exact inv_of_not_busy hlegal hwf hspace hb
  · exact ⟨hlegal, Memory.wf_write hwf a b, Memory.inSpace_write hspace (lt_of_addressFault_none hf) b, hbusy⟩
  · exact inv_of_not_busy hlegal (platformReset_wf hwf) (platformReset_inSpace hspace) rfl

/-- Settles O47: memory is empty and no command runs. -/
theorem resetMeetsInvariant : Obligations.ResetMeetsInvariant := by
  have hreset : ∀ p : Params, p.legal → (State.resetWith p).Inv := fun p hp =>
    inv_of_not_busy hp .nil (fun _ hc => absurd hc List.not_mem_nil) rfl
  exact ⟨hreset _ (by decide), hreset⟩

/-! ### The accumulators, row by row -/

/-- The sum an engine has accumulated for row `r` of its pass of the outer loop (R161, R171, R181, R185). -/
def Engine.rowAcc (e : Engine) (r : Nat) : Word32 :=
  match e.kernel with
  | .scalar => e.acc
  | .singleRow => hsum (e.accs.get 0)
  | .fourRowBlocked => hsum (e.accs.get (r % 4))
  | .fourRowInterleaved => hsum (e.accs.get (r % 4))

/-- How many columns of those rows it has consumed. -/
def Engine.consumed (e : Engine) : Nat :=
  match e.kernel with
  | .scalar => e.col
  | .singleRow => 16 * e.col
  | .fourRowBlocked => 16 * e.col
  | .fourRowInterleaved => 16 * e.col

theorem forall_block_rows {b : Nat} {P : Nat → Nat → Prop} :
    (∀ i, i < 4 → P i (4 * b + i)) ↔ ∀ r, r / 4 = b → P (r % 4) r := by
  refine ⟨fun h r hr => ?_, fun h i hi => ?_⟩
  · have := h (r % 4) (Nat.mod_lt r (by decide))
    rwa [show 4 * b + r % 4 = r by omega] at this
  · have := h (4 * b + i) (by omega)
    rwa [show (4 * b + i) % 4 = i by omega] at this

theorem accumulatorsHold_iff (s : State) (e : Engine) : s.AccumulatorsHold e
    ↔ ∀ r, e.PassRow r → e.rowAcc r = BitVec.ofInt 32 (s.partialSum e.kernel r e.consumed) := by
  unfold State.AccumulatorsHold Engine.PassRow Engine.rowAcc Engine.consumed
  cases e.kernel with
  | scalar => simp only [forall_eq]
  | singleRow => simp only [forall_eq]
  | fourRowBlocked =>
    exact forall_block_rows (P := fun i r =>
      hsum (e.accs.get i) = BitVec.ofInt 32 (s.partialSum .fourRowBlocked r (16 * e.col)))
  | fourRowInterleaved =>
    exact forall_block_rows (P := fun i r =>
      hsum (e.accs.get i) = BitVec.ofInt 32 (s.partialSum .fourRowInterleaved r (16 * e.col)))

theorem passRow_lt_weightRows {s : State} {e : Engine} {r : Nat} (hrow : e.row < s.outer e.kernel) (hr : e.PassRow r) :
    r < s.weightRows e.kernel := by
  have hblocks := s.blocks_mul
  unfold Engine.PassRow at hr
  cases hk : e.kernel <;> simp only [hk, State.outer, State.weightRows, layoutRows] at hrow hr ⊢ <;> omega

theorem consumed_le_padded {s : State} {e : Engine} (hcol : e.col ≤ s.inner e.kernel) : e.consumed ≤ s.padded := by
  have hpadded := s.padded_eq
  unfold Engine.consumed
  cases hk : e.kernel <;> simp only [hk, State.inner] at hcol ⊢ <;> omega

/-! ### The running command's invariant -/

/-- A running command depends on the setup and on the bytes of its buffers alone (R85). -/
theorem progressInv_congr {s t : State} (hset : SameSetup t s) (hstatus : t.status = s.status) (hs : s.Inv)
    (hm : ∀ e, s.status = .busy e → ∀ a, (s.weightRegion e.kernel).Has a ∨ s.inputRegion.Has a ∨ s.outputRegion.Has a →
      t.mem.read a = s.mem.read a) (hprog : s.ProgressInv) : t.ProgressInv := by
  intro e he
  have hb : s.status = .busy e := hstatus.symm.trans he
  obtain ⟨-, -, hrow, hcol⟩ := hs.busy hb
  obtain ⟨hacc, hout⟩ := hprog e hb
  have hbytes := hm e hb
  refine ⟨?_, fun r hr => ?_⟩
  · rw [accumulatorsHold_iff] at hacc ⊢
    intro r hr
    rw [hacc r hr, partialSum_congr hset
      (fun j hj => hbytes _ (.inl (layout_in_weights (passRow_lt_weightRows hrow hr)
        (lt_of_lt_of_le hj (consumed_le_padded hcol)))))
      (fun j hj => hbytes _ (.inr (.inl (input_in_region (lt_of_lt_of_le hj (consumed_le_padded hcol))))))]
  · have hr' : r < s.rowsWritten e := by
      unfold State.rowsWritten at hr ⊢
      rwa [hset.rows] at hr
    have hlt : r < s.rows := lt_of_lt_of_le hr' (rowsWritten_le s hrow.le)
    rw [rowValue_congr hset (fun a ha => hbytes a (ha.imp_right .inl)) hlt]
    intro i hi
    rw [hset.yBase, hbytes _ (.inr (.inr (outputBytes_in_region hlt ⟨by simp only; omega, by simp only; omega⟩)))]
    exact hout r hr' i hi

theorem progressInv_of_not_busy {s : State} (hb : s.status.isBusy = false) : s.ProgressInv :=
  fun e he => by rw [isBusy_of_busy he] at hb; cases hb

/-- A point of a run meets the invariant of a running command. -/
theorem State.RunAt.progressInv {s : State} {e : Engine} {m : Memory} (h : s.RunAt e m) : (s.at e m).ProgressInv := by
  have hset := s.at_setup e m
  intro e' he'
  obtain rfl : e = e' := Status.busy.inj he'
  refine ⟨(h.holds_iff hset h.frame rfl h.row h.col).mpr h.holds, fun r hr => ?_⟩
  have hlt : r < s.rows := lt_of_lt_of_le hr (rowsWritten_le s h.row.le)
  rw [h.rowValue hset h.frame hlt]
  exact h.outputs r hr

theorem State.at_self {s : State} {e : Engine} (h : s.status = .busy e) : s.at e s.mem = s := by
  obtain ⟨p, r, x, m, d, b, u, ps⟩ := s
  cases h
  rfl

/-- A running command that meets both invariants stands at a point of its run, seen from where it stands. -/
theorem runAt_of_progress {s : State} {e : Engine} (hs : s.Inv) (hprog : s.ProgressInv) (hb : s.status = .busy e) :
    s.RunAt e s.mem := by
  obtain ⟨haccept, -, hrow, hcol⟩ := hs.busy hb
  obtain ⟨hacc, hout⟩ := hprog e hb
  exact ⟨haccept, hrow, hcol, hacc, hout, fun _ _ => rfl, id, id⟩

theorem engineTurn_progressInv {s t : State} (hs : s.Inv) (hprog : s.ProgressInv) (h : s.engineTurn = .ok t) :
    t.ProgressInv := by
  cases hb : s.status with
  | busy e =>
    rw [engineTurn_busy hb, ← State.at_self hb] at h
    rcases engineOp_at (runAt_of_progress hs hprog hb) h with ⟨e', m', rfl, -, hrun, -⟩ | ⟨m', rfl, -⟩
    · exact hrun.progressInv
    · exact progressInv_of_not_busy rfl
  | _ => rw [engineTurn_not_busy (by rw [hb]; rfl)] at h; cases h; exact hprog

theorem go_progressInv {s t : State} (hprog : s.ProgressInv) (h : s.go = .next t) : t.ProgressInv := by
  rcases go_next h with ⟨-, rfl⟩ | ⟨-, -, rfl⟩ | ⟨-, k, c, -, -, rfl⟩ | ⟨-, k, -, ha, -, rfl⟩
    | ⟨-, k, -, -, -, -, hd⟩
  · exact hprog
  · exact progressInv_of_not_busy rfl
  · exact progressInv_of_not_busy rfl
  · exact (runAt_start ha).progressInv
  · exact progressInv_of_not_busy (by rw [hd]; rfl)

/-- Settles O49, by the cases of a step: the host's writes stay outside a running command's buffers (R86). -/
theorem stepKeepsProgress : Obligations.StepKeepsProgress := by
  intro s t hs hprog h
  rcases step_cases h with hsame | ⟨u, hu, -, hturn⟩ | ⟨a, rest, -, -, hgo⟩ | ⟨rest, r, hb, rfl⟩
    | ⟨rest, a, b, -, rfl, -, hfree⟩ | ⟨rest, -, rfl⟩
  · rw [hsame.progressInv]; exact hprog
  · exact engineTurn_progressInv (hu.inv ▸ hs) (hu.progressInv ▸ hprog) hturn
  · exact go_progressInv (s := s.withPending rest) hprog hgo
  · exact progressInv_of_not_busy hb
  · refine progressInv_congr (s := s) ⟨rfl, rfl⟩ rfl hs (fun e he x hx => ?_) hprog
    refine Memory.read_write_other s.mem b ?_
    rintro rfl
    rw [(inBusyBuffers_iff he x).mpr hx] at hfree
    cases hfree
  · exact progressInv_of_not_busy rfl

/-- Settles O50: the step is the last operation of the run, and a run that is complete has written every row. -/
theorem lastOperationWritesEveryRow : Obligations.LastOperationWritesEveryRow := by
  intro s t e hs hprog hb h hd r hr
  obtain ⟨u, hu, -, hop⟩ := step_done_of_busy hb h hd
  have hub : u.status = .busy e := hu.status.trans hb
  rw [← State.at_self hub] at hop
  rcases engineOp_at (runAt_of_progress (hu.inv ▸ hs) (hu.progressInv ▸ hprog) hub) hop
    with ⟨e', m', rfl, -⟩ | ⟨m', rfl, hdone, -⟩
  · cases hd
  · rw [← hu.rowValue]
    exact hdone.outputs r (by rw [hu.setup.rows]; exact hr)

/-! ### Where `STATUS` changes (R34) -/

/-- What the engine's turn leaves in `STATUS`. -/
theorem engineTurn_status {s t : State} (h : s.engineTurn = .ok t) :
    t.status = s.status ∨ (s.status.isBusy = true ∧ (t.status.isBusy = true ∨ t.status = .done)) := by
  cases hb : s.status with
  | busy e =>
    rw [engineTurn_busy hb] at h
    obtain ⟨-, ⟨e', he', -⟩ | ⟨hd, -⟩⟩ := engineOp_ok h
    · exact .inr ⟨rfl, .inl (isBusy_of_busy he')⟩
    · exact .inr ⟨rfl, .inr hd⟩
  | _ => rw [engineTurn_not_busy (by rw [hb]; rfl)] at h; cases h; exact .inl hb

/-- Settles O17: the cases of a step, and of those the engine's last operation alone answers `DONE`. -/
theorem statusWrittenByEngineAlone : Obligations.StatusWrittenByEngineAlone := by
  refine ⟨fun s t h => ?_, fun s t e hs hb h => ⟨fun hd => ?_, fun ⟨hmoves, hlast⟩ => ?_⟩⟩
  · rcases step_cases h with hsame | ⟨u, hu, hmoves, hturn⟩ | ⟨a, rest, hp, ha, hgo⟩ | ⟨rest, r, -, rfl⟩
      | ⟨rest, a, b, -, rfl, -⟩ | ⟨rest, hp, rfl⟩
    · exact .inl hsame.status
    · rw [← hu.status]
      exact (engineTurn_status hturn).imp_right fun ⟨hb, ht⟩ => .inr (.inr ⟨hb, hmoves, ht⟩)
    · rcases go_next hgo with ⟨-, rfl⟩ | ⟨htake, hx, rfl⟩ | ⟨htake, k, c, hk, hc, rfl⟩ | ⟨htake, k, hk, hacc, hv, rfl⟩
        | ⟨htake, k, hk, hacc, hv, -, hd⟩
      · exact .inl rfl
      all_goals refine .inr (.inr (.inl ⟨htake, ⟨a, rest, hp, ha⟩, ?_⟩))
      · exact .inl ⟨hx, rfl⟩
      · exact .inr (.inl ⟨k, c, hk, hc, rfl⟩)
      · exact .inr (.inr ⟨k, hk, hacc, (if_pos hv).symm⟩)
      · exact .inr (.inr ⟨k, hk, hacc, hd.trans (if_neg (by simpa using hv)).symm⟩)
    · exact .inl rfl
    · exact .inl rfl
    · exact .inr (.inl ⟨rest, hp, rfl⟩)
  all_goals obtain ⟨-, -, hrow, hcol⟩ := hs.busy hb
  · obtain ⟨u, hu, hmoves, hop⟩ := step_done_of_busy hb h hd
    rw [← hu.setup.outer] at hrow
    rw [← hu.setup.inner] at hcol
    exact ⟨hmoves, hu.setup.lastOp e ▸ (engineOp_done_iff hop hrow hcol).mp hd⟩
  · obtain ⟨u, hu, hstep⟩ := step_of_engineMoves hb hmoves
    rw [← hu.setup.outer] at hrow
    rw [← hu.setup.inner] at hcol
    have hop : engineOp e u = .ok t := toOutcome_next (hstep.symm.trans h)
    exact (engineOp_done_iff hop hrow hcol).mpr (hu.setup.lastOp e ▸ hlast)

end Sys2Proof.Machine
end

section
/-! PROOFS. Commands that complete, in one transition or through a visible `BUSY`, and a `WAIT` for one; the frame of a
command and of a running one; and when the host sees the output (R69, R79, R107, R132, R139, R147). -/

namespace Sys2Proof.Machine

/-! ### A command that runs (R132, R139) -/

theorem unsafeK_iff (s : State) :
    s.unsafeK = true ↔ s.params.accOverflow = .refuseUnsafeK ∧ Config.kSafe < s.regs.k.toNat := by
  unfold State.unsafeK
  rw [Bool.and_eq_true, decide_eq_true_eq, decide_eq_true_eq]

/-- A prepared command is none that `refuse_unsafe_k` faults on (R145). -/
theorem unsafeK_of_overflowAllowed {s : State} {k : Kernel} (h : s.OverflowAllowed k) : s.unsafeK = false := by
  rw [← Bool.not_eq_true, unsafeK_iff]
  rintro ⟨hacc, hk⟩
  unfold State.OverflowAllowed at h
  rw [hacc] at h
  exact absurd hk (not_lt.mpr h)

theorem State.Runs.exec {s : State} {k : Kernel} (h : s.Runs k) :
    exec k.toInstr s = toOutcome (s.runCommand k) := by
  obtain ⟨hgo, ha, -, -, -, hside, hover⟩ := h
  rw [exec_kernel]
  exact launch_accepted ((takesGo_iff s).mp hgo) ha hside (unsafeK_of_overflowAllowed hover)

/-- The whole run of a command from its start (R147). -/
theorem State.Runs.runEngine {s : State} {k : Kernel} (h : s.Runs k) :
    ∃ m, (s.accept k).runEngine (s.opCount k) = .ok (s.withMem m).complete ∧ s.RunDone k m := by
  obtain ⟨-, ha, hprep⟩ := h
  exact runEngine_at hprep rfl (runAt_start ha) (remaining_start s k)

theorem State.RunDone.completedTo {s : State} {k : Kernel} {m : Memory} (h : s.RunDone k m) :
    s.CompletedTo (s.withMem m).complete k :=
  ⟨rfl, h.outputs, h.frame, rfl, rfl, rfl, rfl, rfl, rfl⟩

/-- Settles O20: the one transition is the whole run. -/
theorem kernelCommandsComplete : Obligations.KernelCommandsComplete := by
  intro k s h hv
  obtain ⟨m, hrun, hdone⟩ := h.runEngine
  refine ⟨_, ?_, hdone.completedTo⟩
  rw [h.exec]
  unfold State.runCommand
  rw [hv, hrun]
  rfl

/-- Settles O21, by O14 and O20. -/
theorem goCompletesItsCommand : Obligations.GoCompletesItsCommand := by
  intro k s hcmd h hv
  rw [kernelCommandIsGoWithItsWord k s hcmd]
  exact kernelCommandsComplete k s h hv

/-! ### Through a visible `BUSY` (R139, R147) -/

/-- A prepared command that has operations left is still running after fewer of them. -/
theorem runEngine_running {s : State} {k : Kernel} (hp : s.Prepared k) {n : Nat} : ∀ {e : Engine} {m : Memory},
    e.kernel = k → s.RunAt e m → n < s.remaining e →
    ∃ e' m', (s.at e m).runEngine n = .ok (s.at e' m') := by
  induction n with
  | zero => intro e m _ _ _; exact ⟨e, m, rfl⟩
  | succ n ih =>
    intro e m hk h hn
    subst hk
    obtain ⟨t, ht⟩ := engineOp_prepared h hp
    rw [runEngine_succ_ok (s := s.at e m) ht]
    rcases engineOp_at h ht with ⟨e', m', rfl, hk', h', hrem⟩ | ⟨m', rfl, -, hrem⟩
    · exact ih hk' h' (by omega)
    · omega

theorem State.Runs.running {s : State} {k : Kernel} (h : s.Runs k) {n : Nat} (hn : n < s.opCount k) :
    ∃ e m, (s.accept k).runEngine n = .ok (s.at e m) := by
  obtain ⟨-, ha, hprep⟩ := h
  exact runEngine_running hprep rfl (runAt_start ha) hn

/-- `NB = ceil4(n) div 4` is the number of blocks of four rows that hold `n` rows (R17). -/
theorem State.blocks_eq (s : State) : s.blocks = (s.rows + 3) / 4 := Nat.mul_div_cancel _ (by decide)

/-- Settles O22: with nothing pending every step is an engine operation. -/
theorem visibleBusyCompletes : Obligations.VisibleBusyCompletes := by
  intro k s h hv hp
  have hruns : ∀ n, runs n (s.accept k) = toOutcome ((s.accept k).runEngine n) := fun n => runs_eq_runEngine hp
  refine ⟨?_, ⟨rfl, rfl, ?_, ?_⟩, fun n hn => ?_, ?_⟩
  · rw [h.exec]
    unfold State.runCommand
    rw [hv]
    rfl
  · rw [← s.blocks_eq]; rfl
  · rw [← s.blocks_eq]; rfl
  · obtain ⟨e, m, hrun⟩ := h.running hn
    exact ⟨_, by rw [hruns, hrun]; rfl, rfl⟩
  · obtain ⟨m, hrun, hdone⟩ := h.runEngine
    exact ⟨_, by rw [hruns, hrun]; rfl, hdone.completedTo⟩

/-! ### `WAIT` (R107) -/

theorem withBusData_engineBlind (d : Word64) : EngineBlind (·.withBusData d) where
  rows _ := rfl
  padded _ := rfl
  wBase _ := rfl
  xBase _ := rfl
  yBase _ := rfl
  addressFault _ _ := rfl
  accOverflow _ := rfl
  status _ := rfl
  mem _ := rfl
  unsynced _ := rfl
  withStatus _ _ := rfl
  withMem _ _ := rfl
  withUnsynced _ _ := rfl

/-- A poll that reads `BUSY` is an operation of the engine, with the word read beside it. -/
theorem step_wait_busy {s : State} {rest : List HostEvent} (hp : s.pending = .wait :: rest)
    (hb : s.status.isBusy = true) : step s = toOutcome (s.engineTurn.map (·.withBusData 1)) := by
  have hread : s.busRead .status = s.withBusData 1 := by
    have hsync : s.syncOnRead .status = s := if_neg fun ⟨_, hd⟩ => by rw [hd] at hb; cases hb
    unfold State.busRead
    rw [hsync]
    exact congrArg s.withBusData (Status.word_of_busy hb)
  rw [step_wait hp]
  unfold waitStep engineStep
  rw [if_pos hb, hread, (withBusData_engineBlind 1).engineTurn]

/-- A poll that reads `DONE` ends the wait. -/
theorem step_wait_done {s : State} {rest : List HostEvent} (hp : s.pending = .wait :: rest) (hd : s.status = .done) :
    step s = .next ((s.busRead .status).withPending rest) := by
  rw [step_wait hp]
  unfold waitStep
  rw [hd]
  rfl

/-- As long as the engine is running, the polls of a `WAIT` are its operations. -/
theorem runs_wait {n : Nat} : ∀ {s t : State} {rest : List HostEvent}, s.pending = .wait :: rest →
    (∀ m, m < n → ∃ u, s.runEngine m = .ok u ∧ u.status.isBusy = true) → s.runEngine n = .ok t →
    ∃ d, runs n s = .next (t.withBusData d) := by
  induction n with
  | zero => intro s t rest _ _ ht; cases ht; exact ⟨s.busData, rfl⟩
  | succ n ih =>
    intro s t rest hp hbusy ht
    obtain ⟨u, hu, hb⟩ := hbusy 0 (Nat.succ_pos n)
    cases hu
    cases hturn : s.engineTurn with
    | error f => rw [runEngine_succ_error hturn] at ht; cases ht
    | ok v =>
      have hblind := withBusData_engineBlind 1
      have hstep : step s = .next (v.withBusData 1) := by rw [step_wait_busy hp hb, hturn]; rfl
      rw [runEngine_succ_ok hturn] at ht
      obtain ⟨d, hd⟩ := ih (s := v.withBusData 1) (t := t.withBusData 1) ((engineTurn_ok hturn).pending.trans hp)
        (fun m hm => by
          obtain ⟨w, hw, hwb⟩ := hbusy (m + 1) (by omega)
          rw [runEngine_succ_ok hturn] at hw
          exact ⟨w.withBusData 1, by rw [hblind.runEngine, hw]; rfl, hwb⟩)
        (by rw [hblind.runEngine, ht]; rfl)
      exact ⟨d, (runs_succ_next hstep n).trans hd⟩

theorem coreRun_succ {M : Host.Core} {s t u : M.State} {n : Nat} (h : M.run n s = .next t) (ht : M.step t = .next u) :
    M.run (n + 1) s = .next u := by
  induction n generalizing s with
  | zero => cases h; rw [coreRun_succ_next ht]; rfl
  | succ n ih =>
    cases hs : M.step s with
    | next v => rw [coreRun_succ_next hs] at h ⊢; exact ih h
    | fault f => simp only [Host.Core.run, hs] at h; cases h
    | refused r => simp only [Host.Core.run, hs] at h; cases h

/-- One step more at the end of a run. -/
theorem runs_succ {s t u : State} {n : Nat} (h : runs n s = .next t) (ht : step t = .next u) :
    runs (n + 1) s = .next u := coreRun_succ (M := Sys2Proof.core) h ht

/-- Settles O23: the polls are the operations of the run, and the one after them reads `DONE`. -/
theorem waitEndsWithDone : Obligations.WaitEndsWithDone := by
  intro k s rest h hp
  obtain ⟨m, hrun, hdone⟩ := h.runEngine
  obtain ⟨d, hpolls⟩ := runs_wait (s := s.accept k) hp
    (fun n hn => (h.running hn).elim fun e he => he.elim fun m' hm' => ⟨_, hm', rfl⟩) hrun
  have hlast := step_wait_done (s := ((s.withMem m).complete).withBusData d) hp rfl
  refine ⟨_, runs_succ hpolls hlast, rfl, ?_, ?_, hdone.outputs, hdone.frame, ?_⟩
  all_goals rfl

/-! ### Frames (R69) -/

/-- What a command leaves, in every state: the engine's frame, and every byte where it does not end in `DONE`. -/
theorem launch_frame {s t : State} {k : Kernel} (h : s.launch k = .next t) :
    EngineFrame s t ∧ (t.status ≠ .done → t.mem = s.mem) := by
  rcases launch_next h with ⟨-, rfl⟩ | ⟨-, c, -, rfl⟩ | ⟨-, -, -, rfl⟩ | ⟨-, -, -, -, hf, hd⟩
  · exact ⟨.refl t, fun _ => rfl⟩
  · exact ⟨.withStatus s _, fun _ => rfl⟩
  · exact ⟨.withStatus s _, fun _ => rfl⟩
  · exact ⟨hf, fun hn => absurd hd hn⟩

theorem go_frame {s t : State} (h : s.go = .next t) : EngineFrame s t ∧ (t.status ≠ .done → t.mem = s.mem) := by
  cases hd : decodeCommand s.regs.cmd with
  | ok k => rw [go_eq_launch hd] at h; exact launch_frame h
  | error x =>
    cases hg : s.status.ignoresGo with
    | true => rw [go_ignored hg] at h; cases h; exact ⟨.refl s, fun _ => rfl⟩
    | false => rw [go_illegal hg hd] at h; cases h; exact ⟨.withStatus s _, fun _ => rfl⟩

theorem exec_command_frame {i : Instr} {s t : State}
    (hi : i = .go ∨ i = .scalar ∨ i = .dotprod ∨ i = .dotprod4 ∨ i = .dotprod4i) (h : exec i s = .next t) :
    EngineFrame s t ∧ (t.status ≠ .done → t.mem = s.mem) := by
  rcases hi with rfl | rfl | rfl | rfl | rfl
  · exact go_frame h
  · exact launch_frame (k := .scalar) h
  · exact launch_frame (k := .singleRow) h
  · exact launch_frame (k := .fourRowBlocked) h
  · exact launch_frame (k := .fourRowInterleaved) h

/-- The frame of a running command's step: the host's writes of memory and a reset apart, the output range alone may
change. -/
theorem step_busy_frame {s t : State} (hb : s.status.isBusy = true) (h : step s = .next t)
    (hw : ∀ a b rest, s.pending ≠ .memWrite a b :: rest) (hr : ∀ rest, s.pending ≠ .reset :: rest) :
    SameSetup t s ∧ ∀ a, ¬ s.outputRegion.Has a → t.mem.read a = s.mem.read a := by
  rcases step_cases h with hsame | ⟨u, hu, -, hturn⟩ | ⟨a, rest, -, -, hgo⟩ | ⟨rest, r, hn, -⟩
    | ⟨rest, a, b, hp, -⟩ | ⟨rest, hp, -⟩
  · exact ⟨hsame.setup, fun a _ => by rw [hsame.mem]⟩
  · have hf := engineTurn_ok hturn
    refine ⟨hf.setup.trans hu.setup, fun a ha => ?_⟩
    rw [← hu.mem]
    exact hf.frame a (by rw [hu.setup.outputRegion]; exact ha)
  · rw [go_busy (s := s.withPending rest) hb] at hgo
    cases hgo
    exact ⟨.of_withPending s rest, fun _ _ => rfl⟩
  · rw [hb] at hn; cases hn
  · exact absurd hp (hw a b rest)
  · exact absurd hp (hr rest)

/-- Settles O24. -/
theorem commandFrame : Obligations.CommandFrame := by
  refine ⟨fun i s t hi h => ?_, fun s t hb h hw hr => ?_⟩
  · obtain ⟨hf, hmem⟩ := exec_command_frame hi h
    obtain ⟨hparams, hregs⟩ := hf.setup
    exact ⟨hparams, hregs, hf.busData, hf.memData, hf.pending, hf.frame, hmem⟩
  · obtain ⟨⟨hparams, hregs⟩, hframe⟩ := step_busy_frame hb h hw hr
    exact ⟨hparams, hregs, hframe⟩

/-! ### The host's read of the output (R79) -/

theorem Region.overlaps_of_has {p q : Region} {a : Nat} (hp : p.Has a) (hq : q.Has a) : p.overlaps q = true := by
  obtain ⟨hp1, hp2⟩ := hp
  obtain ⟨hq1, hq2⟩ := hq
  unfold Region.overlaps
  rw [Bool.and_eq_true, decide_eq_true_eq, decide_eq_true_eq]
  omega

/-- The output of a command that the model does not refuse lies over no memory with read side effects (R75). -/
theorem hasSideEffect_of_output {s : State} {k : Kernel} {a : Nat} (h : s.overSideEffects k = false)
    (ha : s.outputRegion.Has a) : s.params.hasSideEffect a = false := by
  unfold State.overSideEffects at h
  unfold Params.hasSideEffect
  rw [List.any_eq_false] at h ⊢
  intro r hr hc
  have hhas : r.Has a := (Region.contains_iff r a).mp hc
  have hsize : r.size ≠ 0 := by obtain ⟨h1, h2⟩ := hhas; omega
  exact h r hr (by simp [hsize, Region.overlaps_of_has hhas ha])

theorem inBusyOutput_of_not_busy {s : State} (h : s.status.isBusy = false) (a : Nat) : s.inBusyOutput a = false := by
  unfold State.inBusyOutput
  rw [h, Bool.false_and]

theorem hostMemRead_unsynced {s : State} {a : Nat} (hf : s.addressFault a = none)
    (hs : s.params.hasSideEffect a = false) (hb : s.inBusyOutput a = false) (hu : s.isUnsynced a = true) :
    hostMemRead a s = .fault (.unsyncedOutput a) := by
  unfold hostMemRead; simp [hf, hs, hb, hu]

/-- The read of `STATUS` in `DONE`. -/
theorem busRead_status_done {s : State} (h : s.status = .done) :
    s.busRead .status = (s.withUnsynced s.unsynced.settle).withBusData 2 := by
  have hsync : s.syncOnRead .status = s.withUnsynced s.unsynced.settle := if_pos ⟨rfl, h⟩
  have hword : s.readReg .status = 2 := congrArg Status.word h
  unfold State.busRead
  rw [hsync, hword]

/-- A second read of the same `DONE` changes nothing more. -/
theorem busRead_status_done_twice {s : State} (h : s.status = .done) :
    (s.busRead .status).busRead .status = s.busRead .status := by
  rw [busRead_status_done (s := s.busRead .status) (by rw [busRead_status]; exact h), busRead_status_done h]
  exact congrArg (fun u => (s.withUnsynced u).withBusData 2) s.unsynced.settle_settle

/-- It promises the bytes of the last command's output, and no other. -/
theorem isUnsynced_busRead_done {s : State} {r : Region} (h : s.status = .done) (hr : s.unsynced.latest = some r)
    (a : Nat) : (s.busRead .status).isUnsynced a = (s.isUnsynced a && !r.contains a) := by
  rw [busRead_status_done h]
  exact Unsynced.settle_contains hr a

/-- The host's two views of an output byte of a completed command: before it has read `DONE`, and after. -/
theorem hostMemRead_completed {s t : State} {k : Kernel} (hprep : s.Prepared k) (ht : s.CompletedTo t k) {r i : Nat}
    (hr : r < s.rows) (hi : i < 4) :
    hostMemRead (s.yBase + 4 * r + i) (t.busRead .status)
        = .next ((t.busRead .status).withMemData ((s.rowValue k r).extractLsb' (8 * i) 8))
      ∧ hostMemRead (s.yBase + 4 * r + i) t = .fault (.unsyncedOutput (s.yBase + 4 * r + i)) := by
  obtain ⟨-, -, hwritable, hside, -⟩ := hprep
  obtain ⟨hd, hout, -, hun, hparams, hregs, -⟩ := ht
  have hset : SameSetup t s := ⟨hparams, hregs⟩
  have hread := SameBlock.busRead t .status
  have hin : s.outputRegion.Has (s.yBase + 4 * r + i) :=
    outputBytes_in_region hr ⟨by simp only; omega, by simp only; omega⟩
  have hfault : t.addressFault (s.yBase + 4 * r + i) = none := by rw [hset.addressFault]; exact hwritable _ hin
  have hfree : t.params.hasSideEffect (s.yBase + 4 * r + i) = false := by
    rw [hparams]; exact hasSideEffect_of_output hside hin
  have hidle : t.status.isBusy = false := by rw [hd]; rfl
  have hbyte := hout r hr i hi
  rw [hset.yBase] at hbyte
  refine ⟨hostMemRead_answered (by rw [hread.setup.addressFault]; exact hfault) (by rw [busRead_params]; exact hfree)
      (inBusyOutput_of_not_busy (by rw [busRead_status]; exact hidle) _) ?_ (by rw [busRead_mem]; exact hbyte),
    hostMemRead_unsynced hfault hfree (inBusyOutput_of_not_busy hidle _) ?_⟩
  · rw [isUnsynced_busRead_done hd (by rw [hun]; rfl), (Region.contains_iff _ _).mpr hin]
    exact Bool.and_false _
  · unfold State.isUnsynced
    rw [hun, Unsynced.push_regions, List.any_cons, (Region.contains_iff _ _).mpr hin, Bool.true_or]

/-- Settles O44: the read of `DONE` settles the last command's range, and nothing else. -/
theorem outputSeenAfterDone : Obligations.OutputSeenAfterDone := by
  refine ⟨fun k s t h hv ht => ?_, fun s r hd hr => ?_⟩
  · obtain ⟨t', ht', hcomplete⟩ := kernelCommandsComplete k s h hv
    rw [ht] at ht'
    cases ht'
    obtain ⟨-, -, hprep⟩ := h
    have ⟨hdone, _⟩ := hcomplete
    exact ⟨t.busRead .status, rfl, by rw [busRead_status_done hdone]; rfl,
      fun r i hr hi => hostMemRead_completed hprep hcomplete hr hi⟩
  · have htwice : exec (.regRd 0x50) (s.busRead .status) = .next (s.busRead .status) :=
      congrArg Host.Outcome.next (busRead_status_done_twice hd)
    refine ⟨s.busRead .status, rfl, htwice, fun a ha => ?_, fun a ha => ?_⟩
    · rw [isUnsynced_busRead_done hd hr, (Region.contains_iff r a).mpr ha]
      exact Bool.and_false _
    · rw [isUnsynced_busRead_done hd hr, (Region.contains_eq_false r a).mpr ha]
      exact Bool.and_true _

end Sys2Proof.Machine
end

section
/-! PROOFS. Where the engine's next operation faults (R71, R78, R145), and the two refusing values of `ACC_OVERFLOW`
with the bound that makes them idle (R145). -/

namespace Sys2Proof.Machine

/-! ### A pass of the inner loop whose bytes are readable answers (R71, R78) -/

theorem load16_of_readable {s : State} {a : Nat} (h : ∀ t, t < 16 → s.Readable (a + t)) : ∃ bs, s.load16 a = .ok bs :=
  readBytes_of_readable h

/-- The chunk of a padded row from `base` on, from its columns. -/
theorem load16_of_columns {s : State} {base c : Nat} (h : ∀ j, j / 16 = c → s.Readable (base + j)) :
    ∃ bs, s.load16 (base + 16 * c) = .ok bs :=
  load16_of_readable fun t ht => by rw [Nat.add_assoc]; exact h _ (by omega)

/-- A pass of a four-row kernel, wherever its layout puts the chunks. -/
theorem blockChunk_of_readable {k : Kernel} {addr : Nat → Nat} {e : Engine} {s : State}
    (haddr : ∀ i t, i < 4 → t < 16 →
      addr i + t = s.wBase + layoutOffset k s.padded (4 * e.row + i) (16 * e.col + t))
    (hw : ∀ r j, r / 4 = e.row → j / 16 = e.col → s.Readable (s.wBase + layoutOffset k s.padded r j))
    (hx : ∀ j, j / 16 = e.col → s.Readable (s.xBase + j)) : ∃ e', blockChunk addr e s = .ok e' := by
  obtain ⟨xv, hxv⟩ := load16_of_columns hx
  unfold blockChunk
  rw [hxv]
  refine blockRows_of_loads fun i hi => load16_of_readable fun t ht => ?_
  rw [haddr i t hi ht]
  exact hw _ _ (by omega) (by omega)

theorem consume_of_readable {s : State} {e : Engine}
    (hw : ∀ r j, e.PassRow r → e.PassCol j → s.Readable (s.wBase + layoutOffset e.kernel s.padded r j))
    (hx : ∀ j, e.PassCol j → s.Readable (s.xBase + j)) : ∃ e', e.consume s = .ok e' := by
  unfold Engine.PassRow Engine.PassCol at hw
  unfold Engine.PassCol at hx
  unfold Engine.consume
  cases hk : e.kernel <;> simp only [hk] at hw hx ⊢
  case scalar =>
    obtain ⟨hwf, hwv⟩ := hw _ _ rfl rfl
    obtain ⟨hxf, hxv⟩ := hx _ rfl
    obtain ⟨w, hw'⟩ := Option.ne_none_iff_exists'.mp hwv
    obtain ⟨x, hx'⟩ := Option.ne_none_iff_exists'.mp hxv
    have hwread : s.readByte (s.wBase + e.row * s.padded + e.col) = .ok w := by
      rw [Nat.add_assoc]; exact readByte_ok.mpr ⟨hwf, hw'⟩
    unfold scalarMac
    rw [hwread, readByte_ok.mpr ⟨hxf, hx'⟩]
    exact ⟨_, rfl⟩
  case singleRow =>
    obtain ⟨wv, hwv⟩ := load16_of_columns (base := s.wBase + e.row * s.padded) fun j hj => by
      rw [Nat.add_assoc]; exact hw _ j rfl hj
    obtain ⟨xv, hxv⟩ := load16_of_columns hx
    unfold singleRowChunk singleRowDot
    rw [singleRowPrefetch_eq, hwv, hxv]
    exact ⟨_, rfl⟩
  case fourRowBlocked => exact blockChunk_of_readable (fun i t _ _ => blockedAddr_layout e s i t) hw hx
  case fourRowInterleaved => exact blockChunk_of_readable (fun _ _ => interleavedAddr_layout e s) hw hx

/-! ### The output of a row whose bytes are writable answers, unless its sum is turned away (R145) -/

/-- `refuse_out_of_range` turns row `r` away: its exact sum leaves the 32-bit range (R145). -/
def State.SumTurnedAway (s : State) (k : Kernel) (r : Nat) : Prop :=
  s.params.accOverflow = .refuseOutOfRange ∧ ¬ (-2 ^ 31 ≤ s.rowSum k r ∧ s.rowSum k r ≤ 2 ^ 31 - 1)

theorem fits32_eq_false_iff (v : Int) : fits32 v = false ↔ ¬ (-2 ^ 31 ≤ v ∧ v ≤ 2 ^ 31 - 1) := by
  unfold fits32
  rw [← Bool.not_eq_true, Bool.and_eq_true, decide_eq_true_eq, decide_eq_true_eq]
  omega

theorem sumTurnedAway_iff (s : State) (k : Kernel) (r : Nat) :
    s.SumTurnedAway k r ↔ s.params.accOverflow = .refuseOutOfRange ∧ fits32 (s.rowSum k r) = false :=
  and_congr_right fun _ => (fits32_eq_false_iff _).symm

theorem rowFault_of_sumTurnedAway {s : State} {k : Kernel} {r : Nat} (h : s.SumTurnedAway k r) :
    s.rowFault k r = some (.sumOutOfRange r) := if_pos ((sumTurnedAway_iff s k r).mp h)

theorem rowFault_of_not_sumTurnedAway {s : State} {k : Kernel} {r : Nat} (h : ¬ s.SumTurnedAway k r) :
    s.rowFault k r = none := if_neg (mt (sumTurnedAway_iff s k r).mpr h)

/-- What writing the output of some rows can come to, their bytes being writable: it goes through and none of the rows
is turned away, or it stops at one that is. -/
def State.WritesOrTurnsAway (s : State) (k : Kernel) (rows : Nat → Prop) (x : Except Fault State) : Prop :=
  ((∀ r, rows r → ¬ s.SumTurnedAway k r) ∧ ∃ t, x = .ok t)
    ∨ ∃ r, rows r ∧ s.SumTurnedAway k r ∧ x = .error (.sumOutOfRange r)

theorem State.WritesOrTurnsAway.congr {s : State} {k : Kernel} {p q : Nat → Prop} {x : Except Fault State}
    (h : s.WritesOrTurnsAway k p x) (hpq : ∀ r, p r ↔ q r) : s.WritesOrTurnsAway k q x := by
  obtain rfl : p = q := funext fun r => propext (hpq r)
  exact h

theorem emitRow_outcome {s : State} {r : Nat} (k : Kernel) (y : Word32)
    (hw : ∀ i, i < 4 → s.Writable (s.yBase + 4 * r + i)) : s.WritesOrTurnsAway k (· = r) (s.emitRow k r y) := by
  by_cases h : s.SumTurnedAway k r
  · refine .inr ⟨r, rfl, h, ?_⟩
    unfold State.emitRow
    rw [rowFault_of_sumTurnedAway h]
  · exact .inl ⟨fun q hq => hq ▸ h, emitRow_of_writable hw (rowFault_of_not_sumTurnedAway h)⟩

/-- An accepted command's row sums are the same wherever only its output has changed (R85, R137). -/
theorem rowSum_of_frame {s t : State} {k : Kernel} {r : Nat} (ha : s.acceptError k = none) (hset : SameSetup t s)
    (hm : ∀ a, ¬ s.outputRegion.Has a → t.mem.read a = s.mem.read a) (hr : r < s.rows) :
    t.rowSum k r = s.rowSum k r := by
  obtain ⟨-, -, -, -, hweights, hinput⟩ := acceptError_none ha
  unfold State.rowSum
  rw [hset.padded]
  exact partialSum_congr hset
    (fun j hj => hm _ fun ho => hweights _ ho (layout_in_weights (lt_of_lt_of_le hr (rows_le_weightRows s k)) hj))
    (fun j hj => hm _ fun ho => hinput _ ho (input_in_region hj))

theorem sumTurnedAway_of_frame {s t : State} {k : Kernel} {r : Nat} (ha : s.acceptError k = none)
    (hset : SameSetup t s) (hm : ∀ a, ¬ s.outputRegion.Has a → t.mem.read a = s.mem.read a) (hr : r < s.rows) :
    t.SumTurnedAway k r ↔ s.SumTurnedAway k r := by
  have hparams : t.params = s.params := hset.1
  unfold State.SumTurnedAway
  rw [rowSum_of_frame ha hset hm hr, hparams]

/-- Rows of a block written to the output change nothing outside it. -/
theorem blockEmitRows_frame {k : Kernel} {e : Engine} {s t : State} {m : Nat} (hm : m ≤ 4)
    (h : blockEmitRows k e s m = .ok t) :
    SameSetup t s ∧ ∀ a, ¬ s.outputRegion.Has a → t.mem.read a = s.mem.read a := by
  obtain ⟨mem, rfl, hwritten⟩ := blockEmitRows_ok (y := fun r => hsum (e.accs.get (r - 4 * e.row))) hm
    (fun i _ => by simp) h
  exact ⟨.of_withMem s mem, fun a ha => hwritten.frame a fun r _ hr hin =>
    ha (outputBytes_in_region (lt_of_lt_of_le hr (Nat.min_le_right _ _)) hin)⟩

/-- The output of the first `m` rows of a block. -/
theorem blockEmitRows_outcome {k : Kernel} {e : Engine} {s : State} (ha : s.acceptError k = none)
    (hw : ∀ r i, r / 4 = e.row → r < s.rows → i < 4 → s.Writable (s.yBase + 4 * r + i)) {m : Nat} (hm : m ≤ 4) :
    s.WritesOrTurnsAway k (fun r => 4 * e.row ≤ r ∧ r < 4 * e.row + m ∧ r < s.rows) (blockEmitRows k e s m) := by
  induction m with
  | zero => exact .inl ⟨fun r ⟨hlo, hhi, _⟩ => by omega, s, rfl⟩
  | succ m ih =>
    rcases ih (by omega) with ⟨hfit, t, ht⟩ | ⟨r, ⟨hlo, hhi, hlt⟩, haway, herr⟩
    · obtain ⟨hset, hframe⟩ := blockEmitRows_frame (by omega) ht
      simp only [blockEmitRows, ht]
      split
      · next hlt =>
        have hiff := sumTurnedAway_of_frame ha hset hframe hlt
        have hrow := emitRow_outcome (s := t) (r := 4 * e.row + m) k (hsum (e.accs.get m)) fun i hi => by
          unfold State.Writable
          rw [hset.yBase, hset.addressFault]
          exact hw _ i (by omega) hlt hi
        rcases hrow with ⟨hfit', ht'⟩ | ⟨_, rfl, haway, herr⟩
        · refine .inl ⟨fun r ⟨hlo, hhi, hr⟩ => ?_, ht'⟩
          by_cases hlast : r = 4 * e.row + m
          · exact hlast ▸ mt hiff.mpr (hfit' _ rfl)
          · exact hfit r ⟨hlo, by omega, hr⟩
        · exact .inr ⟨_, ⟨by omega, by omega, hlt⟩, hiff.mp haway, herr⟩
      · next hge => exact .inl ⟨fun r ⟨hlo, hhi, hr⟩ => hfit r ⟨hlo, by omega, hr⟩, t, rfl⟩
    · exact .inr ⟨r, ⟨hlo, by omega, hlt⟩, haway, by simp only [blockEmitRows, herr]⟩

/-- The output that ends a pass of the outer loop. -/
theorem emit_outcome {s : State} {e : Engine} (ha : s.acceptError e.kernel = none) (hrow : e.row < s.outer e.kernel)
    (hw : ∀ r i, e.PassRow r → r < s.rows → i < 4 → s.Writable (s.yBase + 4 * r + i)) :
    s.WritesOrTurnsAway e.kernel (fun r => e.PassRow r ∧ r < s.rows) (e.emit s) := by
  unfold Engine.emit
  unfold Engine.PassRow at hw ⊢
  cases hk : e.kernel <;> simp only [hk, State.outer] at ha hrow hw ⊢
  case scalar =>
    exact (emitRow_outcome .scalar e.acc fun i => hw _ i rfl hrow).congr fun r => by omega
  case singleRow =>
    exact (emitRow_outcome .singleRow (hsum (e.accs.get 0)) fun i => hw _ i rfl hrow).congr fun r => by omega
  case fourRowBlocked => exact (blockEmitRows_outcome ha hw (le_refl 4)).congr fun r => by omega
  case fourRowInterleaved => exact (blockEmitRows_outcome ha hw (le_refl 4)).congr fun r => by omega

/-! ### The engine's next operation -/

theorem Engine.exists_passRow (e : Engine) : ∃ r, e.PassRow r := by
  unfold Engine.PassRow
  cases e.kernel with
  | scalar => exact ⟨_, rfl⟩
  | singleRow => exact ⟨_, rfl⟩
  | fourRowBlocked => exact ⟨4 * e.row, Nat.mul_div_cancel_left _ (by decide)⟩
  | fourRowInterleaved => exact ⟨4 * e.row, Nat.mul_div_cancel_left _ (by decide)⟩

/-- An operation of an accepted command that finds its bytes readable and writable: it goes through, or writes a row
that is turned away. -/
theorem engineOp_outcome {s : State} {e : Engine} (ha : s.acceptError e.kernel = none)
    (hrow : e.row < s.outer e.kernel) (hcol : e.col ≤ s.inner e.kernel) (hreads : ∀ a, s.OpReads e a → s.Readable a)
    (hwrites : ∀ r i, s.OpWritesRow e r → i < 4 → s.Writable (s.yBase + 4 * r + i)) :
    s.WritesOrTurnsAway e.kernel (s.OpWritesRow e) (engineOp e s) := by
  unfold engineOp
  rw [if_pos hrow]
  split
  · next hlt =>
    obtain ⟨r₀, hr₀⟩ := e.exists_passRow
    obtain ⟨e', he'⟩ := consume_of_readable (s := s) (e := e)
      (fun r j hr hj => hreads _ ⟨hlt, r, j, hr, hj, .inl rfl⟩)
      (fun j hj => hreads _ ⟨hlt, r₀, j, hr₀, hj, .inr rfl⟩)
    rw [he']
    exact .inl ⟨fun r ⟨hlast, _⟩ => absurd hlast hlt.ne, _, rfl⟩
  · next hge =>
    have hlast : e.col = s.inner e.kernel := by omega
    rcases emit_outcome ha hrow (fun r i hr hlt hi => hwrites r i ⟨hlast, hr, hlt⟩ hi)
      with ⟨hfit, t, ht⟩ | ⟨r, ⟨hr, hlt⟩, haway, herr⟩
    · rw [ht]
      exact .inl ⟨fun r ⟨_, hr, hlt⟩ => hfit r ⟨hr, hlt⟩, _, rfl⟩
    · rw [herr]
      exact .inr ⟨r, ⟨hlast, hr, hlt⟩, haway, rfl⟩

/-- An operation of an accepted command answers exactly where it need not fault (R71, R78, R145). -/
theorem engineOp_ok_iff {s : State} {e : Engine} (ha : s.acceptError e.kernel = none) (hrow : e.row < s.outer e.kernel)
    (hcol : e.col ≤ s.inner e.kernel) : (∃ t, engineOp e s = .ok t) ↔ ¬ s.OpFaults e := by
  constructor
  · rintro ⟨t, ht⟩ (⟨a, hread, hno⟩ | ⟨r, hrows, ⟨i, hi, hno⟩ | haway⟩)
    · exact hno (engineOp_readable ht hrow hread)
    · exact hno (engineOp_writable ht hrow hrows hi)
    · rcases engineOp_outcome ha hrow hcol (fun a => engineOp_readable ht hrow)
        (fun r i hr hi => engineOp_writable ht hrow hr hi) with ⟨hfit, -⟩ | ⟨r', -, -, herr⟩
      · exact hfit r hrows haway
      · rw [ht] at herr; cases herr
  · intro h
    rcases engineOp_outcome ha hrow hcol (fun a hread => by_contra fun hno => h (.inl ⟨a, hread, hno⟩))
        (fun r i hr hi => by_contra fun hno => h (.inr ⟨r, hr, .inl ⟨i, hi, hno⟩⟩))
      with ⟨-, ht⟩ | ⟨r, hr, haway, -⟩
    · exact ht
    · exact absurd (.inr ⟨r, hr, .inr haway⟩) h

theorem SameBlock.opFaults {u s : State} (h : SameBlock u s) (e : Engine) : u.OpFaults e = s.OpFaults e :=
  h.view fun p r x m => (State.block p r x m).OpFaults e

/-- Settles O29: the step is the engine's operation, on the same block. -/
theorem busyStepFaultsExactlyWhere : Obligations.BusyStepFaultsExactlyWhere := by
  intro s e hs hb hmoves
  obtain ⟨u, hu, hstep⟩ := step_of_engineMoves hb hmoves
  obtain ⟨ha, -, hrow, hcol⟩ := hs.busy hb
  have hiff := engineOp_ok_iff (s := u) (e := e) (by rw [hu.setup.acceptError]; exact ha)
    (by rw [hu.setup.outer]; exact hrow) (by rw [hu.setup.inner]; exact hcol)
  rw [hu.opFaults] at hiff
  rw [hstep]
  constructor
  · intro hfaults
    cases hop : engineOp e u with
    | ok t => exact absurd hfaults (hiff.mp ⟨t, hop⟩)
    | error f => exact ⟨f, rfl⟩
  · intro hno
    obtain ⟨t, ht⟩ := hiff.mpr hno
    exact ⟨t, by rw [ht]; rfl⟩

/-! ### A run under `refuse_out_of_range` (R145) -/

theorem passCol_lt_padded {s : State} {e : Engine} {j : Nat} (hcol : e.col < s.inner e.kernel) (hj : e.PassCol j) :
    j < s.padded := by
  have hpadded := s.padded_eq
  unfold Engine.PassCol at hj
  cases hk : e.kernel <;> simp only [hk, State.inner] at hcol hj <;> omega

/-- A run whose buffers are readable and writable goes through, or stops at a row that is turned away. -/
theorem runEngine_cases {s : State} {k : Kernel} (hw : ∀ a, (s.weightRegion k).Has a → s.Readable a)
    (hx : ∀ a, s.inputRegion.Has a → s.Readable a) (hy : ∀ a, s.outputRegion.Has a → s.Writable a) {n : Nat} :
    ∀ {e : Engine} {m : Memory}, e.kernel = k → s.RunAt e m →
      (∃ t, (s.at e m).runEngine n = .ok t)
        ∨ ∃ r, r < s.rows ∧ (s.at e m).runEngine n = .error (.sumOutOfRange r) := by
  induction n with
  | zero => intro e m _ _; exact .inl ⟨_, rfl⟩
  | succ n ih =>
    intro e m hk h
    subst hk
    have hset := s.at_setup e m
    obtain ⟨-, -, -, -, hoverW, hoverX⟩ := acceptError_none h.accepted
    have hreads : ∀ a, (s.at e m).OpReads e a → (s.at e m).Readable a := by
      rintro a ⟨hcol, r, j, hr, hj, haddr⟩
      rw [hset.inner] at hcol
      rw [hset.wBase, hset.padded, hset.xBase] at haddr
      have hjlt := passCol_lt_padded hcol hj
      rcases haddr with rfl | rfl
      · have hin := layout_in_weights (passRow_lt_weightRows h.row hr) hjlt
        exact readable_at h (hw _ hin) fun ho => hoverW _ ho hin
      · have hin := input_in_region hjlt
        exact readable_at h (hx _ hin) fun ho => hoverX _ ho hin
    have hwrites : ∀ r i, (s.at e m).OpWritesRow e r → i < 4 →
        (s.at e m).Writable ((s.at e m).yBase + 4 * r + i) := by
      rintro r i ⟨-, -, hlt⟩ hi
      rw [hset.rows] at hlt
      unfold State.Writable
      rw [hset.yBase, hset.addressFault]
      exact hy _ (outputBytes_in_region hlt ⟨by simp only; omega, by simp only; omega⟩)
    rcases engineOp_outcome (s := s.at e m) (by rw [hset.acceptError]; exact h.accepted)
      (by rw [hset.outer]; exact h.row) (by rw [hset.inner]; exact h.col) hreads hwrites
      with ⟨-, t, ht⟩ | ⟨r, ⟨-, -, hlt⟩, -, herr⟩
    · rw [runEngine_succ_ok (s := s.at e m) ht]
      rcases engineOp_at h ht with ⟨e', m', rfl, hk', h', -⟩ | ⟨m', rfl, -⟩
      · exact ih hk' h'
      · exact .inl ⟨_, runEngine_not_busy rfl n⟩
    · rw [hset.rows] at hlt
      exact .inr ⟨r, hlt, runEngine_succ_error (s := s.at e m) herr n⟩

/-- A run that reaches its end has turned no row away. -/
theorem not_sumTurnedAway_of_runEngine {s t : State} {k : Kernel} (ha : s.acceptError k = none)
    (ht : (s.accept k).runEngine (s.opCount k) = .ok t) {r : Nat} (hr : r < s.rows) : ¬ s.SumTurnedAway k r := by
  intro haway
  obtain ⟨e, m, u, rfl, her, hec, hrun, hop⟩ := command_performs ha ht
    (outerPass_lt (lt_of_lt_of_le hr (rows_le_weightRows s k))) (le_refl _)
  have hset := s.at_setup e m
  refine (engineOp_ok_iff (s := s.at e m) (by rw [hset.acceptError]; exact ha) (by rw [hset.outer]; exact hrun.row)
    (by rw [hset.inner]; exact hrun.col)).mp ⟨u, hop⟩ (.inr ⟨r, ⟨?_, (passRow_iff e r).mpr her, ?_⟩, .inr ?_⟩)
  · rw [hset.inner]; exact hec
  · rw [hset.rows]; exact hr
  · exact (sumTurnedAway_of_frame ha hset hrun.frame hr).mpr haway

/-- The fault of a run is the fault of its command, in either reading of R139. -/
theorem exec_fault_of_runEngine {s : State} {k : Kernel} {f : Fault} (hgo : s.TakesGo) (ha : s.acceptError k = none)
    (hside : s.overSideEffects k = false) (hunsafe : s.unsafeK = false)
    (hp : s.params.visibleBusy = true → s.pending = [])
    (hf : (s.accept k).runEngine (s.opCount k) = .error f) :
    exec k.toInstr s = .fault f
      ∨ (s.params.visibleBusy = true ∧ exec k.toInstr s = .next (s.accept k)
          ∧ ∃ m, runs m (s.accept k) = .fault f) := by
  rw [exec_kernel, launch_accepted ((takesGo_iff s).mp hgo) ha hside hunsafe]
  unfold State.runCommand
  split
  · next hv =>
    refine .inr ⟨hv, rfl, s.opCount k, ?_⟩
    rw [runs_eq_runEngine (s := s.accept k) (hp hv), hf]
    rfl
  · exact .inl (by rw [hf]; rfl)

/-- Settles O27: the command with `K` past the bound is turned away at `GO`; the other has a row whose output must
fault, and no other fault can come before it. -/
theorem refusingOverflowModesFault : Obligations.RefusingOverflowModesFault := by
  refine ⟨fun k s hgo ha hside hacc hk => ?_, fun k s hgo ha hside hp hacc hw hx hy ⟨r, hr, hsum⟩ => ?_⟩
  · rw [exec_kernel]
    exact launch_unsafeK ((takesGo_iff s).mp hgo) ha hside ((unsafeK_iff s).mpr ⟨hacc, hk⟩)
  · have hunsafe : s.unsafeK = false := by
      rw [← Bool.not_eq_true, unsafeK_iff, hacc]
      exact fun ⟨hno, _⟩ => by cases hno
    rcases runEngine_cases hw hx hy (n := s.opCount k) rfl (runAt_start ha) with ⟨t, ht⟩ | ⟨r', hr', herr⟩
    · exact absurd ⟨hacc, hsum⟩ (not_sumTurnedAway_of_runEngine ha ht hr)
    · exact ⟨r', hr', exec_fault_of_runEngine hgo ha hside hunsafe hp herr⟩

/-! ### The safe bound of `K` (R145) -/

theorem prod_bounds (w x : Byte) : -16256 ≤ prod w x ∧ prod w x ≤ 16384 :=
  signedByte_mul_bounds (s8_bounds w) (s8_bounds x)

/-- Under zero padding the columns below `K` alone add to a sum over any columns. -/
theorem sum_columns_of_paddingZero {s : State} {k : Kernel} {r : Nat} (hz : s.PaddingZero k r) {cols : Finset Nat}
    (hcols : ∀ j ∈ cols, j < s.padded) :
    cols.sum (fun j => prod (s.weightByte k r j) (s.inputByte j))
      = (cols.filter (· < s.regs.k.toNat)).sum (fun j => prod (s.weightByte k r j) (s.inputByte j)) := by
  refine (Finset.sum_filter_of_ne fun j hj hne => ?_).symm
  by_contra hge
  exact hne (prod_eq_zero (hz j (by omega) (hcols j hj)))

/-- Settles O26: at most `K` products count, each within the bounds of R140. -/
theorem safeKNeverOverflows : Obligations.SafeKNeverOverflows := by
  intro k s r _ hk hz cols hcols
  rw [sum_columns_of_paddingZero hz hcols]
  set counted := cols.filter (· < s.regs.k.toNat)
  have hcard : counted.card ≤ 131071 := by
    have hsub : counted ⊆ Finset.range s.regs.k.toNat := fun j hj =>
      Finset.mem_range.mpr (Finset.mem_filter.mp hj).2
    exact (Finset.card_le_card hsub).trans (by rw [Finset.card_range]; exact hk)
  have hlow := counted.card_nsmul_le_sum (fun j => prod (s.weightByte k r j) (s.inputByte j)) (-16256)
    fun j _ => (prod_bounds _ _).1
  have hhigh := counted.sum_le_card_nsmul (fun j => prod (s.weightByte k r j) (s.inputByte j)) 16384
    fun j _ => (prod_bounds _ _).2
  rw [nsmul_eq_mul] at hlow hhigh
  omega

end Sys2Proof.Machine
end

section
/-! PROOFS. The layouts as bijections (R65, R66), the host's write of a byte and its next read (R75), and the errors of
the driver (R209, R210). -/

namespace Sys2Proof.Machine

/-! ### The layouts (R65, R66) -/

/-- Settles O36: row and column are read back from an offset, and every position has both. -/
theorem interleavedLayoutBijective : Obligations.InterleavedLayoutBijective := by
  intro n kpad h16
  refine ⟨fun r j r' j' _ hj _ hj' h => ⟨?_, ?_⟩, fun p hp => i4Offset_surjective h16 (ceil4_mod4 n) hp,
    fun r j hr hj => layoutOffset_lt .fourRowInterleaved h16 hr hj fun _ => ceil4_mod4 n⟩
  · rw [← i4Row_i4Offset h16 hj (r := r), h, i4Row_i4Offset h16 hj']
  · rw [← i4Col_i4Offset h16 hj (r := r), h, i4Col_i4Offset h16 hj']

/-- Settles O37: with one chunk a row, chunk and row of a block stand in the same order in both four-row layouts. -/
theorem layoutsCoincideWhereTheSpecSays : Obligations.LayoutsCoincideWhereTheSpecSays := by
  refine ⟨b4Offset_eq_rpOffset, fun r j hj => ?_⟩
  unfold i4Offset b4Offset
  omega

/-! ### A host write and the read after it (R75) -/

/-- A host write that is answered is to memory without read side effects. -/
theorem hasSideEffect_of_hostMemWrite {a : Nat} {b : Byte} {s t : State} (h : hostMemWrite a b s = .next t) :
    s.params.hasSideEffect a = false := by
  unfold hostMemWrite at h
  split at h
  · cases h
  · split at h
    · cases h
    · next hs => exact Bool.not_eq_true _ ▸ hs

/-- A byte outside a running command's buffers is outside its output. -/
theorem inBusyOutput_of_inBusyBuffers {s : State} {a : Nat} (h : s.inBusyBuffers a = false) :
    s.inBusyOutput a = false := by
  cases hb : s.status with
  | busy e =>
    rw [← Bool.not_eq_true, inBusyBuffers_iff hb] at h
    rw [← Bool.not_eq_true, inBusyOutput_iff hb]
    exact fun hout => h (.inr (.inr hout))
  | _ => exact inBusyOutput_of_not_busy (by rw [hb]; rfl) a

/-- After a host write that is answered, the host's read of the byte returns the value written, whatever is to come. -/
theorem hostMemRead_of_hostMemWrite {a : Nat} {b : Byte} {s t : State} (h : hostMemWrite a b s = .next t)
    (rest : List HostEvent) : hostMemRead a (t.withPending rest) = .next ((t.withPending rest).withMemData b) := by
  have hside := hasSideEffect_of_hostMemWrite h
  obtain ⟨rfl, hf, hbuf, hlatest⟩ := hostMemWrite_next h
  refine hostMemRead_answered hf hside (inBusyOutput_of_inBusyBuffers hbuf) ?_ (Memory.read_write_same s.mem a b)
  refine (Unsynced.release_contains hlatest a).trans ?_
  rw [decide_eq_true rfl]
  exact Bool.and_false _

/-- Settles O42. -/
theorem hostWriteThenRead : Obligations.HostWriteThenRead := by
  intro s t a b rest hp h
  rw [step_memWrite hp] at h
  have hread := hostMemRead_of_hostMemWrite h rest
  obtain ⟨rfl, -⟩ := hostMemWrite_next h
  exact ⟨fun x hx => Memory.read_write_other s.mem b hx, rfl, rfl, _, (step_memRead rfl).trans hread, rfl, rfl, rfl⟩

/-! ### The parts of the driver (R209) -/

theorem hostRun_nil {s : State} (h : s.pending = []) (fuel : Nat) : hostRun fuel s = .next (s, []) := by
  cases fuel with
  | zero => rfl
  | succ n =>
    unfold hostRun
    rw [if_pos h]

theorem step_rdEvent {s : State} {r : Reg} {rest : List HostEvent}
    (hp : s.pending = rdEvent s.params.regBase r :: rest) : step s = .next ((s.withPending rest).busRead r) := by
  have hd : decodeAccess s.params.regBase (readAccess s.params.regBase r.offset) = .ok (.regRd r.offset) :=
    (decodeAccess_at_offset _ _ _ _).trans (decodeBus_aligned ((offsetAligned_iff _).mpr (offset_mod8 r)) false 0)
  rw [step_access hp hd, exec_regRd_aligned (offset_mod8 r), regAt_offset]

/-- The driver's read of a register, a part of its own: one step, and what follows sees the value read. -/
theorem driverPart_rdEvent {fuel : Nat} (h : 1 ≤ fuel) (s : State) (r : Reg)
    (andThen : State → List Byte → DriverEnd) :
    driverPart fuel [rdEvent s.params.regBase r] s andThen = andThen ((s.withPending []).busRead r) [] := by
  obtain ⟨n, rfl⟩ := Nat.exists_eq_add_of_le' h
  have hpending : ((s.withPending []).busRead r).pending = [] := busRead_pending _ r
  have hstep : step (s.withPending [rdEvent s.params.regBase r]) = .next ((s.withPending []).busRead r) :=
    step_rdEvent rfl
  have hrun : hostRun (n + 1) (s.withPending [rdEvent s.params.regBase r])
      = .next ((s.withPending []).busRead r, []) := by
    unfold hostRun
    rw [if_neg (by simp), hstep]
    simp only [hostRun_nil hpending]
    rfl
  unfold driverPart
  rw [hrun]
  exact if_pos hpending

/-- A part that ends the driver by an exit ends it as what follows the part does. -/
theorem driverPart_exited {fuel : Nat} {evs : List HostEvent} {s : State} {andThen : State → List Byte → DriverEnd}
    {code : Nat} {rep : Option Validation} (h : driverPart fuel evs s andThen = .exited code rep) :
    ∃ t bytes, andThen t bytes = .exited code rep := by
  unfold driverPart at h
  split at h
  · cases h
  · cases h
  · next t bytes _ =>
    split at h
    · exact ⟨t, bytes, h⟩
    · cases h

/-! ### The errors of the driver (R210) -/

theorem bad_iff (cfg : BenchConfig) : cfg.bad = true ↔ cfg.n = 0 ∨ cfg.k = 0 ∨ cfg.iterations = 0 := by
  simp [BenchConfig.bad, or_assoc]

/-- What the driver learns from `CAP` is the capability (R24). -/
theorem capWord_bit0 (s : State) : s.capWord.getLsbD 0 = s.params.hasDotprod := by
  unfold State.capWord
  cases s.params.hasDotprod <;> rfl

/-- A weight source of the wrong length is an error of the driver's work (R207). -/
theorem driverWork_error {cfg : BenchConfig} {file : List Byte} (hfile : cfg.weights = some file)
    (hlen : file.length ≠ cfg.n * cfg.k) (regBase : Nat) (ws vs : Word64) (p : Placement) :
    driverWork regBase cfg ws vs p = .error .weightIO := by
  have hraw : rawMatrix cfg ws = .error .weightIO := by
    unfold rawMatrix loadWeights
    simp only [hfile]
    exact if_neg hlen
  unfold driverWork
  rw [hraw]

/-- After its read of `CAP` the driver errs on a missing capability, on an allocation that is none or not legal, and on
a weight source of the wrong length. -/
theorem driverEvents_error {hasDotprod : Bool} {addrBits regBase : Nat} {cfg : BenchConfig} {ws vs : Word64}
    {allocated : Option Placement}
    (h : (cfg.kernel ≠ .scalar ∧ hasDotprod = false) ∨ allocated = none
      ∨ (∃ q, allocated = some q ∧ q.legal addrBits cfg.n cfg.k = false)
      ∨ (∃ file, cfg.weights = some file ∧ file.length ≠ cfg.n * cfg.k)) :
    ∃ e, driverEvents hasDotprod addrBits regBase cfg ws vs allocated = .error e := by
  unfold driverEvents
  split
  · exact ⟨_, rfl⟩
  · split
    · exact ⟨_, rfl⟩
    · next hcap =>
      cases allocated with
      | none => exact ⟨_, rfl⟩
      | some p =>
        simp only
        split
        · next hlegal =>
          rcases h with h | h | ⟨q, hq, hno⟩ | ⟨file, hfile, hlen⟩
          · exact absurd h hcap
          · cases h
          · cases hq; rw [hlegal] at hno; cases hno
          · rw [driverWork_error hfile hlen]; exact ⟨_, rfl⟩
        · exact ⟨_, rfl⟩

/-- An error after the read of `CAP` ends the driver with code 1 and no report. -/
theorem driverRun_of_driverEvents_error {fuel : Nat} (hfuel : 1 ≤ fuel) {cfg : BenchConfig} (hbad : cfg.bad = false)
    (ws vs : Word64) (allocated : Option Placement) (s : State) {e : HostError}
    (he : driverEvents s.params.hasDotprod s.params.addrBits s.params.regBase cfg ws vs allocated = .error e) :
    driverRun fuel cfg ws vs allocated s = .exited 1 none := by
  have hcap : ((s.withPending []).busRead .cap).busData.getLsbD 0 = s.params.hasDotprod :=
    capWord_bit0 (s.withPending [])
  unfold driverRun
  rw [hbad, if_neg Bool.false_ne_true, driverPart_rdEvent hfuel, hcap, he]
  rfl

theorem driverReport_isSome (cfg : BenchConfig) (bytes : List Byte) :
    (driverReport cfg bytes).isSome = true ↔ cfg.check = true := by
  unfold driverReport
  cases cfg.check <;> simp

/-- The driver's only end with code 0 is the one after its read-back. -/
theorem driverFinish_exited_zero {fuel : Nat} {cfg : BenchConfig} {p : Placement} {s : State}
    {rep : Option Validation} (h : driverFinish fuel cfg p s = .exited 0 rep) :
    ∃ bytes, rep = driverReport cfg bytes := by
  unfold driverFinish at h
  split at h
  · obtain ⟨-, bytes, hend⟩ := driverPart_exited h
    cases hend
    exact ⟨bytes, rfl⟩
  · cases h

theorem driverRun_exited_zero {fuel : Nat} {cfg : BenchConfig} {ws vs : Word64} {allocated : Option Placement}
    {s : State} {rep : Option Validation} (h : driverRun fuel cfg ws vs allocated s = .exited 0 rep) :
    ∃ bytes, rep = driverReport cfg bytes := by
  unfold driverRun at h
  split at h
  · cases h
  · obtain ⟨t, -, hevents⟩ := driverPart_exited h
    split at hevents
    · cases hevents
    · obtain ⟨u, -, hfinish⟩ := driverPart_exited hevents
      exact driverFinish_exited_zero hfinish

/-- Settles O41: a bad configuration ends the driver at once, every other error after the read of `CAP`. -/
theorem driverErrorsExitWithOne : Obligations.DriverErrorsExitWithOne := by
  refine ⟨fun fuel cfg ws vs p s hfuel h => ?_, fun fuel cfg ws vs p s rep h => ?_⟩
  · cases hbad : cfg.bad with
    | true =>
      unfold driverRun
      rw [hbad]
      rfl
    | false =>
      have hdims : ¬ (cfg.n = 0 ∨ cfg.k = 0 ∨ cfg.iterations = 0) := by
        rw [← bad_iff, hbad]
        exact Bool.false_ne_true
      simp only [not_or] at hdims
      obtain ⟨hn, hk, hit⟩ := hdims
      obtain ⟨e, he⟩ := driverEvents_error (((h.resolve_left hn).resolve_left hk).resolve_left hit)
      exact driverRun_of_driverEvents_error hfuel hbad ws vs p s he
  · obtain ⟨bytes, rfl⟩ := driverRun_exited_zero h
    exact driverReport_isSome cfg bytes

end Sys2Proof.Machine
end
